-- ==== Sys2Proof/Word.lean ====
section
/-! DEFINITION. The byte, the Color (00_scope.md R10), and nothing else: every wider value of the block is assembled in Decode.lean. -/

namespace Sys2Proof

/-- One octet of the input stream, of the payload or of a pixel (00_scope.md R8, R9: bit 0 has weight 1). -/
abbrev Byte := BitVec 8

/-- "an immutable triple of 8-bit channel values (red, green, blue)" (00_scope.md R10). -/
structure Color where
  r : Byte
  g : Byte
  b : Byte
deriving DecidableEq, Repr

end Sys2Proof
end

