-- ==== Sys2Proof/Config.lean ====
section
/-! DEFINITION. The constants of 00_scope.md R6, and the parameters of R7 that are fixed when the hardware is built. -/

namespace Sys2Proof

/-! ### Constants the source fixes (R6) -/

/-- `MAX_WIDTH`: the widest code. -/
abbrev maxWidth : Nat := 12
/-- `MAX_CODE`: the largest code the cursor returns. -/
abbrev maxCode : Nat := 4095
/-- `TABLE_MAX`: the most entries of the Code Table. -/
abbrev tableMax : Nat := 4096
/-- The largest `MCS` that `LzwInit` takes (41_lzw.md R140). -/
abbrev maxMcs : Nat := 11
/-- `DEFAULT_DELAY_MS`. -/
abbrev defaultDelayMs : BitVec 20 := 100
/-- `DELAY_SCALE`. -/
abbrev delayScale : Nat := 10
/-- `INTRO_EXT`. -/
abbrev introExt : Byte := 0x21
/-- `INTRO_IMG`. -/
abbrev introImg : Byte := 0x2C
/-- `INTRO_TRL`. -/
abbrev introTrl : Byte := 0x3B
/-- `LBL_GCE`. -/
abbrev labelGce : Byte := 0xF9
/-- `LBL_PTE`. -/
abbrev labelPte : Byte := 0x01
/-- `LBL_APP`. -/
abbrev labelApp : Byte := 0xFF

/-! ### Parameters (R7) -/

/-- `LSD_RES_LSB`: where the 3-bit resolution stands in the screen descriptor's packed byte
(30_encoding.md R95). The spec allows the two places and no other. -/
inductive LsdRes where
  | bits2to0
  | bits6to4
deriving DecidableEq, Repr

/-- The value of `LSD_RES_LSB`. -/
def LsdRes.lsb : LsdRes → Nat
  | .bits2to0 => 0
  | .bits6to4 => 4

/-- What is fixed when the hardware is built (70_reset_and_hazards.md R285). A capacity `none` is
unbounded. A field of State holds it (log 3), so that a statement about every state is about every
choice of these parameters. -/
structure Config where
  lsdRes     : LsdRes
  frameCap   : Option Nat
  payloadCap : Option Nat
  pixelCap   : Option Nat
deriving DecidableEq, Repr

/-- The defaults of R7: `LSD_RES_LSB = 0` and no capacity. -/
def Config.standard : Config :=
  { lsdRes := .bits2to0, frameCap := none, payloadCap := none, pixelCap := none }

/-- A capacity test of the form `n > CAP`; an unbounded capacity is never exceeded (60_exceptions.md R248). -/
def exceedsCap (cap : Option Nat) (n : Nat) : Bool :=
  match cap with
  | none => false
  | some c => decide (c < n)

end Sys2Proof
end

