-- ==== Sys2Proof/Syntax.lean ====
section
/-! DEFINITION. The tokens of the input that select what the core does next (30_encoding.md): the 24 rows of
opcode_table.json as one inductive, and the names of the places where a token can stand. -/

namespace Sys2Proof

/-- Where the next code of the payload stands (30_encoding.md R106): the first code of the payload, the code
right after a Clear Code, or a code of the main loop. -/
inductive CodePos where
  | start
  | first
  | loop
deriving DecidableEq, Repr

/-- The classes of a code (30_encoding.md R106), the two positions that are decoded differently included. -/
inductive CodeClass where
  | start
  | first
  | clear
  | eoi
  | known
  | kwkwk
  | illegal
deriving DecidableEq, Repr

/-- One token. The operands are the fields of the structure's format, the ignored ones included, so that
every byte of an encoding is in the term. A code-stream token carries its width `w` (its length in bits)
and its value `c`. -/
inductive Instr where
  /-- `HDR87`, format SIG (R94). -/
  | hdr87
  /-- `HDR89`, format SIG (R94). -/
  | hdr89
  /-- `LSD` (R95): width, height, the packed byte, and the two ignored bytes. -/
  | lsd (width height : BitVec 16) (packed background aspect : Byte)
  /-- `GCT`, format CT (R96). -/
  | gct (entries : List Color)
  /-- `LCT`, format CT (R96). -/
  | lct (entries : List Color)
  /-- `EXT`, format INTRO (R97): a lookahead, nothing is consumed. -/
  | ext
  /-- `IMG`, format INTRO (R97). -/
  | img
  /-- `TRL`, format INTRO (R97). -/
  | trl
  /-- `GCE`, format EXTHDR (R98); `intro` is the introducer byte, 0x21 in the table's row. -/
  | gce (intro : Byte)
  /-- `PTE`, format EXTHDR (R98). -/
  | pte (intro : Byte)
  /-- `APP`, format EXTHDR (R98). -/
  | app (intro : Byte)
  /-- `CMT`, format EXTHDR (R98): every other label. -/
  | cmt (intro label : Byte)
  /-- `GCEBODY` (R99): the skipped byte, the ignored flags, the delay field, the ignored fourth byte, the terminator. -/
  | gceBody (skipped flags : Byte) (delay : BitVec 16) (transparent terminator : Byte)
  /-- `ID` (R100): introducer, the ignored position, width, height, the packed byte. -/
  | imgDesc (intro : Byte) (left top width height : BitVec 16) (packed : Byte)
  /-- `IDATA` (R102): the `lzw_min_code_size` byte and the data of each sub-block before the zero-length one. -/
  | idata (mcs : Byte) (blocks : List (List Byte))
  /-- `SUBCHAIN` (R101). -/
  | subchain (blocks : List (List Byte))
  /-- `TRLBYTE`, format TRL (R103). -/
  | trlByte (marker : Byte)
  /-- `LZW.START` (R106). -/
  | lzwStart (w c : Nat)
  /-- `LZW.FIRST` (R106). -/
  | lzwFirst (w c : Nat)
  /-- `LZW.CLEAR` (R106): the Clear Code; the code it takes along is read from the payload when it runs. -/
  | lzwClear (w c : Nat)
  /-- `LZW.EOI` (R106). -/
  | lzwEoi (w c : Nat)
  /-- `LZW.KNOWN` (R106). -/
  | lzwKnown (w c : Nat)
  /-- `LZW.KWKWK` (R106). -/
  | lzwKwkwk (w c : Nat)
  /-- `LZW.ILLEGAL` (R106). -/
  | lzwIllegal (w c : Nat)
deriving DecidableEq, Repr

/-- The token of a code of a given class, width and value. -/
def CodeClass.instr : CodeClass → Nat → Nat → Instr
  | .start, w, c => .lzwStart w c
  | .first, w, c => .lzwFirst w c
  | .clear, w, c => .lzwClear w c
  | .eoi, w, c => .lzwEoi w c
  | .known, w, c => .lzwKnown w c
  | .kwkwk, w, c => .lzwKwkwk w c
  | .illegal, w, c => .lzwIllegal w c

end Sys2Proof
end

