-- ==== Sys2Proof/WellFormed.lean ====
section
/-! DEFINITION. Which terms of `Instr` stand for a row's encoding: the bounds that the types leave open. -/

namespace Sys2Proof

/-- The lengths a color table can have: `2^(N+1)` for a resolution N of 0 to 7 (30_encoding.md R96). -/
def tableLengths : List Nat := [2, 4, 8, 16, 32, 64, 128, 256]

/-- A sub-block before the terminating one has 1 to 255 payload bytes (30_encoding.md R101). -/
def blockOk (b : List Byte) : Bool := decide (0 < b.length) && decide (b.length < 256)

/-- A code fits its width, and the width is one the LZW unit presents (30_encoding.md R105, 40_bitcursor.md R130). -/
def codeOk (w c : Nat) : Bool := decide (1 ≤ w) && decide (w ≤ maxWidth) && decide (c < 2 ^ w)

/-- Well-formed: the term is an encoding of its row of opcode_table.json (introducer bytes as the row's match has
them, `CMT` without the labels of the rows above it, the `GCEBODY` terminator and the `TRLBYTE` marker any byte:
the meaning tests them). -/
def Instr.wf : Instr → Bool
  | .hdr87 => true
  | .hdr89 => true
  | .lsd _ _ _ _ _ => true
  | .gct entries => tableLengths.contains entries.length
  | .lct entries => tableLengths.contains entries.length
  | .ext => true
  | .img => true
  | .trl => true
  | .gce intro => intro == introExt
  | .pte intro => intro == introExt
  | .app intro => intro == introExt
  | .cmt intro label => intro == introExt && label != labelGce && label != labelPte && label != labelApp
  | .gceBody _ _ _ _ _ => true
  | .imgDesc intro _ _ _ _ _ => intro == introImg
  | .idata _ blocks => blocks.all blockOk
  | .subchain blocks => blocks.all blockOk
  | .trlByte _ => true
  | .lzwStart w c => codeOk w c
  | .lzwFirst w c => codeOk w c
  | .lzwClear w c => codeOk w c
  | .lzwEoi w c => codeOk w c
  | .lzwKnown w c => codeOk w c
  | .lzwKwkwk w c => codeOk w c
  | .lzwIllegal w c => codeOk w c

end Sys2Proof
end

