-- ==== Sys2Proof/Decode.lean ====
section
/-! DEFINITION. The bit-field and byte-order helpers, the Bit Cursor, the decoder (total; it rejects by name), and
after it the encoder, written from the same format tables of 30_encoding.md. -/

namespace Sys2Proof

/-! ### Byte order and bit fields -/

/-- `U16LE(lo, hi) = lo | (hi << 8)` (30_encoding.md R92). -/
def u16le (lo hi : Byte) : BitVec 16 := lo.setWidth 16 ||| (hi.setWidth 16 <<< 8)

/-- `packed[lo+2:lo]`, a 3-bit field (30_encoding.md R93). -/
def field3 (packed : Byte) (lo : Nat) : BitVec 3 := packed.extractLsb' lo 3

/-- `packed[i]`, a one-bit flag (00_scope.md R9). -/
def flagBit (packed : Byte) (i : Nat) : Bool := packed.getLsbD i

/-! ### The Bit Cursor (40_bitcursor.md) -/

/-- Why a token could not be read. Each is answered by one operation of Machine/Fetch.lean. -/
inductive Reject where
  /-- `CONTENT` finds no byte (43_container.md R186). -/
  | endOfStream
  /-- Six bytes that are neither signature (R182). -/
  | badSignature
  /-- A lookahead byte that is no introducer (R185). -/
  | badIntroducer (b : Byte)
  /-- The stream ends inside a structure; the reads that completed before took `k` bytes (20_memory.md R63, R64). -/
  | short (k : Nat)
  /-- The stream ends at the terminator of a GCE body whose delay field was read (R199). -/
  | shortTerminator (delay : BitVec 16)
  /-- The stream ends inside the chain of an `IDATA`, after these whole sub-blocks, and after the length byte
  of a further one where `len` holds it (R193). -/
  | shortIdata (mcs : Byte) (blocks : List (List Byte)) (len : Option Byte)
  /-- The same inside a `SUBCHAIN` (R202). -/
  | shortChain (blocks : List (List Byte)) (len : Option Byte)
  /-- Fewer bits of the payload are left than the code width (40_bitcursor.md R132). -/
  | shortPayload
  /-- The assembled code exceeds 4095 (R131). -/
  | codeTooLarge (v : Nat)
deriving DecidableEq, Repr

/-- Bit `i` of the payload: `(PAY[i div 8] >> (i mod 8)) & 1` (20_memory.md R65). -/
def payBit (pay : List Byte) (i : Nat) : Bool := (pay.getD (i / 8) 0).getLsbD (i % 8)

/-- `Σ_{k<n} bit(off+k) × 2^k`, the closed form of 40_bitcursor.md R130. -/
def codeValue (pay : List Byte) (off : Nat) : Nat → Nat
  | 0 => 0
  | n + 1 => codeValue pay off n + (payBit pay (off + n)).toNat * 2 ^ n

/-- `ReadCode(P, off, W)` (40_bitcursor.md R130): the code and the new offset; the underrun test of R132 stands
before the 12-bit guard of R131. -/
def readCode (pay : List Byte) (off w : Nat) : Except Reject (Nat × Nat) :=
  if off + w > 8 * pay.length then .error .shortPayload
  else if codeValue pay off w > maxCode then .error (.codeTooLarge (codeValue pay off w))
  else .ok (codeValue pay off w, off + w)

/-! ### The code stream (30_encoding.md R105, R106) -/

/-- What the decoder of the code stream looks at beside the payload. -/
structure CodeSlot where
  pos   : CodePos
  off   : Nat
  w     : Nat
  cc    : Nat
  eoi   : Nat
  tsize : Nat
deriving DecidableEq, Repr

/-- The opcode map of the main loop; the first test that holds decides (30_encoding.md R106). -/
def classify (cc eoi tsize c : Nat) : CodeClass :=
  if c = cc then .clear
  else if c = eoi then .eoi
  else if c < tsize then .known
  else if c = tsize then .kwkwk
  else .illegal

/-- The class of code `c` at a place: the first code and the code after a Clear Code are not compared with the
reserved codes (30_encoding.md R106). -/
def CodeSlot.classOf (sl : CodeSlot) (c : Nat) : CodeClass :=
  match sl.pos with
  | .start => .start
  | .first => .first
  | .loop => classify sl.cc sl.eoi sl.tsize c

/-- Decode the code at a place of the payload: its class and its value. -/
def decodeClass (sl : CodeSlot) (pay : List Byte) : Except Reject (CodeClass × Nat) :=
  match readCode pay sl.off sl.w with
  | .error r => .error r
  | .ok (c, _) => .ok (sl.classOf c, c)

/-- Decode the code at a place of the payload into its token. -/
def decodeCode (sl : CodeSlot) (pay : List Byte) : Except Reject Instr :=
  match decodeClass sl pay with
  | .error r => .error r
  | .ok (k, c) => .ok (k.instr sl.w c)

/-! ### The container (30_encoding.md R90, R112) -/

/-- Which structure stands next, as the parser state says (30_encoding.md R112); a color table's length comes from
the resolution read before it (R109). -/
inductive Slot where
  | sig
  | lsd
  | gct (res : BitVec 3)
  | lct (res : BitVec 3)
  | intro
  | extHdr
  | gceBody
  | imgDesc
  | idata
  | subchain
  | trl
deriving DecidableEq, Repr

/-- The number of Colors of a table of resolution N: `2^(N+1)` (30_encoding.md R96). -/
def tableEntries (res : BitVec 3) : Nat := 2 ^ (res.toNat + 1)

/-- `n` triples in the order red, green, blue (30_encoding.md R96, 42_colortable.md R170). -/
def takeTriples : Nat → List Byte → Option (List Color)
  | 0, _ => some []
  | n + 1, r :: g :: b :: rest =>
    match takeTriples n rest with
    | some cs => some (⟨r, g, b⟩ :: cs)
    | none => none
  | _ + 1, _ => none

/-- What a walk over a chain of sub-blocks finds: the whole chain, or where the stream cut it. -/
inductive ChainRead where
  | full (blocks : List (List Byte))
  | cut (blocks : List (List Byte)) (len : Option Byte)
deriving DecidableEq, Repr

/-- Put a sub-block in front of what the rest of the walk finds. -/
def ChainRead.push (b : List Byte) : ChainRead → ChainRead
  | .full bs => .full (b :: bs)
  | .cut bs len => .cut (b :: bs) len

/-- Walk a chain of sub-blocks (30_encoding.md R101). The first argument bounds the number of sub-blocks; the length of
the byte list is enough. -/
def readChain : Nat → List Byte → ChainRead
  | 0, _ => .cut [] none
  | _ + 1, [] => .cut [] none
  | fuel + 1, len :: bs =>
    if len = 0 then .full []
    else if bs.length < len.toNat then .cut [] (some len)
    else (readChain fuel (bs.drop len.toNat)).push (bs.take len.toNat)

/-- Format SIG (30_encoding.md R94). -/
def decodeSig : List Byte → Except Reject Instr
  | b0 :: b1 :: b2 :: b3 :: b4 :: b5 :: _ =>
    if [b0, b1, b2, b3, b4, b5] = [0x47, 0x49, 0x46, 0x38, 0x37, 0x61] then .ok .hdr87
    else if [b0, b1, b2, b3, b4, b5] = [0x47, 0x49, 0x46, 0x38, 0x39, 0x61] then .ok .hdr89
    else .error .badSignature
  | _ => .error (.short 0)

/-- Format LSD (30_encoding.md R95). -/
def decodeLsd : List Byte → Except Reject Instr
  | b0 :: b1 :: b2 :: b3 :: b4 :: b5 :: b6 :: _ => .ok (.lsd (u16le b0 b1) (u16le b2 b3) b4 b5 b6)
  | _ => .error (.short 0)

/-- Format CT (30_encoding.md R96); cut short, the whole triples before the cut were read (42_colortable.md R171). -/
def decodeTable (res : BitVec 3) (bs : List Byte) : Except Reject (List Color) :=
  match takeTriples (tableEntries res) bs with
  | some cs => .ok cs
  | none => .error (.short (3 * (bs.length / 3)))

/-- Format INTRO (30_encoding.md R97). -/
def decodeIntro : List Byte → Except Reject Instr
  | b :: _ =>
    if b = introExt then .ok .ext
    else if b = introImg then .ok .img
    else if b = introTrl then .ok .trl
    else .error (.badIntroducer b)
  | [] => .error .endOfStream

/-- Format EXTHDR (30_encoding.md R98). The introducer byte is not tested (43_container.md R198; log 14). -/
def decodeExtHdr : List Byte → Except Reject Instr
  | b0 :: b1 :: _ =>
    if b1 = labelGce then .ok (.gce b0)
    else if b1 = labelPte then .ok (.pte b0)
    else if b1 = labelApp then .ok (.app b0)
    else .ok (.cmt b0 b1)
  | _ => .error (.short 0)

/-- Format GCEBODY (30_encoding.md R99). Its three reads are of 1, 4 and 1 bytes (43_container.md R199). -/
def decodeGceBody : List Byte → Except Reject Instr
  | b0 :: d0 :: d1 :: d2 :: d3 :: t :: _ => .ok (.gceBody b0 d0 (u16le d1 d2) d3 t)
  | [_, _, d1, d2, _] => .error (.shortTerminator (u16le d1 d2))
  | _ :: _ => .error (.short 1)
  | [] => .error (.short 0)

/-- Format ID (30_encoding.md R100). The introducer byte is not tested (43_container.md R190; log 14). -/
def decodeImgDesc : List Byte → Except Reject Instr
  | b0 :: b1 :: b2 :: b3 :: b4 :: b5 :: b6 :: b7 :: b8 :: b9 :: _ =>
    .ok (.imgDesc b0 (u16le b1 b2) (u16le b3 b4) (u16le b5 b6) (u16le b7 b8) b9)
  | _ => .error (.short 0)

/-- Format IDATA (30_encoding.md R102). -/
def decodeIdata : List Byte → Except Reject Instr
  | mcs :: bs =>
    match readChain bs.length bs with
    | .full blocks => .ok (.idata mcs blocks)
    | .cut blocks len => .error (.shortIdata mcs blocks len)
  | [] => .error (.short 0)

/-- Format SUBCHAIN (30_encoding.md R101). -/
def decodeSubchain (bs : List Byte) : Except Reject Instr :=
  match readChain bs.length bs with
  | .full blocks => .ok (.subchain blocks)
  | .cut blocks len => .error (.shortChain blocks len)

/-- Format TRL (30_encoding.md R103). -/
def decodeTrl : List Byte → Except Reject Instr
  | b :: _ => .ok (.trlByte b)
  | [] => .error (.short 0)

/-- The container decoder: the token that a slot reads from the bytes ahead (30_encoding.md R112). -/
def decodeBlock (sl : Slot) (bs : List Byte) : Except Reject Instr :=
  match sl with
  | .sig => decodeSig bs
  | .lsd => decodeLsd bs
  | .gct res => (decodeTable res bs).map Instr.gct
  | .lct res => (decodeTable res bs).map Instr.lct
  | .intro => decodeIntro bs
  | .extHdr => decodeExtHdr bs
  | .gceBody => decodeGceBody bs
  | .imgDesc => decodeImgDesc bs
  | .idata => decodeIdata bs
  | .subchain => decodeSubchain bs
  | .trl => decodeTrl bs

/-! ### The encoder -/

/-- The low byte of a 16-bit field. -/
def lowByte (v : BitVec 16) : Byte := v.setWidth 8

/-- The high byte of a 16-bit field. -/
def highByte (v : BitVec 16) : Byte := (v >>> 8).setWidth 8

/-- The three bytes of a Color (20_memory.md R67 item 3). -/
def colorBytes (c : Color) : List Byte := [c.r, c.g, c.b]

/-- The bytes of a color table (30_encoding.md R96). -/
def encodeTable (entries : List Color) : List Byte := entries.flatMap colorBytes

/-- The bytes of a chain of sub-blocks, the zero-length one included (30_encoding.md R101). -/
def encodeChain : List (List Byte) → List Byte
  | [] => [0]
  | b :: bs => BitVec.ofNat 8 b.length :: b ++ encodeChain bs

/-- The bytes of a container token; for the three lookahead tokens the byte that is looked at. A code-stream token
has no bytes of its own (its bits are `codeBits`). -/
def encodeBlock : Instr → List Byte
  | .hdr87 => [0x47, 0x49, 0x46, 0x38, 0x37, 0x61]
  | .hdr89 => [0x47, 0x49, 0x46, 0x38, 0x39, 0x61]
  | .lsd w h packed bg aspect => [lowByte w, highByte w, lowByte h, highByte h, packed, bg, aspect]
  | .gct entries => encodeTable entries
  | .lct entries => encodeTable entries
  | .ext => [introExt]
  | .img => [introImg]
  | .trl => [introTrl]
  | .gce intro => [intro, labelGce]
  | .pte intro => [intro, labelPte]
  | .app intro => [intro, labelApp]
  | .cmt intro label => [intro, label]
  | .gceBody skipped flags delay transparent terminator =>
    [skipped, flags, lowByte delay, highByte delay, transparent, terminator]
  | .imgDesc intro left top w h packed =>
    [intro, lowByte left, highByte left, lowByte top, highByte top, lowByte w, highByte w, lowByte h, highByte h, packed]
  | .idata mcs blocks => mcs :: encodeChain blocks
  | .subchain blocks => encodeChain blocks
  | .trlByte marker => [marker]
  | .lzwStart _ _ => []
  | .lzwFirst _ _ => []
  | .lzwClear _ _ => []
  | .lzwEoi _ _ => []
  | .lzwKnown _ _ => []
  | .lzwKwkwk _ _ => []
  | .lzwIllegal _ _ => []

/-- The `w` bits of a code, least significant first (30_encoding.md R105). -/
def codeBits (w c : Nat) : List Bool := (List.range w).map c.testBit

/-- The bits of a code-stream token; a container token has none of its own. -/
def encodeBits : Instr → List Bool
  | .lzwStart w c => codeBits w c
  | .lzwFirst w c => codeBits w c
  | .lzwClear w c => codeBits w c
  | .lzwEoi w c => codeBits w c
  | .lzwKnown w c => codeBits w c
  | .lzwKwkwk w c => codeBits w c
  | .lzwIllegal w c => codeBits w c
  | .hdr87 => []
  | .hdr89 => []
  | .lsd _ _ _ _ _ => []
  | .gct _ => []
  | .lct _ => []
  | .ext => []
  | .img => []
  | .trl => []
  | .gce _ => []
  | .pte _ => []
  | .app _ => []
  | .cmt _ _ => []
  | .gceBody _ _ _ _ _ => []
  | .imgDesc _ _ _ _ _ _ => []
  | .idata _ _ => []
  | .subchain _ => []
  | .trlByte _ => []

/-- The encoding of a token: bytes of the stream, or bits of the payload. -/
inductive Encoded where
  | bytes (bs : List Byte)
  | bits (bs : List Bool)
deriving DecidableEq, Repr

/-- Whether a token is a code of the payload. -/
def Instr.isCode : Instr → Bool
  | .lzwStart _ _ => true
  | .lzwFirst _ _ => true
  | .lzwClear _ _ => true
  | .lzwEoi _ _ => true
  | .lzwKnown _ _ => true
  | .lzwKwkwk _ _ => true
  | .lzwIllegal _ _ => true
  | .hdr87 => false
  | .hdr89 => false
  | .lsd _ _ _ _ _ => false
  | .gct _ => false
  | .lct _ => false
  | .ext => false
  | .img => false
  | .trl => false
  | .gce _ => false
  | .pte _ => false
  | .app _ => false
  | .cmt _ _ => false
  | .gceBody _ _ _ _ _ => false
  | .imgDesc _ _ _ _ _ _ => false
  | .idata _ _ => false
  | .subchain _ => false
  | .trlByte _ => false

/-- The words of a token. -/
def encode (i : Instr) : Encoded :=
  if i.isCode then .bits (encodeBits i) else .bytes (encodeBlock i)

/-- The length in bytes of sub-blocks with their length bytes, the zero-length one not counted. -/
def blocksLength : List (List Byte) → Nat
  | [] => 0
  | b :: bs => 1 + b.length + blocksLength bs

/-- The length of a chain in bytes, its zero-length sub-block included. -/
def chainLength (blocks : List (List Byte)) : Nat := blocksLength blocks + 1

/-- How many bytes of the stream a token's step consumes: the column `length` of opcode_table.json. A code takes bits
of the payload and no byte of the stream. -/
def Instr.length : Instr → Nat
  | .hdr87 => 6
  | .hdr89 => 6
  | .lsd _ _ _ _ _ => 7
  | .gct entries => 3 * entries.length
  | .lct entries => 3 * entries.length
  | .ext => 0
  | .img => 0
  | .trl => 0
  | .gce _ => 2
  | .pte _ => 2
  | .app _ => 2
  | .cmt _ _ => 2
  | .gceBody _ _ _ _ _ => 6
  | .imgDesc _ _ _ _ _ _ => 10
  | .idata _ blocks => 1 + chainLength blocks
  | .subchain blocks => chainLength blocks
  | .trlByte _ => 1
  | .lzwStart _ _ => 0
  | .lzwFirst _ _ => 0
  | .lzwClear _ _ => 0
  | .lzwEoi _ _ => 0
  | .lzwKnown _ _ => 0
  | .lzwKwkwk _ _ => 0
  | .lzwIllegal _ _ => 0

/-- Whether a container token can stand in a slot (the rows of 30_encoding.md R112 by parser state). -/
def Slot.takes (sl : Slot) (i : Instr) : Bool :=
  match sl with
  | .sig => match i with | .hdr87 => true | .hdr89 => true | _ => false
  | .lsd => match i with | .lsd _ _ _ _ _ => true | _ => false
  | .gct res => match i with | .gct entries => entries.length == tableEntries res | _ => false
  | .lct res => match i with | .lct entries => entries.length == tableEntries res | _ => false
  | .intro => match i with | .ext => true | .img => true | .trl => true | _ => false
  | .extHdr =>
    match i with
    | .gce _ => true
    | .pte _ => true
    | .app _ => true
    | .cmt _ label => label != labelGce && label != labelPte && label != labelApp
    | _ => false
  | .gceBody => match i with | .gceBody _ _ _ _ _ => true | _ => false
  | .imgDesc => match i with | .imgDesc _ _ _ _ _ _ => true | _ => false
  | .idata => match i with | .idata _ blocks => blocks.all blockOk | _ => false
  | .subchain => match i with | .subchain blocks => blocks.all blockOk | _ => false
  | .trl => match i with | .trlByte _ => true | _ => false

/-- Eight bits, the first of weight 1, as a byte. -/
def byteOfBits (b0 b1 b2 b3 b4 b5 b6 b7 : Bool) : Byte :=
  BitVec.ofNat 8 (b0.toNat + 2 * b1.toNat + 4 * b2.toNat + 8 * b3.toNat + 16 * b4.toNat + 32 * b5.toNat
    + 64 * b6.toNat + 128 * b7.toNat)

/-- A string of bits as payload bytes, padded with 0 bits to a whole byte: "byte `j` is bits `8j` to `8j+7` with bit
`8j` as its least significant bit" (95_test_vectors.md). -/
def packBits : List Bool → List Byte
  | [] => []
  | [b0] => [byteOfBits b0 false false false false false false false]
  | [b0, b1] => [byteOfBits b0 b1 false false false false false false]
  | [b0, b1, b2] => [byteOfBits b0 b1 b2 false false false false false]
  | [b0, b1, b2, b3] => [byteOfBits b0 b1 b2 b3 false false false false]
  | [b0, b1, b2, b3, b4] => [byteOfBits b0 b1 b2 b3 b4 false false false]
  | [b0, b1, b2, b3, b4, b5] => [byteOfBits b0 b1 b2 b3 b4 b5 false false]
  | [b0, b1, b2, b3, b4, b5, b6] => [byteOfBits b0 b1 b2 b3 b4 b5 b6 false]
  | b0 :: b1 :: b2 :: b3 :: b4 :: b5 :: b6 :: b7 :: rest => byteOfBits b0 b1 b2 b3 b4 b5 b6 b7 :: packBits rest

/-! ### The table's words -/

/-- The `n` bytes of a number, the first the least significant: opcode_table.json's numbering as the host reads it. -/
def wordBytes (n w : Nat) : List Byte := (List.range n).map fun k => BitVec.ofNat 8 (w >>> (8 * k))

/-- Which slot a table word of this many bytes belongs to. A word alone does not name its parser state, so the first
row of the table that its bytes match is taken, and for a word of no bits the first row without a match, `LSD` (log 15). -/
def tableSlot : List Byte → Option Slot
  | [] => some .lsd
  | [b] => if b = introExt ∨ b = introImg ∨ b = introTrl then some .intro else none
  | [b, _] => if b = introExt then some .extHdr else none
  | [b0, b1, b2, b3, b4, b5] =>
    if [b0, b1, b2, b3, b4] = [0x47, 0x49, 0x46, 0x38, 0x37] ∧ b5 = 0x61 then some .sig
    else if [b0, b1, b2, b3, b4] = [0x47, 0x49, 0x46, 0x38, 0x39] ∧ b5 = 0x61 then some .sig
    else if b5 = 0 then some .gceBody
    else none
  | [_, _, _, _, _, _, _] => some .lsd
  | [b, _, _, _, _, _, _, _, _, _] => if b = introImg then some .imgDesc else none
  | _ => none

/-- How many zero bytes follow a table word: more than any structure that starts with at most 10 given bytes takes. -/
abbrev zerosAfter : Nat := 1024

/-- The instruction the decoder reads from a table word followed by zeros. -/
def decodeTableWord (nbits w : Nat) : Option Instr :=
  match tableSlot (wordBytes (nbits / 8) w) with
  | none => none
  | some sl =>
    match decodeBlock sl (wordBytes (nbits / 8) w ++ List.replicate zerosAfter 0) with
    | .ok i => some i
    | .error _ => none

end Sys2Proof
end

