-- ==== Sys2Proof/Machine/State.lean ====
section
/-! DEFINITION. The architectural state (10_state.md), the reasons the machine can stop, and the state after reset. -/

namespace Sys2Proof.Machine

/-- `STATE` (10_state.md R21). -/
inductive ParserState where
  | header
  | lsd
  | gct
  | content
  | imgDesc
  | lct
  | imgData
  | ext
  | gce
  | ptae
  | comment
  | trailer
  | done
  | fault
deriving DecidableEq, Repr

/-- `CAUSE` (60_exceptions.md R240). `unsupportedFeature` has a number and is never written. -/
inductive Cause where
  | none
  | invalidHeader
  | malformedStream
  | invalidLzwStream
  | codeOutOfRange
  | unsupportedFeature
  | readFailure
  | paletteIndexOutOfRange
  | capacityExceeded
deriving DecidableEq, Repr

/-- A Frame record (10_state.md R43). -/
structure Frame where
  /-- `w` -/
  w         : BitVec 16
  /-- `h` -/
  h         : BitVec 16
  /-- `has_lct` -/
  hasLct    : Bool
  /-- `res` -/
  res       : BitVec 3
  /-- `interlace` -/
  interlace : Bool
  /-- `delay_ms` -/
  delayMs   : BitVec 20
  /-- `pal`: a value of the record, never a reference (10_state.md R44) -/
  pal       : List Color
  /-- `pal_valid` -/
  palValid  : Bool
  /-- `pix` -/
  pix       : List Byte
  /-- `npix` -/
  npix      : Nat
  /-- `pix_valid` -/
  pixValid  : Bool
deriving DecidableEq, Repr

/-- The bound input stream: (offset, byte) cells, offsets strictly rising, no cell holding 0, which is what an
unlisted offset below `IN_LEN` reads as (log 2). The form is `Memory.wf` of Machine/Ops.lean. -/
abbrev Memory := List Host.Cell

/-- The whole state (10_state.md R20), and beside it what the spec passes to the step as parameters: the bound stream
(log 1) and the parameters of 00_scope.md R7 (log 3). Naturals where the spec lets a model use them (R7, R111; log 4). -/
@[ext]
structure State where
  /-- `STATE` (R21) -/
  state      : ParserState
  /-- `POS` (R22) -/
  pos        : Nat
  /-- `SCR_W` (R24) -/
  scrW       : BitVec 16
  /-- `SCR_H` (R24) -/
  scrH       : BitVec 16
  /-- `GCT_PRESENT` (R25) -/
  gctPresent : Bool
  /-- `GCT_RES` (R26) -/
  gctRes     : BitVec 3
  /-- `GCT[0..GCT_LEN-1]` (R42) -/
  gct        : List Color
  /-- `PEND_DELAY` (R27) -/
  pendDelay  : BitVec 20
  /-- `PEND_LCT` (R28) -/
  pendLct    : Bool
  /-- `FRAME[0..NFRAMES-1]` (R29, R43) -/
  frames     : List Frame
  /-- `STATUS` (R30) -/
  status     : BitVec 6
  /-- `CAUSE` (R31) -/
  cause      : Cause
  /-- `FSTATE` (R31) -/
  fstate     : ParserState
  /-- `FPOS` (R31) -/
  fpos       : Nat
  /-- `FINFO` (R31) -/
  finfo      : BitVec 4
  /-- `FVAL` (R31) -/
  fval       : BitVec 16
  /-- `MCS` (R32) -/
  mcs        : Byte
  /-- `PAY` (R32) -/
  pay        : List Byte
  /-- `W` (R33) -/
  w          : Nat
  /-- `CC` (R34) -/
  cc         : Nat
  /-- `EOI` (R34) -/
  eoi        : Nat
  /-- `PREV` (R35) -/
  prev       : Nat
  /-- `DICT[0..TSIZE-1]` (R41); an element of an entry is an index, a natural (log 10) -/
  dict       : List (List Nat)
  /-- `BITOFF` (R23) -/
  bitOff     : Nat
  /-- `OUT` (R37) -/
  out        : List Nat
  /-- `EOI_SEEN` (R37) -/
  eoiSeen    : Bool
  /-- the model's own: the place of the next code where a decode is taken code by code (log 7) -/
  lzwPos     : Option CodePos
  /-- `IN` (R20) -/
  mem        : Memory
  /-- `IN_LEN` (R20) -/
  inLen      : Nat
  /-- the parameters of 00_scope.md R7 -/
  cfg        : Config
deriving DecidableEq, Repr

/-- `NFRAMES` (R29). -/
def State.nframes (s : State) : Nat := s.frames.length
/-- `GCT_LEN` (R42). -/
def State.gctLen (s : State) : Nat := s.gct.length
/-- `PAY_LEN` (R32). -/
def State.payLen (s : State) : Nat := s.pay.length
/-- `TSIZE` (R36): the entries of `DICT` that exist are those below it, so it is the table's length. -/
def State.tsize (s : State) : Nat := s.dict.length

/-- Why a step does not exist. Both are safe: the machine stops where the spec gives no step. A fault of the block
itself (60_exceptions.md R250) is a next state, not one of these. -/
inductive Fault where
  /-- Raised by the step in `DONE` and `FAULT`: "no handler and no step" (43_container.md R204). Safe. -/
  | runEnded
  /-- Raised by `LCT` and by the end of `IMGDATA` when there is no frame record, which no run reaches
  (43_container.md R192, R194; log 9). Safe. -/
  | noActiveFrame
deriving DecidableEq, Repr

/-- Requests that have no meaning. -/
inductive Refusal where
  /-- Raised by an arm of `exec` whose instruction has no meaning yet. Safe. No arm raises it. -/
  | notModelled (mnemonic : String)
  /-- Raised by `launch`: a stream of 2^32 bytes or more (70_reset_and_hazards.md R284). Safe. -/
  | streamTooLong
  /-- Raised by the host-side Animator with no frame (44_framestore.md R225). Safe. -/
  | noFrameToShow
  /-- Raised by the host-side flip of a buffer whose length is not 3 × w × h (45_pixelpost.md R235). Safe. -/
  | flipLength
  /-- Raised by the host's reading of registers before the end of a run (60_exceptions.md R266). Safe. -/
  | runNotEnded
deriving DecidableEq, Repr

/-- Reset of hardware built with the parameters `cfg` (10_state.md R46, 70_reset_and_hazards.md R280). The working
registers are unspecified there and hold zero or nothing here (log 5); no stream is bound (log 1). -/
def State.resetWith (cfg : Config) : State :=
  { state := .header, pos := 0
    scrW := 0, scrH := 0, gctPresent := false, gctRes := 0, gct := []
    pendDelay := defaultDelayMs, pendLct := false, frames := []
    status := 0, cause := .none, fstate := .header, fpos := 0, finfo := 0, fval := 0
    mcs := 0, pay := []
    w := 0, cc := 0, eoi := 0, prev := 0, dict := [], bitOff := 0, out := [], eoiSeen := false, lzwPos := none
    mem := [], inLen := 0, cfg := cfg }

/-- The machine right after reset, with the default parameters of 00_scope.md R7. -/
def State.reset : State := State.resetWith Config.standard

end Sys2Proof.Machine
end

