-- ==== Sys2Proof/Machine/Ops.lean ====
section
/-! DEFINITION. The named operations over the stream and the registers: memory, the stream primitives of 20_memory.md,
fault entry (60_exceptions.md R250), and how a handler's parts are put together. -/

namespace Sys2Proof.Machine

/-! ### The bound stream as memory -/

/-- The byte at an offset; an unlisted one reads as 0 (log 2). -/
def Memory.read : Memory → Nat → Byte
  | [], _ => 0
  | (k, v) :: m, a => if k = a then v else Memory.read m a

/-- The canonical form: offsets strictly rising, no cell holding what an unlisted offset reads as. -/
def Memory.wf : Memory → Bool
  | [] => true
  | [(_, v)] => v != 0
  | (a, v) :: (b, u) :: m => v != 0 && decide (a < b) && Memory.wf ((b, u) :: m)

/-- Store a byte and keep the canonical form. The core never does this (20_memory.md R66); the host does, before launch. -/
def Memory.write : Memory → Nat → Byte → Memory
  | [], a, v => if v = 0 then [] else [(a, v)]
  | (k, u) :: m, a, v =>
    if a < k then (if v = 0 then (k, u) :: m else (a, v) :: (k, u) :: m)
    else if a = k then (if v = 0 then m else (a, v) :: m)
    else (k, u) :: Memory.write m a v

/-- Store a run of bytes from an offset on. -/
def Memory.writeAll (m : Memory) (a : Nat) : List Byte → Memory
  | [] => m
  | b :: bs => Memory.writeAll (m.write a b) (a + 1) bs

/-- The cells of a byte sequence placed from an offset on. -/
def Memory.ofBytes (a : Nat) : List Byte → Memory
  | [] => []
  | b :: bs => if b = 0 then Memory.ofBytes (a + 1) bs else (a, b) :: Memory.ofBytes (a + 1) bs

/-- `n` bytes from an offset on. -/
def Memory.bytes (m : Memory) (a : Nat) : Nat → List Byte
  | 0 => []
  | n + 1 => m.read a :: m.bytes (a + 1) n

/-! ### Fault entry -/

/-- `raise X(sub, val)` (60_exceptions.md R250): the five fault registers and `STATE`, nothing else. No handler
writes `STATE` before it raises, so the value it has here is the one it had when the step began. -/
def State.raise (s : State) (c : Cause) (sub : BitVec 4) (val : Nat) : State :=
  { s with
    cause := c, finfo := sub, fval := BitVec.ofNat 16 val
    fstate := s.state, fpos := s.pos, state := .fault }

/-- How a part of a handler ends: it goes on from a state, it raised (fault entry is done), or it stands where no run
leads (log 9). -/
inductive Flow where
  | ok (s : State)
  | raised (s : State)
  | stuck (r : Fault)
deriving DecidableEq, Repr

/-- One part after another: "Nothing after a `raise` in the same rule is performed" (00_scope.md R11). -/
def Flow.bind (x : Flow) (f : State → Flow) : Flow :=
  match x with
  | .ok s => f s
  | .raised s => .raised s
  | .stuck r => .stuck r

/-- What a handler's end is for the machine: a raise ends the run in the state `FAULT`, which is a next state. -/
def Flow.outcome : Flow → Host.Outcome State Fault Refusal
  | .ok s => .next s
  | .raised s => .next s
  | .stuck r => .fault r

/-! ### The stream primitives (20_memory.md) -/

/-- `POS <- POS + n`, by a read that completed. -/
def State.advance (s : State) (n : Nat) : State := { s with pos := s.pos + n }

/-- `Avail()` (R61). -/
def State.avail (s : State) : Nat := s.inLen - s.pos

/-- The unread bytes of the stream, from `POS` on. -/
def State.unread (s : State) : List Byte := s.mem.bytes s.pos s.avail

/-- `MemRead(addr, n)` (R61), defined only inside the stream. -/
def State.memRead (s : State) (addr n : Nat) : Option (List Byte) :=
  if addr + n ≤ s.inLen then some (s.mem.bytes addr n) else none

/-- `Peek()` (R62). -/
def State.peek (s : State) : Option Byte := if s.pos < s.inLen then some (s.mem.read s.pos) else none

/-- How a read ends: a value and the state after it, or fault entry. -/
inductive Read (α : Type) where
  | got (a : α) (s : State)
  | raised (s : State)

/-- `ReadByte()` (R63). -/
def State.readByte (s : State) : Read Byte :=
  if s.avail = 0 then .raised (s.raise .readFailure 1 0)
  else .got (s.mem.read s.pos) (s.advance 1)

/-- `ReadBytes(n)` (R64): all or nothing. -/
def State.readBytes (s : State) (n : Nat) : Read (List Byte) :=
  if s.avail < n then .raised (s.raise .readFailure 1 0)
  else .got (s.mem.bytes s.pos n) (s.advance n)

/-- Go on with what a read got. -/
def Read.andThen {α : Type} (r : Read α) (f : α → State → Flow) : Flow :=
  match r with
  | .got a s => f a s
  | .raised s => .raised s

/-- `SkipBytes(n)` (R64). -/
def State.skipBytes (s : State) (n : Nat) : Flow := (s.readBytes n).andThen fun _ t => .ok t

/-! ### The frame store -/

/-- The active frame, `FRAME[NFRAMES-1]` (10_state.md R43). -/
def State.active (s : State) : Option Frame := s.frames.getLast?

/-- Change the last record of a list of frames. -/
def updateLast (g : Frame → Frame) : List Frame → List Frame
  | [] => []
  | [f] => [g f]
  | f :: f' :: fs => f :: updateLast g (f' :: fs)

/-- Write fields of the active frame; "Only the last record ... is ever written after creation" (10_state.md R43). -/
def State.updateActive (s : State) (g : Frame → Frame) : State := { s with frames := updateLast g s.frames }

/-- `STATE <- S`, the last write of every handler (43_container.md R180). -/
def State.goto (s : State) (p : ParserState) : State := { s with state := p }

end Sys2Proof.Machine
end

