-- ==== Sys2Proof/Machine/Operands.lean ====
section
/-! DEFINITION. The operand forms: the fields of the packed bytes (30_encoding.md R95, R100), the scaled delay (R107),
the palette a frame captures (10_state.md R44), and the entries a code names (10_state.md R41). -/

namespace Sys2Proof.Machine

/-- `LSD.packed[7]`, the global-color-table flag (30_encoding.md R95). -/
def lsdGctFlag (packed : Byte) : Bool := flagBit packed 7

/-- `LSD.packed[LSD_RES_LSB+2 : LSD_RES_LSB]` (30_encoding.md R95). -/
def lsdResolution (cfg : Config) (packed : Byte) : BitVec 3 := field3 packed cfg.lsdRes.lsb

/-- `ID.packed[7]`, the local-color-table flag (30_encoding.md R100). -/
def idLctFlag (packed : Byte) : Bool := flagBit packed 7

/-- `ID.packed[6]`, the interlace flag (30_encoding.md R100). -/
def idInterlace (packed : Byte) : Bool := flagBit packed 6

/-- `ID.packed[2:0]`, the resolution (30_encoding.md R100). -/
def idResolution (packed : Byte) : BitVec 3 := field3 packed 0

/-- `delay_field × 10` (30_encoding.md R107): at most 655350, which 20 bits hold. -/
def scaledDelay (delay : BitVec 16) : BitVec 20 := BitVec.ofNat 20 (delay.toNat * delayScale)

/-- The record `IMGDESC` creates (43_container.md R190): with no local table the palette is a copy of the global one. -/
def newFrame (width height : BitVec 16) (packed : Byte) (delay : BitVec 20) (gct : List Color) : Frame :=
  { w := width, h := height, hasLct := idLctFlag packed, res := idResolution packed
    interlace := idInterlace packed, delayMs := delay
    pal := if idLctFlag packed then [] else gct
    palValid := !idLctFlag packed
    pix := [], npix := 0, pixValid := false }

/-- `DICT[c]`; an entry at `TSIZE` or above does not exist and is read as the empty sequence, which the range
checks of R143 and R144 keep from happening (log 11). -/
def State.entry (s : State) (c : Nat) : List Nat := s.dict.getD c []

/-- `[first(e)]` as a sequence of one element. `first` is defined only for a non-empty sequence (00_scope.md R10); of the empty
one nothing is taken (log 11). -/
def firstOf (e : List Nat) : List Nat := e.take 1

end Sys2Proof.Machine
end

