-- ==== Sys2Proof/Machine/Blocks.lean ====
section
/-! DEFINITION. Block dispatch and extensions (43_container.md sections 3 and 5): the meanings of EXT, IMG, TRL, GCE, PTE,
APP, CMT, GCEBODY and SUBCHAIN. -/

namespace Sys2Proof.Machine

/-- `EXT` (R185): "The step consumes nothing". -/
def execExt (s : State) : Host.Outcome State Fault Refusal := .next (s.goto .ext)

/-- `IMG` (R185). -/
def execImg (s : State) : Host.Outcome State Fault Refusal := .next (s.goto .imgDesc)

/-- `TRL` (R185). -/
def execTrl (s : State) : Host.Outcome State Fault Refusal := .next (s.goto .trailer)

/-- `GCE` (R198). -/
def execGce (s : State) : Host.Outcome State Fault Refusal := .next ((s.advance 2).goto .gce)

/-- `PTE` (R198). -/
def execPte (s : State) : Host.Outcome State Fault Refusal := .next ((s.advance 2).goto .ptae)

/-- `APP` (R198). -/
def execApp (s : State) : Host.Outcome State Fault Refusal := .next ((s.advance 2).goto .ptae)

/-- `CMT` (R198): every other label. -/
def execCmt (s : State) : Host.Outcome State Fault Refusal := .next ((s.advance 2).goto .comment)

/-- `GCEBODY` (R199): "`PEND_DELAY` is written before the terminator is read, so it holds the new value even when the
terminator test faults". -/
def execGceBody (delay : BitVec 16) (terminator : Byte) (s : State) : Host.Outcome State Fault Refusal :=
  let t := { s.advance 6 with pendDelay := scaledDelay delay }
  if terminator ≠ 0 then .next (t.raise .malformedStream 3 terminator.toNat)
  else .next (t.goto .content)

/-- `SUBCHAIN` (R202), the whole handler of `PTAE` (R200) and of `COMMENT` (R201). -/
def execSubchain (blocks : List (List Byte)) (s : State) : Host.Outcome State Fault Refusal :=
  .next ((s.advance (chainLength blocks)).goto .content)

end Sys2Proof.Machine
end

