-- ==== Sys2Proof/Machine/Flags.lean ====
section
/-! DEFINITION. The STATUS register: its bits (10_state.md R30) and how a rule sets them (60_exceptions.md R260); the
numbers of STATE and CAUSE. -/

namespace Sys2Proof.Machine

/-- The named bits of `STATUS`. -/
inductive StatusFlag where
  | wEos
  | wStray
  | wUnsup
  | wPixcount
  | wNoeoi
  | trailerSeen
deriving DecidableEq, Repr

/-- The bit a flag stands at (10_state.md R30). -/
def StatusFlag.bit : StatusFlag → Nat
  | .wEos => 0
  | .wStray => 1
  | .wUnsup => 2
  | .wPixcount => 3
  | .wNoeoi => 4
  | .trailerSeen => 5

/-- The value of a flag in a state. -/
def State.flag (s : State) (f : StatusFlag) : Bool := s.status.getLsbD f.bit

/-- `warn F` (60_exceptions.md R260): set the bit, keep the others. -/
def State.warn (s : State) (f : StatusFlag) : State := { s with status := s.status ||| (1 <<< f.bit) }

/-- `if c then warn F`. -/
def State.warnIf (s : State) (c : Bool) (f : StatusFlag) : State := if c then s.warn f else s

/-- The numeric value of `STATE` (10_state.md R21). -/
def ParserState.code : ParserState → BitVec 4
  | .header => 0
  | .lsd => 1
  | .gct => 2
  | .content => 3
  | .imgDesc => 4
  | .lct => 5
  | .imgData => 6
  | .ext => 7
  | .gce => 8
  | .ptae => 9
  | .comment => 10
  | .trailer => 11
  | .done => 12
  | .fault => 13

/-- The numeric value of `CAUSE` (60_exceptions.md R240). -/
def Cause.code : Cause → BitVec 4
  | .none => 0
  | .invalidHeader => 1
  | .malformedStream => 2
  | .invalidLzwStream => 3
  | .codeOutOfRange => 4
  | .unsupportedFeature => 5
  | .readFailure => 6
  | .paletteIndexOutOfRange => 7
  | .capacityExceeded => 8

end Sys2Proof.Machine
end

