-- ==== Sys2Proof/Machine/Lzw.lean ====
section
/-! DEFINITION. The LZW Decompressor (41_lzw.md): its operations, the meaning of each of the seven code classes, and the
decode of a whole payload, which is those meanings one after another. -/

namespace Sys2Proof.Machine

/-! ### Operations -/

/-- `(c, BITOFF) <- ReadCode(PAY, BITOFF, W)`: `BITOFF` is written only when the cursor returns a code
(40_bitcursor.md R130); the faults are those of R131 and R132. -/
def State.readCode (s : State) : Read Nat :=
  match Sys2Proof.readCode s.pay s.bitOff s.w with
  | .ok (c, off) => .got c { s with bitOff := off }
  | .error (.codeTooLarge v) => .raised (s.raise .codeOutOfRange 2 v)
  | .error _ => .raised (s.raise .readFailure 2 0)

/-- `BITOFF <- BITOFF + W`, by a code that was read. -/
def State.advanceBits (s : State) (n : Nat) : State := { s with bitOff := s.bitOff + n }

/-- `DictInit` (R141): the literals, and the two reserved entries, which "carry no byte payload". -/
def State.dictInit (s : State) : State :=
  { s with dict := (List.range s.cc).map (fun i => [i]) ++ [[], []] }

/-- `Grow` (R154): a test for equality, at most one increment, never above 12. -/
def State.grow (s : State) : State :=
  if s.tsize = 2 ^ s.w ∧ s.w < maxWidth then { s with w := s.w + 1 } else s

/-- `Append(e)` (R146): nothing when the table is full. -/
def State.append (s : State) (e : List Nat) : State :=
  if s.tsize < tableMax then State.grow { s with dict := s.dict ++ [e] } else s

/-- `Emit(e)` (R145). -/
def State.emit (s : State) (e : List Nat) : Flow :=
  if exceedsCap s.cfg.pixelCap (s.out.length + e.length) then .raised (s.raise .capacityExceeded 3 0)
  else .ok { s with out := s.out ++ e }

/-- `LzwInit` (R140), with the operand `MCS`. -/
def State.lzwInit (s : State) : Flow :=
  if maxMcs < s.mcs.toNat then .raised (s.raise .codeOutOfRange 1 s.mcs.toNat)
  else .ok (State.dictInit
    { s with
      w := s.mcs.toNat + 1, cc := 1 <<< s.mcs.toNat, eoi := (1 <<< s.mcs.toNat) + 1
      bitOff := 0, out := [], eoiSeen := false, lzwPos := some .start })

/-- The loop condition of R144: unread bits remain, and no End-of-Information Code was met. -/
def State.moreCodes (s : State) : Bool := decide (s.bitOff < 8 * s.payLen) && !s.eoiSeen

/-! ### What each class does with a code that was read -/

/-- `LzwStart` (R142). -/
def startEffect (c : Nat) (s : State) : Flow :=
  if c ≠ s.cc then .raised (s.raise .invalidLzwStream 1 c)
  else .ok { s with lzwPos := some .first }

/-- `LzwFirst` (R143): not compared with the reserved codes. -/
def firstEffect (c : Nat) (s : State) : Flow :=
  if s.tsize ≤ c then .raised (s.raise .codeOutOfRange 3 c)
  else (s.emit (s.entry c)).bind fun t => .ok { t with prev := c, lzwPos := some .loop }

/-- `LzwClear` (R150): the table and the width reset, then one more code, taken as `LzwFirst`. -/
def clearEffect (s : State) : Flow :=
  (State.readCode { s.dictInit with w := s.mcs.toNat + 1 }).andThen firstEffect

/-- `LzwEoi` (R149). -/
def eoiEffect (s : State) : Flow := .ok { s with eoiSeen := true }

/-- `LzwKnown(c)` (R151): emit, then append the previous entry and the first element of the current one. -/
def knownEffect (c : Nat) (s : State) : Flow :=
  (s.emit (s.entry c)).bind fun t =>
    .ok { t.append (t.entry t.prev ++ firstOf (t.entry c)) with prev := c }

/-- `LzwKwkwk(c)` (R152): the previous entry and its own first element, appended and then emitted. -/
def kwkwkEffect (c : Nat) (s : State) : Flow :=
  if (s.entry s.prev).length = 0 then .raised (s.raise .invalidLzwStream 2 c)
  else ((s.append (s.entry s.prev ++ firstOf (s.entry s.prev))).emit (s.entry s.prev ++ firstOf (s.entry s.prev))).bind
    fun t => .ok { t with prev := c }

/-- Class `LZW.ILLEGAL` (R153). -/
def illegalEffect (c : Nat) (s : State) : Flow := .raised (s.raise .codeOutOfRange 4 c)

/-- The branch that a class takes (R144). -/
def classEffect (k : CodeClass) (c : Nat) (s : State) : Flow :=
  match k with
  | .start => startEffect c s
  | .first => firstEffect c s
  | .clear => clearEffect s
  | .eoi => eoiEffect s
  | .known => knownEffect c s
  | .kwkwk => kwkwkEffect c s
  | .illegal => illegalEffect c s

/-! ### The meanings of the seven rows -/

/-- `LZW.START` (R142). -/
def execLzwStart (w c : Nat) (s : State) : Host.Outcome State Fault Refusal :=
  (startEffect c (s.advanceBits w)).outcome

/-- `LZW.FIRST` (R143). -/
def execLzwFirst (w c : Nat) (s : State) : Host.Outcome State Fault Refusal :=
  (firstEffect c (s.advanceBits w)).outcome

/-- `LZW.CLEAR` (R150). The code's value is the Clear Code's and is not looked at again. -/
def execLzwClear (w : Nat) (s : State) : Host.Outcome State Fault Refusal :=
  (clearEffect (s.advanceBits w)).outcome

/-- `LZW.EOI` (R149). -/
def execLzwEoi (w : Nat) (s : State) : Host.Outcome State Fault Refusal :=
  (eoiEffect (s.advanceBits w)).outcome

/-- `LZW.KNOWN` (R151). -/
def execLzwKnown (w c : Nat) (s : State) : Host.Outcome State Fault Refusal :=
  (knownEffect c (s.advanceBits w)).outcome

/-- `LZW.KWKWK` (R152). -/
def execLzwKwkwk (w c : Nat) (s : State) : Host.Outcome State Fault Refusal :=
  (kwkwkEffect c (s.advanceBits w)).outcome

/-- `LZW.ILLEGAL` (R153). -/
def execLzwIllegal (w c : Nat) (s : State) : Host.Outcome State Fault Refusal :=
  (illegalEffect c (s.advanceBits w)).outcome

/-! ### The decode of a payload -/

/-- Where the next code stands and what its class is compared with (30_encoding.md R106). -/
def State.codeSlot (s : State) (p : CodePos) : CodeSlot :=
  { pos := p, off := s.bitOff, w := s.w, cc := s.cc, eoi := s.eoi, tsize := s.tsize }

/-- `LzwStep` (R144), and `LzwStart` and `LzwFirst` before the loop: read one code and take its branch. -/
def lzwTick (p : CodePos) (s : State) : Flow :=
  s.readCode.andThen fun c t => classEffect ((s.codeSlot p).classOf c) c t

/-- Start, first code and main loop of R155 as one run of ticks. The first argument bounds their number: a tick
that goes on consumes at least one bit, so `8 × PAY_LEN + 1` is enough (R144). -/
def lzwRun : Nat → State → Flow
  | 0, s => .ok s
  | n + 1, s =>
    match s.lzwPos with
    | none => .ok s
    | some .loop => if s.moreCodes then (lzwTick .loop s).bind (lzwRun n) else .ok s
    | some p => (lzwTick p s).bind (lzwRun n)

/-- `LzwDecode(MCS, PAY)` (R155); the result is left in `OUT` and `EOI_SEEN`. -/
def State.lzwDecode (s : State) : Flow := s.lzwInit.bind fun t => lzwRun (8 * t.payLen + 1) t

end Sys2Proof.Machine
end

