-- ==== Sys2Proof/Machine/Image.lean ====
section
/-! DEFINITION. Image blocks (43_container.md section 4) and materialisation (45_pixelpost.md section 1): the meanings of
ID, LCT and IDATA. -/

namespace Sys2Proof.Machine

/-- `ID` (R190): the frame-store test stands after the read and before any write of the record. -/
def execImgDesc (width height : BitVec 16) (packed : Byte) (s : State) : Host.Outcome State Fault Refusal :=
  let t := s.advance 10
  if t.cfg.frameCap = some t.nframes then .next (t.raise .capacityExceeded 1 0)
  else .next (State.goto
    { t with
      frames := t.frames ++ [newFrame width height packed t.pendDelay t.gct]
      pendLct := idLctFlag packed }
    (if idLctFlag packed then .lct else .imgData))

/-- `LCT` (R192): the palette of the active frame; `GCT` and `PEND_LCT` are not touched. -/
def execLct (entries : List Color) (s : State) : Host.Outcome State Fault Refusal :=
  match s.active with
  | none => .fault .noActiveFrame
  | some _ =>
    .next (((s.advance (3 * entries.length)).updateActive
      fun f => { f with pal := entries, palValid := true }).goto .imgData)

/-! ### Gathering the payload (R193) -/

/-- A length byte `L` other than 0 was read: the capacity test before the sub-block's bytes are read. -/
def State.openBlock (s : State) (len : Nat) : Flow :=
  let t := s.advance 1
  if exceedsCap t.cfg.payloadCap (t.payLen + len) then .raised (t.raise .capacityExceeded 2 len) else .ok t

/-- The sub-blocks of the loop of R193, before the zero-length one. -/
def gatherBlocks : List (List Byte) → State → Flow
  | [], s => .ok s
  | b :: bs, s => (s.openBlock b.length).bind fun t => gatherBlocks bs { t.advance b.length with pay := t.pay ++ b }

/-- `MCS <- ReadByte(); PAY <- []`. -/
def State.beginPayload (s : State) (mcs : Byte) : State := { s.advance 1 with mcs := mcs, pay := [] }

/-- R193 for a whole chain. -/
def gather (mcs : Byte) (blocks : List (List Byte)) (s : State) : Flow :=
  (gatherBlocks blocks (s.beginPayload mcs)).bind fun t => .ok (t.advance 1)

/-! ### Materialisation -/

/-- `Materialize(idx, pal)` (45_pixelpost.md R230), or the first index outside the palette (R231). -/
def materialize (pal : List Color) : List Nat → Except Nat (List Byte)
  | [] => .ok []
  | i :: idx =>
    match pal[i]? with
    | none => .error i
    | some c =>
      match materialize pal idx with
      | .error j => .error j
      | .ok rgb => .ok (colorBytes c ++ rgb)

/-- The three warnings of R194, in its order. -/
def State.imageWarnings (s : State) (f : Frame) : State :=
  ((s.warnIf (!s.eoiSeen) .wNoeoi).warnIf (decide (s.out.length ≠ f.w.toNat * f.h.toNat)) .wPixcount).warnIf
    f.interlace .wUnsup

/-- R194 after the decode: materialise, store into the active frame, warn, go on. -/
def State.finishImage (s : State) : Flow :=
  match s.active with
  | none => .stuck .noActiveFrame
  | some f =>
    match materialize f.pal s.out with
    | .error i => .raised (s.raise .paletteIndexOutOfRange 0 i)
    | .ok rgb =>
      .ok (State.goto
        { (s.updateActive fun g => { g with pix := rgb, npix := s.out.length, pixValid := true }).imageWarnings f with
          lzwPos := none }
        .content)

/-- `IDATA` (R193, R194): gather, decode, materialise and store, one step. -/
def execIdata (mcs : Byte) (blocks : List (List Byte)) (s : State) : Host.Outcome State Fault Refusal :=
  (((gather mcs blocks s).bind State.lzwDecode).bind State.finishImage).outcome

end Sys2Proof.Machine
end

