-- ==== Sys2Proof/Machine/Prologue.lean ====
section
/-! DEFINITION. The stream prologue (43_container.md section 2) and the end of the stream (section 6): the meanings of
HDR87, HDR89, LSD, GCT and TRLBYTE. -/

namespace Sys2Proof.Machine

/-- State `HEADER` with a recognised signature (R182): "Which of the two signatures matched is not recorded". -/
def signatureOk (s : State) : State := (s.advance 6).goto .lsd

/-- `HDR87` (R182). -/
def execHdr87 (s : State) : Host.Outcome State Fault Refusal := .next (signatureOk s)

/-- `HDR89` (R182). -/
def execHdr89 (s : State) : Host.Outcome State Fault Refusal := .next (signatureOk s)

/-- `LSD` (R183). The resolution is written whether or not the flag is set. -/
def execLsd (width height : BitVec 16) (packed : Byte) (s : State) : Host.Outcome State Fault Refusal :=
  .next (State.goto
    { s.advance 7 with
      scrW := width, scrH := height
      gctPresent := lsdGctFlag packed, gctRes := lsdResolution s.cfg packed }
    (if lsdGctFlag packed then .gct else .content))

/-- `GCT` (R184): `GCT` and `GCT_LEN` take the table that was read (42_colortable.md R170). -/
def execGct (entries : List Color) (s : State) : Host.Outcome State Fault Refusal :=
  .next (State.goto { s.advance (3 * entries.length) with gct := entries } .content)

/-- `TRLBYTE` (R203): the marker is tested after it was consumed; stray bytes are reported and not read. -/
def execTrlByte (marker : Byte) (s : State) : Host.Outcome State Fault Refusal :=
  let t := s.advance 1
  if marker ≠ introTrl then .next (t.raise .malformedStream 2 marker.toNat)
  else .next (((t.warn .trailerSeen).warnIf (decide (0 < t.avail)) .wStray).goto .done)

end Sys2Proof.Machine
end

