-- ==== Sys2Proof/Machine/Dispatch.lean ====
section
/-! DEFINITION. One arm for each row of opcode_table.json. -/

namespace Sys2Proof.Machine

-- The meaning of one token. It does not look at STATE: a token is fetched only where STATE selects it (log 13).
def exec (i : Instr) (s : State) : Host.Outcome State Fault Refusal :=
  match i with
  | .hdr87 => Sys2Proof.Machine.execHdr87 s
  | .hdr89 => Sys2Proof.Machine.execHdr89 s
  | .lsd width height packed _ _ => Sys2Proof.Machine.execLsd width height packed s
  | .gct entries => Sys2Proof.Machine.execGct entries s
  | .lct entries => Sys2Proof.Machine.execLct entries s
  | .ext => Sys2Proof.Machine.execExt s
  | .img => Sys2Proof.Machine.execImg s
  | .trl => Sys2Proof.Machine.execTrl s
  | .gce _ => Sys2Proof.Machine.execGce s
  | .pte _ => Sys2Proof.Machine.execPte s
  | .app _ => Sys2Proof.Machine.execApp s
  | .cmt _ _ => Sys2Proof.Machine.execCmt s
  | .gceBody _ _ delay _ terminator => Sys2Proof.Machine.execGceBody delay terminator s
  | .imgDesc _ _ _ width height packed => Sys2Proof.Machine.execImgDesc width height packed s
  | .idata mcs blocks => Sys2Proof.Machine.execIdata mcs blocks s
  | .subchain blocks => Sys2Proof.Machine.execSubchain blocks s
  | .trlByte marker => Sys2Proof.Machine.execTrlByte marker s
  | .lzwStart w c => Sys2Proof.Machine.execLzwStart w c s
  | .lzwFirst w c => Sys2Proof.Machine.execLzwFirst w c s
  | .lzwClear w _ => Sys2Proof.Machine.execLzwClear w s
  | .lzwEoi w _ => Sys2Proof.Machine.execLzwEoi w s
  | .lzwKnown w c => Sys2Proof.Machine.execLzwKnown w c s
  | .lzwKwkwk w c => Sys2Proof.Machine.execLzwKwkwk w c s
  | .lzwIllegal w c => Sys2Proof.Machine.execLzwIllegal w c s

end Sys2Proof.Machine
end

