-- ==== Sys2Proof/Machine/Fetch.lean ====
section
/-! DEFINITION. What stands next in the input: the token that STATE selects (30_encoding.md R112), or the reason there is
none, and what the core does in that case. -/

namespace Sys2Proof.Machine

/-- Where the core stands in its input. -/
inductive Place where
  /-- at a structure of the container -/
  | block (sl : Slot)
  /-- at a code of the payload (only where a decode is taken code by code, log 7) -/
  | code (p : CodePos)
  /-- after the loop of R144: the rest of R194 stands next (likewise) -/
  | imageEnd
  /-- no step exists here -/
  | nowhere (r : Fault)
deriving DecidableEq, Repr

/-- The place inside an `IMGDATA` step that is taken code by code; with none under way, the whole `IDATA` stands next. -/
def State.imagePlace (s : State) : Place :=
  match s.lzwPos with
  | none => .block .idata
  | some .start => .code .start
  | some .first => .code .first
  | some .loop => if s.moreCodes then .code .loop else .imageEnd

/-- What stands next (30_encoding.md R112: "the structure is fixed by the state"). -/
def State.place (s : State) : Place :=
  match s.state with
  | .header => .block .sig
  | .lsd => .block .lsd
  | .gct => .block (.gct s.gctRes)
  | .content => .block .intro
  | .imgDesc => .block .imgDesc
  | .lct =>
    match s.active with
    | some f => .block (.lct f.res)
    | none => .nowhere .noActiveFrame
  | .imgData => s.imagePlace
  | .ext => .block .extHdr
  | .gce => .block .gceBody
  | .ptae => .block .subchain
  | .comment => .block .subchain
  | .trailer => .block .trl
  | .done => .nowhere .runEnded
  | .fault => .nowhere .runEnded

/-- What the step finds. -/
inductive Fetched where
  /-- a token -/
  | token (i : Instr)
  /-- no token: the structure or the code is illegal or cut short, or the stream ended between blocks -/
  | reject (r : Reject)
  /-- the end of the loop of R144 -/
  | imageEnd
  /-- no step exists here -/
  | nowhere (r : Fault)
deriving DecidableEq, Repr

/-- The decoder's answer as what the step finds. -/
def Fetched.ofDecode : Except Reject Instr → Fetched
  | .ok i => .token i
  | .error r => .reject r

/-- Fetch and decode. -/
def State.fetch (s : State) : Fetched :=
  match s.place with
  | .block sl => .ofDecode (decodeBlock sl s.unread)
  | .code p => .ofDecode (decodeCode (s.codeSlot p) s.pay)
  | .imageEnd => .imageEnd
  | .nowhere r => .nowhere r

/-- `raise ReadFailure` of the stream primitives, sub-cause 1 (20_memory.md R63, R64). -/
def State.streamFailure (s : State) : Flow := .raised (s.raise .readFailure 1 0)

/-- What the core does where no token can be read: the reads that completed have moved `POS` and had their effects,
and then comes the `raise` or the warning of the rule. -/
def answerReject (r : Reject) (s : State) : Flow :=
  match r with
  | .endOfStream => .ok ((s.warn .wEos).goto .done)
  | .badSignature => .raised ((s.advance 6).raise .invalidHeader 0 0)
  | .badIntroducer b => .raised (s.raise .malformedStream 1 b.toNat)
  | .short k => (s.advance k).streamFailure
  | .shortTerminator delay => State.streamFailure { s.advance 5 with pendDelay := scaledDelay delay }
  | .shortIdata mcs blocks none => (gatherBlocks blocks (s.beginPayload mcs)).bind State.streamFailure
  | .shortIdata mcs blocks (some len) =>
    ((gatherBlocks blocks (s.beginPayload mcs)).bind fun t => t.openBlock len.toNat).bind State.streamFailure
  | .shortChain blocks none => (s.advance (blocksLength blocks)).streamFailure
  | .shortChain blocks (some _) => (s.advance (blocksLength blocks + 1)).streamFailure
  | .shortPayload => .raised (s.raise .readFailure 2 0)
  | .codeTooLarge v => .raised (s.raise .codeOutOfRange 2 v)

/-! ### Placing a token where the step fetches it -/

/-- The parser state in which a slot stands. -/
def slotState : Slot → ParserState
  | .sig => .header
  | .lsd => .lsd
  | .gct _ => .gct
  | .lct _ => .lct
  | .intro => .content
  | .extHdr => .ext
  | .gceBody => .gce
  | .imgDesc => .imgDesc
  | .idata => .imgData
  | .subchain => .comment
  | .trl => .trailer

/-- An empty frame of a resolution: what `LCT` and `IDATA` need where there is none. -/
def blankFrame (res : BitVec 3) : Frame :=
  { w := 0, h := 0, hasLct := false, res := res, interlace := false, delayMs := 0, pal := [], palValid := true
    pix := [], npix := 0, pixValid := false }

/-- The registers that a slot's fetch looks at. -/
def prepareSlot (sl : Slot) (s : State) : State :=
  match sl with
  | .gct res => { s with gctRes := res }
  | .lct res =>
    match s.active with
    | some _ => s.updateActive fun f => { f with res := res }
    | none => { s with frames := [blankFrame res] }
  | .idata =>
    match s.active with
    | some _ => s
    | none => { s with frames := [blankFrame 0] }
  | .sig => s
  | .lsd => s
  | .intro => s
  | .extHdr => s
  | .gceBody => s
  | .imgDesc => s
  | .subchain => s
  | .trl => s

/-- Bytes at `POS`, zeros behind them, and `STATE` at the slot: the next step reads a token of that slot from them. -/
def State.placeBlock (s : State) (sl : Slot) (bs : List Byte) : State :=
  prepareSlot sl
    { s with
      state := slotState sl, lzwPos := none
      mem := Memory.writeAll
        (s.mem.filter fun c => decide (c.1 < s.pos) || decide (s.pos + bs.length + zerosAfter ≤ c.1)) s.pos bs
      inLen := max s.inLen (s.pos + bs.length + zerosAfter) }

/-- A table word placed at `POS` (log 15); a word that no row matches changes nothing. -/
def State.placeTableWord (s : State) (nbits w : Nat) : State :=
  match tableSlot (wordBytes (nbits / 8) w) with
  | none => s
  | some sl => s.placeBlock sl (wordBytes (nbits / 8) w)

end Sys2Proof.Machine
end

