-- ==== Sys2Proof/Machine/Step.lean ====
section
/-! DEFINITION. The step function (43_container.md R180) and the placing of a table word for the next step. -/

namespace Sys2Proof.Machine

/-- One step: the handler of `STATE`, run to its end or to its first `raise` (R180). -/
def step (s : State) : Host.Outcome State Fault Refusal :=
  match s.fetch with
  | .token i => exec i s
  | .reject r => (answerReject r s).outcome
  | .imageEnd => s.finishImage.outcome
  | .nowhere r => .fault r

/-- The state with a table word placed where the next step fetches (log 15). -/
def State.withFetchWord (s : State) (nbits w : Nat) : State := s.placeTableWord nbits w

end Sys2Proof.Machine
end

