-- ==== Sys2Proof/Machine/Handlers.lean ====
section
/-! DEFINITION. The handlers of 43_container.md as its pseudo-code has them, line by line over the stream primitives of
20_memory.md. The step does not call them: it decodes first and runs the token. Statements say that the two agree. -/

namespace Sys2Proof.Machine

/-- State `HEADER` (R182). -/
def handleHeader (s : State) : Flow :=
  (s.readBytes 6).andThen fun b t =>
    if b ≠ [0x47, 0x49, 0x46, 0x38, 0x37, 0x61] ∧ b ≠ [0x47, 0x49, 0x46, 0x38, 0x39, 0x61] then
      .raised (t.raise .invalidHeader 0 0)
    else .ok (t.goto .lsd)

/-- State `LSD` (R183). -/
def handleLsd (s : State) : Flow :=
  (s.readBytes 7).andThen fun b t =>
    .ok (State.goto
      { t with
        scrW := u16le (b.getD 0 0) (b.getD 1 0), scrH := u16le (b.getD 2 0) (b.getD 3 0)
        gctPresent := flagBit (b.getD 4 0) 7, gctRes := field3 (b.getD 4 0) t.cfg.lsdRes.lsb }
      (if flagBit (b.getD 4 0) 7 then .gct else .content))

/-- The loop of `ReadColorTable` (42_colortable.md R170): `n` more triples after the palette `p`. -/
def readTriples : Nat → List Color → State → Read (List Color)
  | 0, p, s => .got p s
  | n + 1, p, s =>
    match s.readBytes 3 with
    | .raised t => .raised t
    | .got b t => readTriples n (p ++ [⟨b.getD 0 0, b.getD 1 0, b.getD 2 0⟩]) t

/-- `ReadColorTable(N)` (42_colortable.md R170). -/
def State.readColorTable (s : State) (res : BitVec 3) : Read (List Color) := readTriples (tableEntries res) [] s

/-- State `GCT` (R184). -/
def handleGct (s : State) : Flow :=
  (s.readColorTable s.gctRes).andThen fun p t => .ok (State.goto { t with gct := p } .content)

/-- State `CONTENT` (R185, R186). -/
def handleContent (s : State) : Flow :=
  match s.peek with
  | none => .ok ((s.warn .wEos).goto .done)
  | some p =>
    if p = introExt then .ok (s.goto .ext)
    else if p = introImg then .ok (s.goto .imgDesc)
    else if p = introTrl then .ok (s.goto .trailer)
    else .raised (s.raise .malformedStream 1 p.toNat)

/-- State `IMGDESC` (R190). -/
def handleImgDesc (s : State) : Flow :=
  (s.readBytes 10).andThen fun b t =>
    if t.cfg.frameCap = some t.nframes then .raised (t.raise .capacityExceeded 1 0)
    else
      .ok (State.goto
        { t with
          frames := t.frames ++
            [{ w := u16le (b.getD 5 0) (b.getD 6 0), h := u16le (b.getD 7 0) (b.getD 8 0)
               hasLct := flagBit (b.getD 9 0) 7, res := field3 (b.getD 9 0) 0
               interlace := flagBit (b.getD 9 0) 6, delayMs := t.pendDelay
               pal := if flagBit (b.getD 9 0) 7 then [] else t.gct
               palValid := !flagBit (b.getD 9 0) 7
               pix := [], npix := 0, pixValid := false }]
          pendLct := flagBit (b.getD 9 0) 7 }
        (if flagBit (b.getD 9 0) 7 then .lct else .imgData))

/-- State `LCT` (R192). -/
def handleLct (s : State) : Flow :=
  match s.active with
  | none => .stuck .noActiveFrame
  | some f =>
    (s.readColorTable f.res).andThen fun p t =>
      .ok ((t.updateActive fun g => { g with pal := p, palValid := true }).goto .imgData)

/-- The loop of R193. Every sub-block takes a byte or more, so the unread bytes bound the first argument. -/
def gatherLoop : Nat → State → Flow
  | 0, s => .ok s
  | n + 1, s =>
    s.readByte.andThen fun len t =>
      if len = 0 then .ok t
      else if exceedsCap t.cfg.payloadCap (t.payLen + len.toNat) then .raised (t.raise .capacityExceeded 2 len.toNat)
      else (t.readBytes len.toNat).andThen fun b u => gatherLoop n { u with pay := u.pay ++ b }

/-- State `IMGDATA` (R193, R194). -/
def handleImgData (s : State) : Flow :=
  (((s.readByte.andThen fun mcs t => gatherLoop (t.avail + 1) { t with mcs := mcs, pay := [] }).bind
    State.lzwDecode).bind State.finishImage)

/-- State `EXT` (R198). -/
def handleExt (s : State) : Flow :=
  (s.readBytes 2).andThen fun b t =>
    if b.getD 1 0 = labelGce then .ok (t.goto .gce)
    else if b.getD 1 0 = labelPte ∨ b.getD 1 0 = labelApp then .ok (t.goto .ptae)
    else .ok (t.goto .comment)

/-- State `GCE` (R199). -/
def handleGce (s : State) : Flow :=
  (s.skipBytes 1).bind fun s1 =>
    (s1.readBytes 4).andThen fun d s2 =>
      ({ s2 with pendDelay := scaledDelay (u16le (d.getD 1 0) (d.getD 2 0)) } : State).readByte.andThen fun t s3 =>
        if t ≠ 0 then .raised (s3.raise .malformedStream 3 t.toNat) else .ok (s3.goto .content)

/-- `SkipSubBlocks()` (R202), bounded as `gatherLoop` is. -/
def skipLoop : Nat → State → Flow
  | 0, s => .ok s
  | n + 1, s =>
    s.readByte.andThen fun len t =>
      if len = 0 then .ok t else (t.skipBytes len.toNat).bind (skipLoop n)

/-- States `PTAE` (R200) and `COMMENT` (R201). -/
def handleSkip (s : State) : Flow := (skipLoop (s.avail + 1) s).bind fun t => .ok (t.goto .content)

/-- State `TRAILER` (R203). -/
def handleTrailer (s : State) : Flow :=
  s.readByte.andThen fun b t =>
    if b ≠ introTrl then .raised (t.raise .malformedStream 2 b.toNat)
    else .ok (((t.warn .trailerSeen).warnIf (decide (0 < t.avail)) .wStray).goto .done)

/-- The handler of a parser state (43_container.md R180); `DONE` and `FAULT` have none (R204). -/
def handle (s : State) : Flow :=
  match s.state with
  | .header => handleHeader s
  | .lsd => handleLsd s
  | .gct => handleGct s
  | .content => handleContent s
  | .imgDesc => handleImgDesc s
  | .lct => handleLct s
  | .imgData => handleImgData s
  | .ext => handleExt s
  | .gce => handleGce s
  | .ptae => handleSkip s
  | .comment => handleSkip s
  | .trailer => handleTrailer s
  | .done => .stuck .runEnded
  | .fault => .stuck .runEnded

end Sys2Proof.Machine
end

