-- ==== Sys2Proof/Machine/HostSide.lean ====
section
/-! DEFINITION. The host's two commands (60_exceptions.md R264), what it may read after the end of a run (R266), and the two
host-side collaborators the spec transcribes: the Animator (44_framestore.md) and the flip (45_pixelpost.md section 2). -/

namespace Sys2Proof.Machine

/-! ### Reset and launch -/

/-- Reset (70_reset_and_hazards.md R280): it can be applied in any state, and nothing survives it but what was fixed when
the hardware was built. -/
def State.hostReset (s : State) : State := State.resetWith s.cfg

/-- Launch (R283, R284): bind a complete stream to a reset machine; one of 2^32 bytes or more is refused. -/
def launch (cfg : Config) (bytes : List Byte) : Host.Outcome State Fault Refusal :=
  if 2 ^ 32 ≤ bytes.length then .refused .streamTooLong
  else .next { State.resetWith cfg with mem := Memory.ofBytes 0 bytes, inLen := bytes.length }

/-- The end of a run (R286): `STATE` is `DONE` or `FAULT`. -/
def State.ended (s : State) : Bool := s.state == .done || s.state == .fault

/-- `k` steps, ended early by the end of the run (R283: steps are taken "until none exists"). -/
def runFor : Nat → State → Host.Outcome State Fault Refusal
  | 0, s => .next s
  | k + 1, s =>
    if s.ended then .next s
    else
      match step s with
      | .next t => runFor k t
      | .fault r => .fault r
      | .refused r => .refused r

/-! ### Reading registers (R266) -/

/-- The registers the host may read, by name, with the numbers it sees. -/
structure HostView where
  state      : BitVec 4
  pos        : Nat
  scrW       : BitVec 16
  scrH       : BitVec 16
  gctPresent : Bool
  gctRes     : BitVec 3
  gctLen     : Nat
  gct        : List Color
  pendDelay  : BitVec 20
  pendLct    : Bool
  nframes    : Nat
  frames     : List Frame
  status     : BitVec 6
  cause      : BitVec 4
  fstate     : BitVec 4
  fpos       : Nat
  finfo      : BitVec 4
  fval       : BitVec 16
deriving DecidableEq, Repr

/-- What is host-visible of a state. The working registers of the LZW unit and the payload are not (10_state.md R32, R37). -/
def State.view (s : State) : HostView :=
  { state := s.state.code, pos := s.pos, scrW := s.scrW, scrH := s.scrH
    gctPresent := s.gctPresent, gctRes := s.gctRes, gctLen := s.gctLen, gct := s.gct
    pendDelay := s.pendDelay, pendLct := s.pendLct, nframes := s.nframes, frames := s.frames
    status := s.status, cause := s.cause.code, fstate := s.fstate.code, fpos := s.fpos
    finfo := s.finfo, fval := s.fval }

/-- A host's read: only after the end of a run. It changes nothing in the core. -/
def State.hostRead (s : State) : Except Refusal HostView :=
  if s.ended then .ok s.view else .error .runNotEnded

/-! ### The Animator (44_framestore.md) -/

/-- The Animator's two registers (R221). -/
structure Animator where
  /-- `CUR` -/
  cur  : Nat
  /-- `LAST`, in milliseconds -/
  last : Nat
deriving DecidableEq, Repr

/-- After a load completed at time `t0` (R221). -/
def Animator.start (t0 : Nat) : Animator := { cur := 0, last := t0 }

/-- The update of `Query(now)` (R223) for the frames of a run; `now` is at or after `LAST` (R222). -/
def Animator.advance (a : Animator) (frames : List Frame) (now : Nat) : Animator :=
  match frames[a.cur]? with
  | none => a
  | some f =>
    if f.delayMs.toNat < now - a.last then { cur := (a.cur + 1) % frames.length, last := now } else a

/-- `Query(now)` (R223): the Animator after the update and the current frame's pixels; with no frame it is refused (R225). -/
def Animator.query (a : Animator) (frames : List Frame) (now : Nat) : Except Refusal (Animator × List Byte) :=
  match frames[(a.advance frames now).cur]? with
  | none => .error .noFrameToShow
  | some f => .ok (a.advance frames now, f.pix)

/-- `width()` and `height()` of the current frame (R220). With no frame there are none: R225 refuses the query alone and no
rule speaks of these two there (log 27). -/
def Animator.size (a : Animator) (frames : List Frame) : Option (BitVec 16 × BitVec 16) :=
  (frames[a.cur]?).map fun f => (f.w, f.h)

/-! ### The flip (45_pixelpost.md section 2) -/

/-- Where byte `j` of the flipped buffer comes from: the same column and channel, row `h-1-row`. -/
def flipSource (w h j : Nat) : Nat := (h - 1 - j / (3 * w)) * (3 * w) + j % (3 * w)

/-- `Flip(buf, w, h)` on a buffer of the right length (R235). -/
def flipBytes (buf : List Byte) (w h : Nat) : List Byte :=
  (List.range (3 * w * h)).map fun j => buf.getD (flipSource w h j) 0

/-- `Flip(buf, w, h)`; a buffer of another length is refused (R235). -/
def flipBuffer (buf : List Byte) (w h : Nat) : Except Refusal (List Byte) :=
  if buf.length = 3 * w * h then .ok (flipBytes buf w h) else .error .flipLength

/-- The flip of a frame's pixels (R235): refused for a frame with `npix ≠ w × h`. -/
def Frame.flipped (f : Frame) : Except Refusal (List Byte) := flipBuffer f.pix f.w.toNat f.h.toNat

/-- What a caller gets of a frame's pixels under the `flip` parameter of a load (R235): a copy of `pix`, mirrored or not. -/
def Frame.loaded (flip : Bool) (f : Frame) : Except Refusal (List Byte) := if flip then f.flipped else .ok f.pix

/-- The load-time `flip` parameter (R235, 60_exceptions.md R263): "applied to each frame's `pix` after the run", on copies,
since "the core's `FRAME[i].pix` is never flipped". R235 refuses the flip for a frame, not for the run. -/
def State.loadPixels (flip : Bool) (s : State) : Except Refusal (List (Except Refusal (List Byte))) :=
  s.hostRead.map fun v => v.frames.map (Frame.loaded flip)

end Sys2Proof.Machine
end

