-- ==== Sys2Proof/Safety.lean ====
section
/-! DEFINITION. The terms the statements use: what holds of a state in every run, which transitions exist, what of a
state is not the working registers', and the encoders of 41_lzw.md R159. Nothing here is part of the step. -/

namespace Sys2Proof.Machine

/-! ### Invariants -/

/-- The stream and the place in it (10_state.md R22): the bound bytes are in their canonical form, they lie below
`IN_LEN`, and `POS <= IN_LEN < 2^32`. -/
structure StreamOk (s : State) : Prop where
  form   : Memory.wf s.mem = true
  inside : ∀ c ∈ s.mem, c.1 < s.inLen
  pos    : s.pos ≤ s.inLen
  len    : s.inLen < 2 ^ 32

/-- A frame record as R43 describes it. -/
structure FrameOk (f : Frame) : Prop where
  pixels   : f.pix.length = 3 * f.npix
  table    : f.pal.length = 0 ∨ f.pal.length ∈ tableLengths
  pending  : f.palValid = false → f.hasLct = true ∧ f.pal = [] ∧ f.pixValid = false
  unstored : f.pixValid = false → f.pix = [] ∧ f.npix = 0

/-- The states in which no image block is open and no fault was met. -/
def ParserState.betweenBlocks : ParserState → Bool
  | .lct => false
  | .imgData => false
  | .fault => false
  | .header => true
  | .lsd => true
  | .gct => true
  | .content => true
  | .imgDesc => true
  | .ext => true
  | .gce => true
  | .ptae => true
  | .comment => true
  | .trailer => true
  | .done => true

/-- The states before the first block. -/
def ParserState.inPrologue : ParserState → Bool
  | .header => true
  | .lsd => true
  | .gct => true
  | .content => false
  | .imgDesc => false
  | .lct => false
  | .imgData => false
  | .ext => false
  | .gce => false
  | .ptae => false
  | .comment => false
  | .trailer => false
  | .done => false
  | .fault => false

/-- The frame store (43_container.md R205 c, d, e; 10_state.md R28, R42, R43). -/
structure FrameStoreOk (s : State) : Prop where
  records   : ∀ f ∈ s.frames, FrameOk f
  earlier   : ∀ f ∈ s.frames.dropLast, f.palValid = true ∧ f.pixValid = true
  complete  : s.state.betweenBlocks = true → ∀ f ∈ s.frames, f.palValid = true ∧ f.pixValid = true
  faulted   : s.state = .fault → s.fstate ≠ .lct → s.fstate ≠ .imgData →
    ∀ f ∈ s.frames, f.palValid = true ∧ f.pixValid = true
  awaitsLct : s.state = .lct → ∃ f, s.active = some f ∧ f.hasLct = true ∧ f.palValid = false ∧ f.pixValid = false
  awaitsPix : s.state = .imgData → ∃ f, s.active = some f ∧ f.palValid = true ∧ f.pixValid = false
  pending   : ∀ f, s.active = some f → s.pendLct = f.hasLct
  global    : s.gct.length = 0 ∨ s.gct.length ∈ tableLengths
  prologue  : s.state.inPrologue = true → s.frames = [] ∧ s.gct = []

/-- The fault registers and the end of a run (10_state.md R31, 60_exceptions.md R245, R250, 70_reset_and_hazards.md R286). -/
structure EndOk (s : State) : Prop where
  cause    : s.cause = .none ↔ s.state ≠ .fault
  reserved : s.cause ≠ .unsupportedFeature
  location : s.state = .fault → s.fpos = s.pos ∧ s.fstate ≠ .done ∧ s.fstate ≠ .fault
  ended    : s.state = .done → s.flag .trailerSeen = true ∨ s.flag .wEos = true
  running  : s.state ≠ .done → s.flag .trailerSeen = false ∧ s.flag .wEos = false ∧ s.flag .wStray = false

/-- The LZW registers while a decode is under way at a place `p` of the code stream (10_state.md R33 to R36, R41): the ranges
the spec derives for them, and the shape of the Code Table. -/
structure LzwOk (s : State) (p : CodePos) : Prop where
  state    : s.state = .imgData
  mcs      : s.mcs.toNat ≤ maxMcs
  clear    : s.cc = 2 ^ s.mcs.toNat
  eoi      : s.eoi = s.cc + 1
  width    : s.mcs.toNat + 1 ≤ s.w ∧ s.w ≤ maxWidth
  size     : s.cc + 2 ≤ s.tsize ∧ s.tsize ≤ tableMax
  literals : ∀ i, i < s.cc → s.dict[i]? = some [i]
  reserved : s.dict[s.cc]? = some [] ∧ s.dict[s.eoi]? = some []
  appended : ∀ i e, s.eoi < i → s.dict[i]? = some e → 1 ≤ e.length ∧ e.length ≤ i - s.cc
  indices  : (∀ e ∈ s.dict, ∀ x ∈ e, x < s.cc) ∧ ∀ x ∈ s.out, x < s.cc
  growth   : 2 ≤ s.mcs.toNat → s.tsize ≤ 2 ^ s.w ∧ (s.w < maxWidth → s.tsize < 2 ^ s.w)
  fresh    : p ≠ .loop → s.w = s.mcs.toNat + 1 ∧ s.tsize = s.cc + 2
  prev     : p = .loop → s.prev < s.tsize
  offset   : s.bitOff ≤ 8 * s.payLen

/-! ### Transitions -/

/-- The transition table of 43_container.md R181. -/
def transition : ParserState → ParserState → Bool
  | .header, .lsd => true
  | .lsd, .gct => true
  | .lsd, .content => true
  | .gct, .content => true
  | .content, .ext => true
  | .content, .imgDesc => true
  | .content, .trailer => true
  | .content, .done => true
  | .imgDesc, .lct => true
  | .imgDesc, .imgData => true
  | .lct, .imgData => true
  | .imgData, .content => true
  | .ext, .gce => true
  | .ext, .ptae => true
  | .ext, .comment => true
  | .gce, .content => true
  | .ptae, .content => true
  | .comment, .content => true
  | .trailer, .done => true
  | .done, _ => false
  | .fault, _ => false
  | _, .fault => true
  | _, _ => false

/-! ### What the working registers are -/

/-- A state with other working registers (10_state.md R40): the values of sections 5 and 6 of 10_state.md, and `DICT`. -/
def State.withWorking (s : State) (other : State) : State :=
  { s with
    mcs := other.mcs, pay := other.pay, w := other.w, cc := other.cc, eoi := other.eoi, prev := other.prev
    dict := other.dict, bitOff := other.bitOff, out := other.out, eoiSeen := other.eoiSeen }

/-- Fault entry (60_exceptions.md R250), from the state `s` the handler had reached: a next state, in which the five fault
registers and `STATE` are written and everything else is as it was, but for the working registers, whose "contents after a
fault are unspecified" and of which nothing is said. -/
def EntersFault (x : Host.Outcome State Fault Refusal) (s : State) (c : Cause) (sub : BitVec 4) (val : BitVec 16) : Prop :=
  ∃ t, x = .next t ∧ t.withWorking s =
    { s with cause := c, finfo := sub, fval := val, fstate := s.state, fpos := s.pos, state := .fault }

/-- The host-visible end of a step. -/
def visible (x : Host.Outcome State Fault Refusal) : Host.Outcome HostView Fault Refusal :=
  match x with
  | .next s => .next s.view
  | .fault r => .fault r
  | .refused r => .refused r

/-! ### Encoders -/

/-- The Code Table after initialisation: the literals below `cc`, then the two reserved entries (41_lzw.md R141). -/
def initialTable (cc : Nat) : List (List Nat) := (List.range cc).map (fun i => [i]) ++ [[], []]

/-- The code width after an append left `tsize` entries (41_lzw.md R154). -/
def grownWidth (tsize w : Nat) : Nat := if tsize = 2 ^ w ∧ w < maxWidth then w + 1 else w

/-- An encoder's table after it wrote the string `u` with `rest` still to come: one entry longer, unless it is full or nothing
comes (41_lzw.md R159: "stop adding entries at 4096"). -/
def encoderTable (table : List (List Nat)) (u rest : List Nat) : List (List Nat) :=
  match rest with
  | [] => table
  | x :: _ => if table.length < tableMax then table ++ [u ++ [x]] else table

/-- `codes` is one way to write `data` with a table: a Clear Code starts the table again and is followed by a code that is
not reserved; every other code names a non-empty entry that the data goes on with. Which entry is taken, and where a Clear
Code stands, is the encoder's choice. -/
def Writes (cc : Nat) : List Nat → List (List Nat) → List Nat → Prop
  | [], _, data => data = []
  | c :: codes, table, data =>
    if c = cc then (∃ d ds, codes = d :: ds ∧ d ≠ cc) ∧ Writes cc codes (initialTable cc) data
    else
      ∃ u rest, table[c]? = some u ∧ u ≠ [] ∧ data = u ++ rest ∧ Writes cc codes (encoderTable table u rest) rest

/-- The bits of a code sequence from a place of the code stream on: each code at the width that the table size before it
gives (41_lzw.md R154, 70_reset_and_hazards.md R294 c), and at the end the End-of-Information Code where the encoder
writes one. -/
def streamBits (mcs : Nat) (withEoi : Bool) : CodePos → Nat → Nat → List Nat → List Bool
  | _, _, w, [] => if withEoi then codeBits w (2 ^ mcs + 1) else []
  | .start, tsize, w, c :: codes => codeBits w c ++ streamBits mcs withEoi .first tsize w codes
  | .first, tsize, w, c :: codes => codeBits w c ++ streamBits mcs withEoi .loop tsize w codes
  | .loop, tsize, w, c :: codes =>
    codeBits w c ++
      (if c = 2 ^ mcs then streamBits mcs withEoi .first (2 ^ mcs + 2) (mcs + 1) codes
       else if tsize < tableMax then streamBits mcs withEoi .loop (tsize + 1) (grownWidth (tsize + 1) w) codes
       else streamBits mcs withEoi .loop tsize w codes)

/-- The bits of a whole payload, whose first code is a Clear Code (41_lzw.md R159). -/
def payloadBits (mcs : Nat) (withEoi : Bool) (codes : List Nat) : List Bool :=
  streamBits mcs withEoi .start (2 ^ mcs + 2) (mcs + 1) codes

end Sys2Proof.Machine
end

