-- ==== Sys2Proof/Certificates/Slice0/Obligations.lean ====
section
/-! DEFINITION. The statements for the provers, in the order of OBLIGATIONS.json. -/

section
open Sys2Proof Sys2Proof.Machine

/-! ### Reset and launch -/

/-- 10_state.md R46: the value of every register that has one after reset, whatever the state before. The working
registers have none there and are not named. -/
def Obligations.ResetGivesTheTableOfResetValues : Prop :=
  ∀ s : State,
    s.hostReset.state.code = 0 ∧ s.hostReset.pos = 0 ∧ s.hostReset.scrW = 0 ∧ s.hostReset.scrH = 0 ∧
    s.hostReset.gctPresent = false ∧ s.hostReset.gctRes = 0 ∧ s.hostReset.gctLen = 0 ∧ s.hostReset.pendDelay = 100 ∧
    s.hostReset.pendLct = false ∧ s.hostReset.nframes = 0 ∧ s.hostReset.frames = [] ∧ s.hostReset.status = 0 ∧
    s.hostReset.cause.code = 0 ∧ s.hostReset.fstate.code = 0 ∧ s.hostReset.fpos = 0 ∧ s.hostReset.finfo = 0 ∧
    s.hostReset.fval = 0 ∧ s.hostReset.cfg = s.cfg ∧ State.reset.view = s.hostReset.view

/-- The three invariants hold after reset, for every choice of the parameters. The values of `IN` and `IN_LEN` in
reset are the model's (log 1). -/
def Obligations.ResetMeetsTheInvariants : Prop :=
  ∀ cfg : Config,
    StreamOk (State.resetWith cfg) ∧ FrameStoreOk (State.resetWith cfg) ∧ EndOk (State.resetWith cfg)

/-- 70_reset_and_hazards.md R283 and R284: a stream of 2^32 bytes or more is refused; any other is bound to the reset state,
unread from its first byte on. The invariants are derived. The canonical form in `StreamOk` (log 2), and the reset state
without a stream that the launched one is compared with (logs 1, 16), are the model's choices. -/
def Obligations.LaunchBindsAStreamOrRefusesIt : Prop :=
  ∀ (cfg : Config) (bytes : List Byte),
    (2 ^ 32 ≤ bytes.length → launch cfg bytes = .refused .streamTooLong) ∧
    (bytes.length < 2 ^ 32 →
      ∃ s, launch cfg bytes = .next s ∧ s.unread = bytes ∧ s.inLen = bytes.length ∧
        { s with mem := [], inLen := 0 } = State.resetWith cfg ∧ StreamOk s ∧ FrameStoreOk s ∧ EndOk s)

/-! ### Encodings -/

/-- Words written out by hand from the format tables of 30_encoding.md and from the listings of 95_test_vectors.md. -/
def Obligations.HandWrittenWordsDecode : Prop :=
  decodeBlock .sig [0x47, 0x49, 0x46, 0x38, 0x37, 0x61] = .ok .hdr87 ∧
  decodeBlock .sig [0x47, 0x49, 0x46, 0x38, 0x39, 0x61] = .ok .hdr89 ∧
  decodeBlock .lsd [0x34, 0x12, 0x78, 0x56, 0x07, 0xAA, 0xBB] = .ok (.lsd 0x1234 0x5678 0x07 0xAA 0xBB) ∧
  decodeBlock (.gct 0) [0, 0, 0, 255, 255, 255] = .ok (.gct [⟨0, 0, 0⟩, ⟨255, 255, 255⟩]) ∧
  decodeBlock .intro [0x2C] = .ok .img ∧
  decodeBlock .extHdr [0x21, 0xFE] = .ok (.cmt 0x21 0xFE) ∧
  decodeBlock .gceBody [0x04, 0x00, 0x05, 0x00, 0x00, 0x00] = .ok (.gceBody 4 0 5 0 0) ∧
  decodeBlock .imgDesc [0x2C, 1, 0, 2, 0, 3, 0, 4, 0, 0x40] = .ok (.imgDesc 0x2C 1 2 3 4 0x40) ∧
  decodeBlock .idata [2, 3, 0x44, 2, 5, 0] = .ok (.idata 2 [[0x44, 2, 5]]) ∧
  decodeBlock .subchain [2, 0x68, 0x69, 0] = .ok (.subchain [[0x68, 0x69]]) ∧
  decodeBlock .trl [0x3B] = .ok (.trlByte 0x3B) ∧
  decodeCode { pos := .loop, off := 6, w := 3, cc := 4, eoi := 5, tsize := 6 } [0x44, 0x02, 0x05]
    = .ok (.lzwKnown 3 1)

/-- Decode and encode agree for every container token: whatever follows it in the stream, every operand at every value its
format admits; and every well-formed container token has a slot it is read in. -/
def Obligations.DecodingAnEncodedTokenGivesItBack : Prop :=
  (∀ (sl : Slot) (i : Instr) (rest : List Byte),
    sl.takes i = true → decodeBlock sl (encodeBlock i ++ rest) = .ok i) ∧
  (∀ i : Instr, i.isCode = false → i.wf = true → ∃ sl : Slot, sl.takes i = true)

/-- The other direction: what the decoder reads is a token of the slot, the bytes it read are the token's encoding, and the
token's length is theirs (a lookahead reads its one byte without consuming it). -/
def Obligations.ADecodedTokenEncodesToTheBytesRead : Prop :=
  ∀ (sl : Slot) (bs : List Byte) (i : Instr), decodeBlock sl bs = .ok i →
    sl.takes i = true ∧ encodeBlock i <+: bs ∧
    (encodeBlock i).length = (if sl = .intro then 1 else i.length) ∧ (sl = .intro → i.length = 0)

/-- Codes decode and encode alike: the bits of a code at its place give the token of its class, and a token that was read
has the bits that stand there. -/
def Obligations.CodesDecodeAndEncodeAlike : Prop :=
  ∀ (sl : CodeSlot) (pay : List Byte),
    (∀ c : Nat, 1 ≤ sl.w → sl.w ≤ 12 → c < 2 ^ sl.w → sl.off + sl.w ≤ 8 * pay.length →
      codeBits sl.w c = (List.range sl.w).map (fun k => payBit pay (sl.off + k)) →
      decodeCode sl pay = .ok ((sl.classOf c).instr sl.w c)) ∧
    (∀ i : Instr, decodeCode sl pay = .ok i →
      encodeBits i = (List.range sl.w).map (fun k => payBit pay (sl.off + k)) ∧ i.isCode = true)

/-- 40_bitcursor.md R130, R131 and R132: the code is the number whose bit `k` is payload bit `off + k`, and the new offset is
`off + W`; too few bits come before the 12-bit guard, and neither fault moves the offset. -/
def Obligations.ReadCodeAssemblesTheCode : Prop :=
  ∀ s : State,
    (8 * s.pay.length < s.bitOff + s.w →
      readCode s.pay s.bitOff s.w = .error .shortPayload ∧
      s.readCode = .raised
        { s with cause := .readFailure, finfo := 2, fval := 0, fstate := s.state, fpos := s.pos, state := .fault }) ∧
    (s.bitOff + s.w ≤ 8 * s.pay.length →
      ∃ v, v < 2 ^ s.w ∧ (∀ k, k < s.w → v.testBit k = payBit s.pay (s.bitOff + k)) ∧
        (v ≤ 4095 →
          readCode s.pay s.bitOff s.w = .ok (v, s.bitOff + s.w) ∧ s.readCode = .got v { s with bitOff := s.bitOff + s.w }) ∧
        (4095 < v →
          readCode s.pay s.bitOff s.w = .error (.codeTooLarge v) ∧
          s.readCode = .raised
            { s with
              cause := .codeOutOfRange, finfo := 2, fval := BitVec.ofNat 16 v
              fstate := s.state, fpos := s.pos, state := .fault }))

/-- 30_encoding.md R92, and the bit of a payload (20_memory.md R65). -/
def Obligations.BytesAreLittleEndianAndBitsCountFromTheLow : Prop :=
  (∀ lo hi : Byte, (u16le lo hi).toNat = lo.toNat ||| (hi.toNat <<< 8)) ∧
  (∀ (pay : List Byte) (i : Nat) (b : Byte), pay[i / 8]? = some b →
    (payBit pay i).toNat = (b.toNat >>> (i % 8)) &&& 1)

/-! ### The step runs what is decoded -/

/-- The step is exec of the decoded token and adds nothing; where no token is decoded it is the answer to the rejection, the
end of the image, or no step. -/
def Obligations.AStepRunsTheDecodedToken : Prop :=
  ∀ s : State,
    (∀ sl i, s.place = .block sl → decodeBlock sl s.unread = .ok i → step s = exec i s) ∧
    (∀ p i, s.place = .code p → decodeCode (s.codeSlot p) s.pay = .ok i → step s = exec i s) ∧
    (∀ sl r, s.place = .block sl → decodeBlock sl s.unread = .error r → step s = (answerReject r s).outcome) ∧
    (∀ p r, s.place = .code p → decodeCode (s.codeSlot p) s.pay = .error r → step s = (answerReject r s).outcome) ∧
    (s.place = .imageEnd → step s = s.finishImage.outcome) ∧
    (∀ r, s.place = .nowhere r → step s = .fault r)

/-- Where the bytes from `POS` on are the encoding of a token of the slot that STATE selects, the step runs that token. -/
def Obligations.AStepRunsTheTokenWhoseBytesStandAtPos : Prop :=
  ∀ (s : State) (sl : Slot) (i : Instr),
    s.place = .block sl → sl.takes i = true →
    s.pos + (encodeBlock i).length ≤ s.inLen →
    (∀ k b, (encodeBlock i)[k]? = some b → Memory.read s.mem (s.pos + k) = b) →
    step s = exec i s

/-- A table word placed by `withFetchWord` is the token that the very next step runs (the placing is the model's, log 15). -/
def Obligations.APlacedTableWordRunsNext : Prop :=
  ∀ (s : State) (nbits w : Nat) (i : Instr), Memory.wf s.mem = true →
    decodeTableWord nbits w = some i → step (s.withFetchWord nbits w) = exec i (s.withFetchWord nbits w)

/-! ### What each container token does -/

/-- `HDR87` and `HDR89` complete in every state: six bytes and the state `LSD`, nothing else (43_container.md section 2). -/
def Obligations.SignaturesLeadToTheScreenDescriptor : Prop :=
  ∀ s : State,
    exec .hdr87 s = .next { s with pos := s.pos + 6, state := .lsd } ∧
    exec .hdr89 s = .next { s with pos := s.pos + 6, state := .lsd }

/-- `LSD` completes in every state: seven bytes, the four control registers, the next state, nothing else. -/
def Obligations.ScreenDescriptorWritesItsRegisters : Prop :=
  ∀ (s : State) (w h : BitVec 16) (packed bg aspect : Byte),
    exec (.lsd w h packed bg aspect) s = .next
      { s with
        pos := s.pos + 7, scrW := w, scrH := h, gctPresent := packed.getLsbD 7
        gctRes := (match s.cfg.lsdRes with
          | .bits2to0 => packed.extractLsb' 0 3
          | .bits6to4 => packed.extractLsb' 4 3)
        state := if packed.getLsbD 7 then .gct else .content }

/-- `GCT` completes in every state: its bytes, the table, the next state, nothing else. -/
def Obligations.GlobalTableIsStored : Prop :=
  ∀ (s : State) (entries : List Color),
    exec (.gct entries) s = .next
      { s with pos := s.pos + 3 * entries.length, gct := entries, state := .content }

/-- `EXT`, `IMG` and `TRL` complete in every state; `STATE` is all they change: "The step consumes nothing". -/
def Obligations.LookaheadConsumesNothing : Prop :=
  ∀ s : State,
    exec .ext s = .next { s with state := .ext } ∧
    exec .img s = .next { s with state := .imgDesc } ∧
    exec .trl s = .next { s with state := .trailer }

/-- `GCE`, `PTE`, `APP` and `CMT` complete in every state, whatever their bytes: two bytes and the next state. -/
def Obligations.ExtensionHeadersRouteByLabel : Prop :=
  ∀ (s : State) (intro label : Byte),
    exec (.gce intro) s = .next { s with pos := s.pos + 2, state := .gce } ∧
    exec (.pte intro) s = .next { s with pos := s.pos + 2, state := .ptae } ∧
    exec (.app intro) s = .next { s with pos := s.pos + 2, state := .ptae } ∧
    exec (.cmt intro label) s = .next { s with pos := s.pos + 2, state := .comment }

/-- `GCEBODY` completes where its terminator is 0, and with any other terminator takes the fault `MalformedStream` (3) with
`PEND_DELAY` already written. The delay is exact: it fits its register. -/
def Obligations.ControlBodySetsThePendingDelay : Prop :=
  ∀ (s : State) (skipped flags transparent terminator : Byte) (delay : BitVec 16),
    (terminator = 0 →
      exec (.gceBody skipped flags delay transparent terminator) s = .next
        { s with pos := s.pos + 6, pendDelay := BitVec.ofNat 20 (delay.toNat * 10), state := .content }) ∧
    (terminator ≠ 0 →
      EntersFault (exec (.gceBody skipped flags delay transparent terminator) s)
        { s with pos := s.pos + 6, pendDelay := BitVec.ofNat 20 (delay.toNat * 10) }
        .malformedStream 3 (terminator.setWidth 16)) ∧
    (BitVec.ofNat 20 (delay.toNat * 10)).toNat = delay.toNat * 10

/-- `SUBCHAIN` completes in every state: the bytes of the chain are consumed and nothing is kept. -/
def Obligations.SubBlocksAreSkipped : Prop :=
  ∀ (s : State) (blocks : List (List Byte)),
    exec (.subchain blocks) s = .next
      { s with pos := s.pos + ((blocks.map fun b => 1 + b.length).sum + 1), state := .content }

/-- `ID` completes where the frame store is not full, and otherwise takes `CapacityExceeded` (1) after its read, with no
frame appended. -/
def Obligations.ImageDescriptorAppendsAFrame : Prop :=
  ∀ (s : State) (intro packed : Byte) (left top w h : BitVec 16),
    (s.cfg.frameCap ≠ some s.frames.length →
      exec (.imgDesc intro left top w h packed) s = .next
        { s with
          pos := s.pos + 10
          frames := s.frames ++
            [{ w := w, h := h, hasLct := packed.getLsbD 7, res := packed.extractLsb' 0 3
               interlace := packed.getLsbD 6, delayMs := s.pendDelay
               pal := if packed.getLsbD 7 then [] else s.gct
               palValid := !packed.getLsbD 7, pix := [], npix := 0, pixValid := false }]
          pendLct := packed.getLsbD 7
          state := if packed.getLsbD 7 then .lct else .imgData }) ∧
    (s.cfg.frameCap = some s.frames.length →
      EntersFault (exec (.imgDesc intro left top w h packed) s) { s with pos := s.pos + 10 } .capacityExceeded 1 0)

/-- `LCT` completes where there is a frame: the last record takes the palette, every other field and record stays. With no
frame there is no such step (no run reaches that, log 9). -/
def Obligations.LocalTableGoesToTheActiveFrame : Prop :=
  ∀ (s : State) (entries : List Color),
    (∀ fs f, s.frames = fs ++ [f] →
      exec (.lct entries) s = .next
        { s with
          pos := s.pos + 3 * entries.length
          frames := fs ++ [{ f with pal := entries, palValid := true }]
          state := .imgData }) ∧
    (s.frames = [] → exec (.lct entries) s = .fault .noActiveFrame)

/-- `TRLBYTE` completes where its byte is the marker, and otherwise takes `MalformedStream` (2) with the byte consumed. -/
def Obligations.TrailerEndsTheRun : Prop :=
  ∀ (s : State) (b : Byte),
    (b = 0x3B →
      exec (.trlByte b) s = .next
        { s with
          pos := s.pos + 1
          status := if s.pos + 1 < s.inLen then s.status ||| 0b100000 ||| 0b000010 else s.status ||| 0b100000
          state := .done }) ∧
    (b ≠ 0x3B →
      EntersFault (exec (.trlByte b) s) { s with pos := s.pos + 1 } .malformedStream 2 (b.setWidth 16))

/-- `IDATA` completes where there is a frame, the payload fits its buffer, the payload decodes and every index is inside the
palette: the pixels go to the last record, the warnings are those of R194, and nothing else changes but
the working registers, whose values between steps the rules leave open (R40) and of which nothing is said. -/
def Obligations.ImageDataStoresThePixels : Prop :=
  ∀ (s : State) (mcs : Byte) (blocks : List (List Byte)) (fs : List Frame) (f : Frame) (v : State) (rgb : List Byte),
    s.frames = fs ++ [f] →
    (∀ cap, s.cfg.payloadCap = some cap → blocks.flatten.length ≤ cap) →
    State.lzwDecode { s with pos := s.pos + (1 + chainLength blocks), mcs := mcs, pay := blocks.flatten } = .ok v →
    materialize f.pal v.out = .ok rgb →
    ∃ t, exec (.idata mcs blocks) s = .next t ∧ t.withWorking s =
      { s with
        pos := s.pos + (1 + chainLength blocks), lzwPos := none
        frames := fs ++ [{ f with pix := rgb, npix := v.out.length, pixValid := true }]
        status := s.status ||| (if v.eoiSeen then 0 else 0b010000)
          ||| (if v.out.length = f.w.toNat * f.h.toNat then 0 else 0b001000)
          ||| (if f.interlace then 0b000100 else 0)
        state := .content }

/-! ### The code stream -/

/-- 41_lzw.md R140 and R141. -/
def Obligations.LzwInitSetsUpTheDecode : Prop :=
  ∀ s : State,
    (11 < s.mcs.toNat →
      EntersFault s.lzwInit.outcome s .codeOutOfRange 1 (s.mcs.setWidth 16)) ∧
    (s.mcs.toNat ≤ 11 →
      ∃ dict, s.lzwInit = .ok
        { s with
          w := s.mcs.toNat + 1, cc := 2 ^ s.mcs.toNat, eoi := 2 ^ s.mcs.toNat + 1, bitOff := 0, out := []
          eoiSeen := false, dict := dict, lzwPos := some .start } ∧
        dict.length = 2 ^ s.mcs.toNat + 2 ∧ (∀ i, i < 2 ^ s.mcs.toNat → dict[i]? = some [i]) ∧
        dict[2 ^ s.mcs.toNat]? = some [] ∧ dict[2 ^ s.mcs.toNat + 1]? = some [])

/-- 41_lzw.md R142: the first code of a payload. `LZW.START` completes where its code is the Clear Code; any other code is
`InvalidLzwStream` (1) with nothing emitted, and a payload too short for a code is `ReadFailure` (2). -/
def Obligations.FirstCodeOfThePayloadMustClear : Prop :=
  ∀ (s : State) (w c : Nat),
    (c = s.cc → exec (.lzwStart w c) s = .next { s with bitOff := s.bitOff + w, lzwPos := some .first }) ∧
    (c ≠ s.cc →
      EntersFault (exec (.lzwStart w c) s) s .invalidLzwStream 1 (BitVec.ofNat 16 c) ∧
        ∀ t, exec (.lzwStart w c) s = .next t → t.out = s.out) ∧
    (s.state = .imgData → s.lzwPos = some .start → 8 * s.pay.length < s.bitOff + s.w →
      EntersFault (step s) s .readFailure 2 0) ∧
    (∀ v off, s.state = .imgData → s.lzwPos = some .start → readCode s.pay s.bitOff s.w = .ok (v, off) →
      step s = exec (.lzwStart s.w v) s ∧ off = s.bitOff + s.w)

/-- 41_lzw.md R143: the code after a Clear Code. `LZW.FIRST` completes where its code has an entry, reserved or not, and the
output buffer has room; the entry is emitted and nothing is appended. -/
def Obligations.CodeAfterAClearCodeIsEmitted : Prop :=
  ∀ (s : State) (w c : Nat),
    (∀ e, s.dict[c]? = some e → (∀ cap, s.cfg.pixelCap = some cap → s.out.length + e.length ≤ cap) →
      exec (.lzwFirst w c) s = .next
        { s with bitOff := s.bitOff + w, out := s.out ++ e, prev := c, lzwPos := some .loop }) ∧
    (s.dict.length ≤ c →
      EntersFault (exec (.lzwFirst w c) s) s .codeOutOfRange 3 (BitVec.ofNat 16 c)) ∧
    (∀ e cap, s.dict[c]? = some e → s.cfg.pixelCap = some cap → cap < s.out.length + e.length →
      EntersFault (exec (.lzwFirst w c) s) s .capacityExceeded 3 0) ∧
    (s.state = .imgData → s.lzwPos = some .first → 8 * s.pay.length < s.bitOff + s.w →
      EntersFault (step s) s .readFailure 2 0) ∧
    (∀ v off, s.state = .imgData → s.lzwPos = some .first → readCode s.pay s.bitOff s.w = .ok (v, off) →
      step s = exec (.lzwFirst s.w v) s ∧ off = s.bitOff + s.w)

/-- 41_lzw.md R150: the table and the width are reset, what was emitted stays, and the following code is read at the reset
width and taken as the code after a Clear Code, in the same step. `LZW.CLEAR` completes where that code can be read, has
an entry and fits the output buffer. -/
def Obligations.ClearCodeResetsAndTakesTheNextCode : Prop :=
  ∀ (s : State) (w c : Nat),
    (∀ v off e, readCode s.pay (s.bitOff + w) (s.mcs.toNat + 1) = .ok (v, off) → (initialTable s.cc)[v]? = some e →
      (∀ cap, s.cfg.pixelCap = some cap → s.out.length + e.length ≤ cap) →
      exec (.lzwClear w c) s = .next
        { s with
          dict := initialTable s.cc, w := s.mcs.toNat + 1, bitOff := off, out := s.out ++ e, prev := v
          lzwPos := some .loop }) ∧
    (∀ v off, readCode s.pay (s.bitOff + w) (s.mcs.toNat + 1) = .ok (v, off) →
      exec (.lzwClear w c) s =
        exec (.lzwFirst (s.mcs.toNat + 1) v)
          { s with dict := initialTable s.cc, w := s.mcs.toNat + 1, bitOff := s.bitOff + w }) ∧
    (8 * s.pay.length < s.bitOff + w + (s.mcs.toNat + 1) →
      EntersFault (exec (.lzwClear w c) s) s .readFailure 2 0)

/-- 41_lzw.md R149: `LZW.EOI` completes in every state and sets `EOI_SEEN` and nothing else, beside taking its bits; the loop has
ended then, whatever bits are left. -/
def Obligations.EndOfInformationStopsTheDecode : Prop :=
  ∀ (s : State) (w c : Nat),
    exec (.lzwEoi w c) s = .next { s with bitOff := s.bitOff + w, eoiSeen := true } ∧
    (s.state = .imgData → s.lzwPos = some .loop →
      step { s with bitOff := s.bitOff + w, eoiSeen := true } =
        (State.finishImage { s with bitOff := s.bitOff + w, eoiSeen := true }).outcome)

/-- 41_lzw.md R151 with R145, R146 and R154: `LZW.KNOWN` completes where its entry exists and fits the output buffer; the
new entry is the previous one with the first element of the current one, stored only while the table has room, and the
width grows on that append alone. A full output buffer is the fault `CapacityExceeded` (3). -/
def Obligations.KnownCodeEmitsAndAppends : Prop :=
  ∀ (s : State) (w c x : Nat) (e p : List Nat),
    s.dict[c]? = some (x :: e) → s.dict[s.prev]? = some p →
    ((∀ cap, s.cfg.pixelCap = some cap → s.out.length + (e.length + 1) ≤ cap) →
      exec (.lzwKnown w c) s = .next
        { s with
          bitOff := s.bitOff + w, out := s.out ++ x :: e, prev := c
          dict := if s.dict.length < 4096 then s.dict ++ [p ++ [x]] else s.dict
          w := if s.dict.length < 4096 ∧ s.dict.length + 1 = 2 ^ s.w ∧ s.w < 12 then s.w + 1 else s.w }) ∧
    (∀ cap, s.cfg.pixelCap = some cap → cap < s.out.length + (e.length + 1) →
      EntersFault (exec (.lzwKnown w c) s) s .capacityExceeded 3 0)

/-- 41_lzw.md R152: `LZW.KWKWK` completes where the previous entry is not empty and the new one fits the output buffer: the
previous entry with its own first element is appended and emitted. An empty previous entry is `InvalidLzwStream` (2), a full
output buffer `CapacityExceeded` (3). -/
def Obligations.KwKwKBuildsTheEntryItNames : Prop :=
  ∀ (s : State) (w c : Nat),
    (∀ x p, s.dict[s.prev]? = some (x :: p) →
      (∀ cap, s.cfg.pixelCap = some cap → s.out.length + (p.length + 2) ≤ cap) →
      exec (.lzwKwkwk w c) s = .next
        { s with
          bitOff := s.bitOff + w, out := s.out ++ (x :: p ++ [x]), prev := c
          dict := if s.dict.length < 4096 then s.dict ++ [x :: p ++ [x]] else s.dict
          w := if s.dict.length < 4096 ∧ s.dict.length + 1 = 2 ^ s.w ∧ s.w < 12 then s.w + 1 else s.w }) ∧
    (s.dict[s.prev]? = some [] →
      EntersFault (exec (.lzwKwkwk w c) s) s .invalidLzwStream 2 (BitVec.ofNat 16 c)) ∧
    (∀ p cap, s.dict[s.prev]? = some p → p ≠ [] → s.cfg.pixelCap = some cap → cap < s.out.length + (p.length + 1) →
      EntersFault (exec (.lzwKwkwk w c) s) s .capacityExceeded 3 0)

/-- 41_lzw.md R153: `LZW.ILLEGAL` in every state is the fault `CodeOutOfRange` (4) with nothing emitted or appended; that
entry is the class's own effect. -/
def Obligations.IllegalCodeFaults : Prop :=
  ∀ (s : State) (w c : Nat),
    EntersFault (exec (.lzwIllegal w c) s) s .codeOutOfRange 4 (BitVec.ofNat 16 c) ∧
      ∀ t, exec (.lzwIllegal w c) s = .next t → t.out = s.out ∧ t.dict = s.dict

/-- 41_lzw.md R144 and 30_encoding.md R106: in the loop a code is compared with `CC`, `EOI` and `TSIZE` in this order; with no
unread bit, or after an End-of-Information Code, the loop has ended; with fewer bits than the width it faults; and every code of the loop
moves the offset on, inside the payload. -/
def Obligations.LoopCodesAreClassedInOrder : Prop :=
  ∀ s : State, s.state = .imgData → s.lzwPos = some .loop →
    (s.bitOff < 8 * s.pay.length → s.eoiSeen = false →
      ∀ c off, readCode s.pay s.bitOff s.w = .ok (c, off) →
        off = s.bitOff + s.w ∧
        step s =
          if c = s.cc then exec (.lzwClear s.w c) s
          else if c = s.eoi then exec (.lzwEoi s.w c) s
          else if c < s.dict.length then exec (.lzwKnown s.w c) s
          else if c = s.dict.length then exec (.lzwKwkwk s.w c) s
          else exec (.lzwIllegal s.w c) s) ∧
    (s.bitOff < 8 * s.pay.length → s.eoiSeen = false → 8 * s.pay.length < s.bitOff + s.w →
      EntersFault (step s) s .readFailure 2 0) ∧
    (8 * s.pay.length ≤ s.bitOff ∨ s.eoiSeen = true → step s = s.finishImage.outcome) ∧
    (1 ≤ s.w → ∀ t, step s = .next t → t.state = .imgData → s.bitOff < t.bitOff ∧ t.bitOff ≤ 8 * t.pay.length)

/-! ### The step is the handler of the rules -/

/-- 43_container.md R182, R183 and R184, with every fault and every partial read: the step is the handler as written. -/
def Obligations.PrologueStepsAreTheHandlers : Prop :=
  ∀ s : State,
    (s.state = .header → step s = (handleHeader s).outcome) ∧
    (s.state = .lsd → step s = (handleLsd s).outcome) ∧
    (s.state = .gct → step s = (handleGct s).outcome)

/-- 43_container.md R185, R186 and R198. -/
def Obligations.DispatchStepsAreTheHandlers : Prop :=
  ∀ s : State,
    (s.state = .content → step s = (handleContent s).outcome) ∧
    (s.state = .ext → step s = (handleExt s).outcome)

/-- 43_container.md R190 and R192. That in `LCT` with no frame neither the step nor the handler goes on is the model's choice
(log 9): no run is in such a state. -/
def Obligations.ImageHeaderStepsAreTheHandlers : Prop :=
  ∀ s : State,
    (s.state = .imgDesc → step s = (handleImgDesc s).outcome) ∧
    (s.state = .lct → step s = (handleLct s).outcome)

/-- 43_container.md R193 and R194: gathering, with the capacity test before each sub-block's bytes, then the decode, then the
materialisation and the store, in one step. That with no frame record neither the step nor the handler goes on at the end of
the block is the model's choice (log 9), since R194 has `NFRAMES >= 1` there; and the working registers, which the two ends
share as well, are unspecified between steps (log 6). -/
def Obligations.ImageDataStepIsTheHandler : Prop :=
  ∀ s : State, s.state = .imgData → s.lzwPos = none → step s = (handleImgData s).outcome

/-- 43_container.md R199 and R203. -/
def Obligations.ControlAndTrailerStepsAreTheHandlers : Prop :=
  ∀ s : State,
    (s.state = .gce → step s = (handleGce s).outcome) ∧
    (s.state = .trailer → step s = (handleTrailer s).outcome)

/-- 43_container.md R200, R201 and R202. -/
def Obligations.SkippedExtensionStepsAreTheHandlers : Prop :=
  ∀ s : State, (s.state = .ptae ∨ s.state = .comment → step s = (handleSkip s).outcome)

/-- 20_memory.md R61 to R64, over the bytes from `POS` on: `MemRead` and `Avail`, the lookahead that moves nothing, and reads that
are all or nothing. -/
def Obligations.StreamReadsAreAllOrNothing : Prop :=
  ∀ s : State,
    (s.avail = s.inLen - s.pos ∧ s.unread.length = s.avail ∧
      ∀ k, k < s.avail → s.unread[k]? = some (Memory.read s.mem (s.pos + k))) ∧
    (∀ addr n,
      (addr + n ≤ s.inLen → ∃ bs, s.memRead addr n = some bs ∧ bs.length = n ∧
        ∀ k, k < n → bs[k]? = some (Memory.read s.mem (addr + k))) ∧
      (s.inLen < addr + n → s.memRead addr n = none)) ∧
    (s.unread = [] →
      s.peek = none ∧
      s.readByte = .raised
        { s with cause := .readFailure, finfo := 1, fval := 0, fstate := s.state, fpos := s.pos, state := .fault }) ∧
    (∀ b bs, s.unread = b :: bs → s.peek = some b ∧ s.readByte = .got b { s with pos := s.pos + 1 }) ∧
    (∀ n, n ≤ s.unread.length →
      s.readBytes n = .got (s.unread.take n) { s with pos := s.pos + n } ∧ s.skipBytes n = .ok { s with pos := s.pos + n }) ∧
    (∀ n, s.unread.length < n →
      s.readBytes n = .raised
        { s with cause := .readFailure, finfo := 1, fval := 0, fstate := s.state, fpos := s.pos, state := .fault } ∧
      s.skipBytes n = .raised
        { s with cause := .readFailure, finfo := 1, fval := 0, fstate := s.state, fpos := s.pos, state := .fault })

/-- 42_colortable.md R170, R171 and R172: exactly `2^(N+1)` triples in file order, or `ReadFailure` with the whole triples
before it consumed. -/
def Obligations.ColorTableReaderReadsExactly : Prop :=
  ∀ (s : State) (res : BitVec 3),
    (3 * 2 ^ (res.toNat + 1) ≤ s.unread.length →
      ∃ p, s.readColorTable res = .got p { s with pos := s.pos + 3 * 2 ^ (res.toNat + 1) } ∧
        p.length = 2 ^ (res.toNat + 1) ∧ p.flatMap colorBytes = s.unread.take (3 * 2 ^ (res.toNat + 1))) ∧
    (s.unread.length < 3 * 2 ^ (res.toNat + 1) →
      s.readColorTable res = .raised
        { s with
          pos := s.pos + 3 * (s.unread.length / 3), cause := .readFailure, finfo := 1, fval := 0, fstate := s.state
          fpos := s.pos + 3 * (s.unread.length / 3), state := .fault })

/-- 45_pixelpost.md R230, R231 and R232: three bytes for each index, red first, in encounter order, or the fault
`PaletteIndexOutOfRange` (0) at the first index outside the palette, with nothing stored in the frame. -/
def Obligations.MaterialisationMapsEveryIndex : Prop :=
  ∀ (pal : List Color) (idx : List Nat),
    ((∀ i ∈ idx, i < pal.length) →
      ∃ rgb, materialize pal idx = .ok rgb ∧ rgb.length = 3 * idx.length ∧
        ∀ j i c, idx[j]? = some i → pal[i]? = some c →
          rgb[3 * j]? = some c.r ∧ rgb[3 * j + 1]? = some c.g ∧ rgb[3 * j + 2]? = some c.b) ∧
    (∀ pre i post, idx = pre ++ i :: post → (∀ k ∈ pre, k < pal.length) → pal.length ≤ i →
      materialize pal idx = .error i ∧
      ∀ (s : State) (fs : List Frame) (f : Frame), s.frames = fs ++ [f] → f.pal = pal → s.out = idx →
        EntersFault s.finishImage.outcome s .paletteIndexOutOfRange 0 (BitVec.ofNat 16 i))

/-! ### Rules about every step -/

/-- 60_exceptions.md R250 and R252: a step that enters `FAULT` records where and what, sets no warning, and writes no cause that is
reserved; a step that does not enter it leaves the five fault registers alone (10_state.md R31). -/
def Obligations.FaultEntryRecordsTheFault : Prop :=
  ∀ s t : State, step s = .next t →
    (t.state = .fault →
      t.fstate = s.state ∧ t.fpos = t.pos ∧ t.cause ≠ .none ∧ t.cause ≠ .unsupportedFeature ∧ t.status = s.status) ∧
    (t.state ≠ .fault →
      t.cause = s.cause ∧ t.fstate = s.fstate ∧ t.fpos = s.fpos ∧ t.finfo = s.finfo ∧ t.fval = s.fval)

/-- `DONE` and `FAULT` have no step (43_container.md R204); that the model says so by the fault `runEnded` is log 8. Every other
state has one (R180); in `LCT` and `IMGDATA` the model asks for the frame that every run has there (log 9). -/
def Obligations.OnlyTheEndStatesHaveNoStep : Prop :=
  ∀ s : State,
    (s.state = .done ∨ s.state = .fault → step s = .fault .runEnded) ∧
    (s.state ≠ .done → s.state ≠ .fault → (s.state = .lct ∨ s.state = .imgData → s.frames ≠ []) → ∃ t, step s = .next t)

/-- 43_container.md R181: no other transition exists. -/
def Obligations.TransitionsAreThoseOfTheTable : Prop :=
  ∀ s t : State, (s.state = .imgData → s.lzwPos = none) → step s = .next t → transition s.state t.state = true

/-- 10_state.md R24 to R29 and R42: each control register has one writer. -/
def Obligations.ControlRegistersHaveOneWriter : Prop :=
  ∀ s t : State, step s = .next t →
    (s.state ≠ .lsd → t.scrW = s.scrW ∧ t.scrH = s.scrH ∧ t.gctPresent = s.gctPresent ∧ t.gctRes = s.gctRes) ∧
    (s.state ≠ .gct → t.gct = s.gct) ∧
    (s.state ≠ .gce → t.pendDelay = s.pendDelay) ∧
    (s.state ≠ .imgDesc → t.pendLct = s.pendLct ∧ t.frames.length = s.frames.length)

/-- 60_exceptions.md R260: "A set bit stays set until reset"; and which step may set which bit (10_state.md R30). -/
def Obligations.WarningsAreSticky : Prop :=
  ∀ (s t : State) (f : StatusFlag), step s = .next t →
    (s.flag f = true → t.flag f = true) ∧
    (s.flag f = false → t.flag f = true →
      match f with
      | .wEos => s.state = .content
      | .wStray => s.state = .trailer
      | .trailerSeen => s.state = .trailer
      | .wUnsup => s.state = .imgData
      | .wPixcount => s.state = .imgData
      | .wNoeoi => s.state = .imgData)

/-- 20_memory.md R66: the core never writes its input. For every token, every offset of the stream reads after it as before;
the length, and what was fixed when the hardware was built, stay too; and so for every step. -/
def Obligations.TheCoreNeverWritesItsInput : Prop :=
  (∀ (i : Instr) (s t : State), exec i s = .next t →
    (∀ a, Memory.read t.mem a = Memory.read s.mem a) ∧ t.mem = s.mem ∧ t.inLen = s.inLen ∧ t.cfg = s.cfg) ∧
  (∀ s t : State, step s = .next t → t.mem = s.mem ∧ t.inLen = s.inLen ∧ t.cfg = s.cfg)

/-- 10_state.md R43 and R44: a step changes at most the last record; `LCT` writes its palette, `IMGDATA` its pixels, and no step
writes another field of a record that exists; only `IMGDESC` adds one. -/
def Obligations.AStepWritesNoFrameButTheLast : Prop :=
  ∀ s t : State, step s = .next t →
    t.frames = s.frames ∨
    (s.state = .imgDesc ∧ ∃ f, t.frames = s.frames ++ [f] ∧ f.pix = [] ∧ f.npix = 0 ∧ f.pixValid = false) ∨
    (s.state = .lct ∧ ∃ fs f pal,
      s.frames = fs ++ [f] ∧ t.frames = fs ++ [{ f with pal := pal, palValid := true }]) ∨
    (s.state = .imgData ∧ ∃ fs f pix npix,
      s.frames = fs ++ [f] ∧ t.frames = fs ++ [{ f with pix := pix, npix := npix, pixValid := true }])

/-! ### Invariants and whole runs -/

/-- Every step keeps `POS <= IN_LEN < 2^32`, and `POS` never decreases (10_state.md R22, 43_container.md R205 (a)). The rest of
`StreamOk`, the canonical form of the cells and that they lie below `IN_LEN`, is the model's representation of `IN` (log 2). -/
def Obligations.StepsKeepTheStreamInvariant : Prop :=
  ∀ s t : State, StreamOk s → step s = .next t → StreamOk t ∧ s.pos ≤ t.pos

/-- 43_container.md R205 (d) and (e), 10_state.md R28, R42 and R43: every step keeps the frame store in the form the rules give;
at the end of a run every frame is complete, unless it ended in a fault of `LCT` or `IMGDATA`, and then every frame but the
last. -/
def Obligations.StepsKeepTheFrameStoreInvariant : Prop :=
  ∀ s t : State, FrameStoreOk s → step s = .next t → FrameStoreOk t

/-- 10_state.md R31 and 70_reset_and_hazards.md R286: every step keeps the fault registers and the end of a run in agreement. -/
def Obligations.StepsKeepTheEndInvariant : Prop :=
  ∀ s t : State, EndOk s → step s = .next t → EndOk t

/-- 10_state.md R33 to R36 and R41: the start of a decode meets the ranges the spec derives for the LZW registers and the shape of
the Code Table, and every code keeps them, whatever the code. -/
def Obligations.CodesKeepTheLzwInvariant : Prop :=
  (∀ s t : State, s.state = .imgData → s.lzwInit = .ok t → LzwOk t .start) ∧
  (∀ (s t : State) (p q : CodePos), s.lzwPos = some p → LzwOk s p → step s = .next t →
    t.state = .imgData → t.lzwPos = some q → LzwOk t q)

/-- 43_container.md R205 (b): "Every run ends". From every state between two steps of a run, the end is at most
`2 × Avail() + 1` steps away; so it is from every launch. -/
def Obligations.EveryRunEnds : Prop :=
  (∀ s : State, s.lzwPos = none → (s.state = .lct ∨ s.state = .imgData → s.frames ≠ []) →
    ∃ t, runFor (2 * s.avail + 1) s = .next t ∧ t.ended = true) ∧
  (∀ (cfg : Config) (bytes : List Byte) (s : State), launch cfg bytes = .next s →
    ∃ t, runFor (2 * bytes.length + 1) s = .next t ∧ t.ended = true)

/-- Decision D3: the finer steps "compose to the same result". Once the payload is gathered and the decode set up, stepping
code by code ends where the one step of `IDATA` ends. -/
def Obligations.CodeByCodeIsTheWholeImageStep : Prop :=
  ∀ (s g u : State) (mcs : Byte) (blocks : List (List Byte)),
    s.state = .imgData → gather mcs blocks s = .ok g → g.lzwInit = .ok u →
    ∃ k, runFor k u = exec (.idata mcs blocks) s

/-- 41_lzw.md R159, the round trip: the payload of any conforming encoder, with any choice of entries and of further Clear
Codes, decodes to the data; it ends at the End-of-Information Code, or with the last code on a byte boundary. -/
def Obligations.WhatAConformingEncoderWritesDecodes : Prop :=
  ∀ (s : State) (codes data : List Nat) (withEoi : Bool),
    2 ≤ s.mcs.toNat → s.mcs.toNat ≤ 11 → s.cfg.pixelCap = none →
    Writes (2 ^ s.mcs.toNat) (2 ^ s.mcs.toNat :: codes) [] data →
    (withEoi = true ∨ (payloadBits s.mcs.toNat withEoi (2 ^ s.mcs.toNat :: codes)).length % 8 = 0) →
    s.pay = packBits (payloadBits s.mcs.toNat withEoi (2 ^ s.mcs.toNat :: codes)) →
    ∃ t, s.lzwDecode = .ok t ∧ t.out = data ∧ t.eoiSeen = withEoi

/-- 10_state.md R40: what the working registers held before a step cannot be observed after it. -/
def Obligations.WorkingRegistersCannotBeObserved : Prop :=
  ∀ s other : State, s.lzwPos = none → visible (step (s.withWorking other)) = visible (step s)

/-- 70_reset_and_hazards.md R296: "The same payload split differently decodes the same", for every payload that fits its buffer:
the two ends differ in nothing but where the stream stands. That the ends share the working registers too, which the spec
leaves unspecified after a block, is the model's choice (log 6). -/
def Obligations.SubBlockBoundariesDoNotMatter : Prop :=
  ∀ (s t : State) (mcs : Byte) (blocks blocks' : List (List Byte)),
    (∀ cap, s.cfg.payloadCap = some cap → blocks.flatten.length ≤ cap) → blocks.flatten = blocks'.flatten →
    exec (.idata mcs blocks) s = .next t →
    ∃ t', exec (.idata mcs blocks') s = .next t' ∧
      t' = { t with pos := t'.pos, fpos := t'.fpos } ∧ t'.pos = s.pos + (1 + chainLength blocks')

/-! ### The host side -/

/-- 45_pixelpost.md R235 and R236: every byte of the flip comes from the mirrored row, a buffer of another length is refused, and
flipping twice gives the buffer back; the `flip` parameter of a load applies it to each frame's pixels after the run. -/
def Obligations.FlipMirrorsRowsAndUndoesItself : Prop :=
  ∀ (buf : List Byte) (w h : Nat),
    (buf.length = 3 * w * h →
      ∃ out, flipBuffer buf w h = .ok out ∧ out.length = 3 * w * h ∧ flipBuffer out w h = .ok buf ∧
        ∀ row col ch, row < h → col < w → ch < 3 →
          out[((h - 1 - row) * w + col) * 3 + ch]? = buf[(row * w + col) * 3 + ch]?) ∧
    (buf.length ≠ 3 * w * h → flipBuffer buf w h = .error .flipLength) ∧
    (∀ f : Frame, f.pix.length = 3 * f.npix → f.npix ≠ f.w.toNat * f.h.toNat → f.flipped = .error .flipLength) ∧
    (∀ (s : State) (flip : Bool), s.ended = true →
      ∃ all, s.loadPixels flip = .ok all ∧ all.length = s.nframes ∧
        ∀ (i : Nat) (f : Frame), s.frames[i]? = some f →
          all[i]? = some (if flip = true then flipBuffer f.pix f.w.toNat f.h.toNat else .ok f.pix))

/-- 44_framestore.md R223 and R225: one frame at most is advanced, and only when the elapsed time exceeds the delay; with no
frame the query is refused. -/
def Obligations.AnimatorAdvancesWhenTheDelayIsExceeded : Prop :=
  ∀ (a : Animator) (frames : List Frame) (now : Nat),
    (frames = [] → a.query frames now = .error .noFrameToShow) ∧
    (∀ f, frames[a.cur]? = some f → now - a.last ≤ f.delayMs.toNat → a.query frames now = .ok (a, f.pix)) ∧
    (∀ f, frames[a.cur]? = some f → f.delayMs.toNat < now - a.last →
      ∃ g, frames[(a.cur + 1) % frames.length]? = some g ∧
        a.query frames now = .ok ({ cur := (a.cur + 1) % frames.length, last := now }, g.pix))

/-! ### Frames once built -/

/-- 10_state.md R43, "immutable thereafter": where the frame store has the form every run keeps it in
(`StepsKeepTheFrameStoreInvariant`), no step changes a record whose pixels are stored, and none changes a palette that is
assigned. -/
def Obligations.FinishedFramesAreImmutable : Prop :=
  ∀ s t : State, FrameStoreOk s → step s = .next t → ∀ (i : Nat) (f : Frame), s.frames[i]? = some f →
    (f.pixValid = true → t.frames[i]? = some f) ∧
    (f.palValid = true → ∃ g : Frame, t.frames[i]? = some g ∧ g.pal = f.pal ∧ g.palValid = true)

end
end

