-- ==== Sys2Proof/Laws/Decode.lean ====
section
/-! SUPPORT. What each helper of the decoder answers, said once: byte order, color tables, sub-block chains, codes. -/

namespace Sys2Proof

/-! ### Byte order -/

@[simp] theorem u16le_lowByte_highByte (v : BitVec 16) : u16le (lowByte v) (highByte v) = v := by
  ext i hi
  simp only [u16le, lowByte, highByte, BitVec.getElem_or, BitVec.getElem_setWidth, BitVec.getElem_shiftLeft,
    BitVec.getLsbD_setWidth, BitVec.getLsbD_ushiftRight]
  have hv : v.getLsbD i = v[i] := BitVec.getLsbD_eq_getElem hi
  by_cases h : i < 8
  · simp [h, hv]
  · have h8 : 8 + (i - 8) = i := by omega
    have hi8 : i - 8 < 8 := by omega
    simp [h, h8, hi8, hv]

@[simp] theorem lowByte_u16le (lo hi : Byte) : lowByte (u16le lo hi) = lo := by
  ext i hi
  simp [u16le, lowByte]

@[simp] theorem highByte_u16le (lo hi : Byte) : highByte (u16le lo hi) = hi := by
  ext i h
  have h16 : 8 + i < 16 := by omega
  have hi16 : i < 16 := by omega
  simp [u16le, highByte, h, h16, hi16]

/-! ### Color tables -/

@[simp] theorem length_encodeTable (cs : List Color) : (encodeTable cs).length = 3 * cs.length := by
  induction cs with
  | nil => rfl
  | cons c cs ih =>
    simp only [encodeTable, List.flatMap_cons, List.length_append, List.length_cons] at *
    simp only [colorBytes, List.length_cons, List.length_nil]
    omega

/-- Reading the bytes of a table gives the table, whatever follows. -/
theorem takeTriples_encodeTable (cs : List Color) (rest : List Byte) :
    takeTriples cs.length (encodeTable cs ++ rest) = some cs := by
  induction cs with
  | nil => rfl
  | cons c cs ih =>
    simp only [encodeTable, List.flatMap_cons, colorBytes, List.cons_append, List.nil_append] at *
    simp only [List.length_cons, takeTriples, ih]

/-- What was read has the wanted length, and its bytes stand in front. -/
theorem takeTriples_some {n : Nat} {bs : List Byte} {cs : List Color} (h : takeTriples n bs = some cs) :
    cs.length = n ∧ encodeTable cs <+: bs := by
  induction n generalizing bs cs with
  | zero =>
    simp only [takeTriples, Option.some.injEq] at h
    subst h
    exact ⟨rfl, List.nil_prefix⟩
  | succ n ih =>
    match bs, h with
    | r :: g :: b :: rest, h =>
      simp only [takeTriples] at h
      split at h
      · rename_i cs' heq
        simp only [Option.some.injEq] at h
        subst h
        obtain ⟨hl, hp⟩ := ih heq
        refine ⟨by simp [hl], ?_⟩
        simpa [encodeTable, colorBytes] using hp
      · simp at h
    | [], h => simp [takeTriples] at h
    | [_], h => simp [takeTriples] at h
    | [_, _], h => simp [takeTriples] at h

/-- Only too few bytes stop the reading of a table. -/
theorem takeTriples_none (n : Nat) (bs : List Byte) : takeTriples n bs = none ↔ bs.length < 3 * n := by
  induction n generalizing bs with
  | zero => simp [takeTriples]
  | succ n ih =>
    match bs with
    | r :: g :: b :: rest =>
      have h : takeTriples (n + 1) (r :: g :: b :: rest) = none ↔ takeTriples n rest = none := by
        simp only [takeTriples]
        split <;> simp_all
      rw [h, ih]
      simp only [List.length_cons]
      omega
    | [] => simp [takeTriples]
    | [_] => simp [takeTriples]; omega
    | [_, _] => simp [takeTriples]; omega

/-- The lengths a resolution gives are the lengths of R42. -/
theorem tableEntries_mem (res : BitVec 3) : tableEntries res ∈ tableLengths := by
  revert res; decide

theorem tableEntries_pos (res : BitVec 3) : 0 < tableEntries res := Nat.two_pow_pos _

/-- Every length of R42 is that of one resolution. -/
theorem exists_res_of_mem_tableLengths {n : Nat} (h : n ∈ tableLengths) : ∃ res : BitVec 3, tableEntries res = n := by
  simp only [tableLengths, List.mem_cons, List.not_mem_nil, or_false] at h
  rcases h with rfl | rfl | rfl | rfl | rfl | rfl | rfl | rfl
  · exact ⟨0, rfl⟩
  · exact ⟨1, rfl⟩
  · exact ⟨2, rfl⟩
  · exact ⟨3, rfl⟩
  · exact ⟨4, rfl⟩
  · exact ⟨5, rfl⟩
  · exact ⟨6, rfl⟩
  · exact ⟨7, rfl⟩

/-! ### Chains of sub-blocks -/

/-- The bytes of sub-blocks with their length bytes, the zero-length one left out. -/
def subBlockBytes (blocks : List (List Byte)) : List Byte :=
  blocks.flatMap fun b => BitVec.ofNat 8 b.length :: b

@[simp] theorem subBlockBytes_nil : subBlockBytes [] = [] := rfl

@[simp] theorem subBlockBytes_cons (b : List Byte) (bs : List (List Byte)) :
    subBlockBytes (b :: bs) = BitVec.ofNat 8 b.length :: (b ++ subBlockBytes bs) := rfl

theorem encodeChain_eq (blocks : List (List Byte)) : encodeChain blocks = subBlockBytes blocks ++ [0] := by
  induction blocks with
  | nil => rfl
  | cons b bs ih => simp [encodeChain, ih]

@[simp] theorem length_subBlockBytes (blocks : List (List Byte)) :
    (subBlockBytes blocks).length = blocksLength blocks := by
  induction blocks with
  | nil => rfl
  | cons b bs ih =>
    simp only [subBlockBytes_cons, List.length_cons, List.length_append, ih, blocksLength]
    omega

@[simp] theorem length_encodeChain (blocks : List (List Byte)) : (encodeChain blocks).length = chainLength blocks := by
  simp [encodeChain_eq, chainLength]

theorem length_le_blocksLength (blocks : List (List Byte)) : blocks.length ≤ blocksLength blocks := by
  induction blocks with
  | nil => simp [blocksLength]
  | cons b bs ih => simp only [List.length_cons, blocksLength]; omega

theorem blocksLength_eq (blocks : List (List Byte)) : blocksLength blocks = blocks.length + blocks.flatten.length := by
  induction blocks with
  | nil => rfl
  | cons b bs ih =>
    simp only [blocksLength, List.length_cons, List.flatten_cons, List.length_append, ih]
    omega

/-- The length byte of a sub-block says its length. -/
theorem toNat_lengthByte {b : List Byte} (h : blockOk b = true) :
    (BitVec.ofNat 8 b.length).toNat = b.length ∧ BitVec.ofNat 8 b.length ≠ 0 := by
  simp only [blockOk, Bool.and_eq_true, decide_eq_true_eq] at h
  have h1 : (BitVec.ofNat 8 b.length).toNat = b.length := by
    simp only [BitVec.toNat_ofNat]; omega
  refine ⟨h1, fun h0 => ?_⟩
  rw [h0] at h1
  have : (0 : BitVec 8).toNat = 0 := rfl
  omega

/-- A sub-block read by its length byte is one, and its length byte says its length. -/
theorem blockOk_take {len : Byte} {bs : List Byte} (h0 : len ≠ 0) (hl : len.toNat ≤ bs.length) :
    blockOk (bs.take len.toNat) = true ∧ BitVec.ofNat 8 (bs.take len.toNat).length = len := by
  have hpos : len.toNat ≠ 0 := fun h => h0 (BitVec.eq_of_toNat_eq (by simpa using h))
  have hlt := len.isLt
  have h : (bs.take len.toNat).length = len.toNat := by simp [hl]
  refine ⟨?_, ?_⟩
  · simp only [blockOk, h, Bool.and_eq_true, decide_eq_true_eq]; omega
  · rw [h]; exact BitVec.eq_of_toNat_eq (by simp)

/-- Reading the bytes of a chain gives the chain, whatever follows. -/
theorem readChain_encodeChain (fuel : Nat) (blocks : List (List Byte)) (rest : List Byte)
    (hok : blocks.all blockOk = true) (hf : blocks.length < fuel) :
    readChain fuel (encodeChain blocks ++ rest) = .full blocks := by
  induction blocks generalizing fuel with
  | nil =>
    obtain ⟨fuel, rfl⟩ : ∃ k, fuel = k + 1 := ⟨fuel - 1, by simp at hf; omega⟩
    simp [encodeChain, readChain]
  | cons b bs ih =>
    obtain ⟨fuel, rfl⟩ : ∃ k, fuel = k + 1 := ⟨fuel - 1, by simp at hf; omega⟩
    simp only [List.all_cons, Bool.and_eq_true] at hok
    obtain ⟨hn, h0⟩ := toNat_lengthByte hok.1
    have hlen : ¬ (b ++ (encodeChain bs ++ rest)).length < b.length := by simp
    simp only [encodeChain, List.cons_append, readChain, if_neg h0, hn, List.append_assoc, if_neg hlen,
      List.take_left, List.drop_left, ih fuel hok.2 (by simpa using hf), ChainRead.push]

/-- What a walk that found a whole chain read. -/
theorem readChain_full {fuel : Nat} {bs : List Byte} {blocks : List (List Byte)}
    (h : readChain fuel bs = .full blocks) : blocks.all blockOk = true ∧ encodeChain blocks <+: bs := by
  induction fuel generalizing bs blocks with
  | zero => simp [readChain] at h
  | succ fuel ih =>
    cases bs with
    | nil => simp [readChain] at h
    | cons len bs =>
      simp only [readChain] at h
      split at h
      · rename_i h0
        simp only [ChainRead.full.injEq] at h
        subst h h0
        exact ⟨rfl, by simp [encodeChain]⟩
      · rename_i h0
        split at h
        · simp at h
        · rename_i hl
          cases hr : readChain fuel (bs.drop len.toNat) with
          | cut _ _ => simp [hr, ChainRead.push] at h
          | full bl =>
            simp only [hr, ChainRead.push, ChainRead.full.injEq] at h
            subst h
            obtain ⟨hok, hp⟩ := ih hr
            obtain ⟨hb, hbl⟩ := blockOk_take h0 (Nat.le_of_not_lt hl)
            refine ⟨by simp only [List.all_cons, hb, hok, Bool.and_self], ?_⟩
            simp only [encodeChain, hbl, List.cons_append, List.cons_prefix_cons, true_and]
            obtain ⟨rest, hrest⟩ := hp
            exact ⟨rest, by rw [List.append_assoc, hrest, List.take_append_drop]⟩

/-- What a walk that the end of the stream cut had read, and what was left. -/
theorem readChain_cut {fuel : Nat} {bs : List Byte} {blocks : List (List Byte)} {len : Option Byte}
    (hf : bs.length ≤ fuel) (h : readChain fuel bs = .cut blocks len) :
    blocks.all blockOk = true ∧
      match len with
      | none => bs = subBlockBytes blocks
      | some l => l ≠ 0 ∧ ∃ tail, tail.length < l.toNat ∧ bs = subBlockBytes blocks ++ l :: tail := by
  induction fuel generalizing bs blocks with
  | zero =>
    simp only [readChain, ChainRead.cut.injEq] at h
    obtain ⟨rfl, rfl⟩ := h
    exact ⟨rfl, by simpa using hf⟩
  | succ fuel ih =>
    cases bs with
    | nil =>
      simp only [readChain, ChainRead.cut.injEq] at h
      obtain ⟨rfl, rfl⟩ := h
      exact ⟨rfl, rfl⟩
    | cons l bs =>
      simp only [readChain] at h
      split at h
      · simp at h
      · rename_i h0
        split at h
        · rename_i hl
          simp only [ChainRead.cut.injEq] at h
          obtain ⟨rfl, rfl⟩ := h
          exact ⟨rfl, h0, bs, hl, rfl⟩
        · rename_i hl
          cases hr : readChain fuel (bs.drop l.toNat) with
          | full _ => simp [hr, ChainRead.push] at h
          | cut bl len' =>
            simp only [hr, ChainRead.push, ChainRead.cut.injEq] at h
            obtain ⟨rfl, rfl⟩ := h
            simp only [List.length_cons] at hf
            obtain ⟨hok, hrest⟩ := ih (by simp; omega) hr
            obtain ⟨hb, hbl⟩ := blockOk_take h0 (Nat.le_of_not_lt hl)
            refine ⟨by simp only [List.all_cons, hb, hok, Bool.and_self], ?_⟩
            have split := List.take_append_drop l.toNat bs
            cases len' with
            | none =>
              simp only at hrest ⊢
              rw [subBlockBytes_cons, hbl, ← hrest, split]
            | some l' =>
              obtain ⟨hl', tail, ht, hbs⟩ := hrest
              refine ⟨hl', tail, ht, ?_⟩
              rw [subBlockBytes_cons, hbl, List.cons_append, List.append_assoc, ← hbs, split]

/-! ### Codes -/

/-- The number of a code has no bit above its width. -/
theorem codeValue_lt (pay : List Byte) (off n : Nat) : codeValue pay off n < 2 ^ n := by
  induction n with
  | zero => simp [codeValue]
  | succ n ih =>
    simp only [codeValue, Nat.pow_succ]
    cases payBit pay (off + n) <;> simp <;> omega

/-- Bit `k` of the number of a code is bit `off + k` of the payload. -/
theorem testBit_codeValue (pay : List Byte) (off n k : Nat) :
    (codeValue pay off n).testBit k = (decide (k < n) && payBit pay (off + k)) := by
  induction n with
  | zero => simp [codeValue]
  | succ n ih =>
    have hlt := codeValue_lt pay off n
    have hor : codeValue pay off (n + 1) = 2 ^ n * (payBit pay (off + n)).toNat + codeValue pay off n := by
      simp only [codeValue]; rw [Nat.mul_comm]; omega
    rw [hor, Nat.testBit_two_pow_mul_add _ hlt]
    split
    · rename_i hk
      rw [ih]
      simp [hk, Nat.lt_succ_of_lt hk]
    · rename_i hk
      by_cases hkn : k = n
      · subst hkn
        cases payBit pay (off + k) <;> simp
      · have : ¬ k < n + 1 := by omega
        have h1 : k - n ≠ 0 := by omega
        obtain ⟨j, hj⟩ : ∃ j, k - n = j + 1 := ⟨k - n - 1, by omega⟩
        cases payBit pay (off + n) <;> simp [this, hj, Nat.testBit_succ]

/-- When the cursor returns a code, and which. -/
theorem readCode_ok {pay : List Byte} {off w c off' : Nat} :
    readCode pay off w = .ok (c, off') ↔
      off + w ≤ 8 * pay.length ∧ c = codeValue pay off w ∧ c ≤ maxCode ∧ off' = off + w := by
  unfold readCode
  split
  · simp; omega
  · split
    · simp; omega
    · simp; omega

/-- How the cursor can fail. -/
theorem readCode_error {pay : List Byte} {off w : Nat} {r : Reject} (h : readCode pay off w = .error r) :
    (r = .shortPayload ∧ 8 * pay.length < off + w) ∨
      (∃ v, r = .codeTooLarge v ∧ maxCode < v ∧ off + w ≤ 8 * pay.length) := by
  unfold readCode at h
  split at h
  · simp at h; exact .inl ⟨h.symm, by omega⟩
  · split at h
    · simp at h; exact .inr ⟨_, h.symm, by omega, by omega⟩
    · simp at h

/-- The bits of a code are those of its number. -/
theorem codeBits_codeValue (pay : List Byte) (off w : Nat) :
    codeBits w (codeValue pay off w) = (List.range w).map fun k => payBit pay (off + k) := by
  apply List.map_congr_left
  intro k hk
  simp [testBit_codeValue, List.mem_range.mp hk]

/-- Where the bits of a code stand in the payload, that code is what is read there. -/
theorem codeValue_of_bits {pay : List Byte} {off w c : Nat} (hc : c < 2 ^ w)
    (h : codeBits w c = (List.range w).map fun k => payBit pay (off + k)) : codeValue pay off w = c := by
  apply Nat.eq_of_testBit_eq
  intro k
  rw [testBit_codeValue]
  by_cases hk : k < w
  · have := congrArg (fun l => l[k]?) h
    simp only [codeBits, List.getElem?_map, List.getElem?_range hk, Option.map_some, Option.some.injEq] at this
    simp [hk, this]
  · have : c < 2 ^ k := Nat.lt_of_lt_of_le hc (Nat.pow_le_pow_right (by omega) (by omega))
    simp [hk, Nat.testBit_lt_two_pow this]

@[simp] theorem length_codeBits (w c : Nat) : (codeBits w c).length = w := by simp [codeBits]

/-- The class of a code of the main loop, and what the code is then. -/
theorem classify_cases (cc eoi tsize c : Nat) :
    (c = cc ∧ classify cc eoi tsize c = .clear) ∨
    (c ≠ cc ∧ c = eoi ∧ classify cc eoi tsize c = .eoi) ∨
    (c ≠ cc ∧ c ≠ eoi ∧ c < tsize ∧ classify cc eoi tsize c = .known) ∨
    (c ≠ cc ∧ c ≠ eoi ∧ c = tsize ∧ classify cc eoi tsize c = .kwkwk) ∨
    (c ≠ cc ∧ c ≠ eoi ∧ tsize < c ∧ classify cc eoi tsize c = .illegal) := by
  unfold classify
  split
  · exact .inl ⟨‹_›, rfl⟩
  · split
    · exact .inr (.inl ⟨‹_›, ‹_›, rfl⟩)
    · split
      · exact .inr (.inr (.inl ⟨‹_›, ‹_›, ‹_›, rfl⟩))
      · split
        · exact .inr (.inr (.inr (.inl ⟨‹_›, ‹_›, ‹_›, rfl⟩)))
        · exact .inr (.inr (.inr (.inr ⟨‹_›, ‹_›, by omega, rfl⟩)))

/-! ### What each slot of the container decodes, and how much of the stream that takes -/

theorem decodeSig_cases (bs : List Byte) :
    (6 ≤ bs.length ∧
      (decodeSig bs = .ok .hdr87 ∨ decodeSig bs = .ok .hdr89 ∨ decodeSig bs = .error .badSignature)) ∨
    (bs.length < 6 ∧ decodeSig bs = .error (.short 0)) := by
  match bs with
  | [] | [_] | [_, _] | [_, _, _] | [_, _, _, _] | [_, _, _, _, _] => exact .inr ⟨by simp, rfl⟩
  | b0 :: b1 :: b2 :: b3 :: b4 :: b5 :: rest =>
    refine .inl ⟨by simp, ?_⟩
    simp only [decodeSig]
    split
    · exact .inl rfl
    · split
      · exact .inr (.inl rfl)
      · exact .inr (.inr rfl)

theorem decodeLsd_cases (bs : List Byte) :
    (7 ≤ bs.length ∧ ∃ w h packed bg aspect, decodeLsd bs = .ok (.lsd w h packed bg aspect)) ∨
    (bs.length < 7 ∧ decodeLsd bs = .error (.short 0)) := by
  match bs with
  | [] | [_] | [_, _] | [_, _, _] | [_, _, _, _] | [_, _, _, _, _] | [_, _, _, _, _, _] => exact .inr ⟨by simp, rfl⟩
  | b0 :: b1 :: b2 :: b3 :: b4 :: b5 :: b6 :: rest => exact .inl ⟨by simp, _, _, _, _, _, rfl⟩

theorem decodeTable_cases (res : BitVec 3) (bs : List Byte) :
    (∃ cs, cs.length = tableEntries res ∧ 3 * cs.length ≤ bs.length ∧ decodeTable res bs = .ok cs) ∨
    (bs.length < 3 * tableEntries res ∧ decodeTable res bs = .error (.short (3 * (bs.length / 3)))) := by
  unfold decodeTable
  cases h : takeTriples (tableEntries res) bs with
  | some cs =>
    obtain ⟨hl, hp⟩ := takeTriples_some h
    have := hp.length_le
    rw [length_encodeTable] at this
    exact .inl ⟨cs, hl, this, rfl⟩
  | none => exact .inr ⟨(takeTriples_none _ _).mp h, rfl⟩

theorem decodeIntro_cases (bs : List Byte) :
    (1 ≤ bs.length ∧ (decodeIntro bs = .ok .ext ∨ decodeIntro bs = .ok .img ∨ decodeIntro bs = .ok .trl ∨
      ∃ b, decodeIntro bs = .error (.badIntroducer b))) ∨
    (bs = [] ∧ decodeIntro bs = .error .endOfStream) := by
  match bs with
  | [] => exact .inr ⟨rfl, rfl⟩
  | b :: rest =>
    refine .inl ⟨by simp, ?_⟩
    simp only [decodeIntro]
    split
    · exact .inl rfl
    · split
      · exact .inr (.inl rfl)
      · split
        · exact .inr (.inr (.inl rfl))
        · exact .inr (.inr (.inr ⟨b, rfl⟩))

theorem decodeExtHdr_cases (bs : List Byte) :
    (2 ≤ bs.length ∧ ∃ b0 b1, (decodeExtHdr bs = .ok (.gce b0) ∨ decodeExtHdr bs = .ok (.pte b0) ∨
      decodeExtHdr bs = .ok (.app b0) ∨ decodeExtHdr bs = .ok (.cmt b0 b1))) ∨
    (bs.length < 2 ∧ decodeExtHdr bs = .error (.short 0)) := by
  match bs with
  | [] | [_] => exact .inr ⟨by simp, rfl⟩
  | b0 :: b1 :: rest =>
    refine .inl ⟨by simp, b0, b1, ?_⟩
    simp only [decodeExtHdr]
    split
    · exact .inl rfl
    · split
      · exact .inr (.inl rfl)
      · split
        · exact .inr (.inr (.inl rfl))
        · exact .inr (.inr (.inr rfl))

theorem decodeGceBody_cases (bs : List Byte) :
    (6 ≤ bs.length ∧ ∃ b0 f d x t, decodeGceBody bs = .ok (.gceBody b0 f d x t)) ∨
    (bs.length = 5 ∧ ∃ d, decodeGceBody bs = .error (.shortTerminator d)) ∨
    (1 ≤ bs.length ∧ bs.length < 5 ∧ decodeGceBody bs = .error (.short 1)) ∨
    (bs = [] ∧ decodeGceBody bs = .error (.short 0)) := by
  match bs with
  | [] => exact .inr (.inr (.inr ⟨rfl, rfl⟩))
  | [_] | [_, _] | [_, _, _] | [_, _, _, _] => exact .inr (.inr (.inl ⟨by simp, by simp, rfl⟩))
  | [_, _, d1, d2, _] => exact .inr (.inl ⟨rfl, _, rfl⟩)
  | b0 :: b1 :: b2 :: b3 :: b4 :: b5 :: rest => exact .inl ⟨by simp, _, _, _, _, _, rfl⟩

theorem decodeImgDesc_cases (bs : List Byte) :
    (10 ≤ bs.length ∧ ∃ b l t w h p, decodeImgDesc bs = .ok (.imgDesc b l t w h p)) ∨
    (bs.length < 10 ∧ decodeImgDesc bs = .error (.short 0)) := by
  match bs with
  | [] | [_] | [_, _] | [_, _, _] | [_, _, _, _] | [_, _, _, _, _] | [_, _, _, _, _, _] | [_, _, _, _, _, _, _] | [_, _, _, _, _, _, _, _] | [_, _, _, _, _, _, _, _, _] =>
    exact .inr ⟨by simp, rfl⟩
  | b0 :: b1 :: b2 :: b3 :: b4 :: b5 :: b6 :: b7 :: b8 :: b9 :: rest => exact .inl ⟨by simp, _, _, _, _, _, _, rfl⟩

theorem decodeIdata_cases (bs : List Byte) :
    (∃ mcs blocks, blocks.all blockOk = true ∧ 1 + chainLength blocks ≤ bs.length ∧
      decodeIdata bs = .ok (.idata mcs blocks)) ∨
    (∃ mcs blocks, 1 + blocksLength blocks = bs.length ∧ decodeIdata bs = .error (.shortIdata mcs blocks none)) ∨
    (∃ mcs blocks len, 1 + blocksLength blocks + 1 ≤ bs.length ∧
      decodeIdata bs = .error (.shortIdata mcs blocks (some len))) ∨
    (bs = [] ∧ decodeIdata bs = .error (.short 0)) := by
  match bs with
  | [] => exact .inr (.inr (.inr ⟨rfl, rfl⟩))
  | mcs :: bs =>
    unfold decodeIdata
    simp only
    cases h : readChain bs.length bs with
    | full blocks =>
      obtain ⟨hok, hp⟩ := readChain_full h
      have := hp.length_le
      rw [length_encodeChain] at this
      exact .inl ⟨mcs, blocks, hok, by simp only [List.length_cons]; omega, rfl⟩
    | cut blocks len =>
      have hc := (readChain_cut (Nat.le_refl _) h).2
      cases len with
      | none =>
        simp only at hc
        refine .inr (.inl ⟨mcs, blocks, ?_, rfl⟩)
        rw [hc]; simp; omega
      | some l =>
        obtain ⟨-, tail, -, hb⟩ := hc
        refine .inr (.inr (.inl ⟨mcs, blocks, l, ?_, rfl⟩))
        rw [hb]; simp; omega

theorem decodeSubchain_cases (bs : List Byte) :
    (∃ blocks, blocks.all blockOk = true ∧ chainLength blocks ≤ bs.length ∧
      decodeSubchain bs = .ok (.subchain blocks)) ∨
    (∃ blocks, blocksLength blocks = bs.length ∧ decodeSubchain bs = .error (.shortChain blocks none)) ∨
    (∃ blocks len, blocksLength blocks + 1 ≤ bs.length ∧
      decodeSubchain bs = .error (.shortChain blocks (some len))) := by
  unfold decodeSubchain
  cases h : readChain bs.length bs with
  | full blocks =>
    obtain ⟨hok, hp⟩ := readChain_full h
    have := hp.length_le
    rw [length_encodeChain] at this
    exact .inl ⟨blocks, hok, this, rfl⟩
  | cut blocks len =>
    have hc := (readChain_cut (Nat.le_refl _) h).2
    cases len with
    | none =>
      simp only at hc
      refine .inr (.inl ⟨blocks, ?_, rfl⟩)
      rw [hc]; simp
    | some l =>
      obtain ⟨-, tail, -, hb⟩ := hc
      refine .inr (.inr ⟨blocks, l, ?_, rfl⟩)
      rw [hb]; simp

theorem decodeTrl_cases (bs : List Byte) :
    (1 ≤ bs.length ∧ ∃ b, decodeTrl bs = .ok (.trlByte b)) ∨ (bs = [] ∧ decodeTrl bs = .error (.short 0)) := by
  match bs with
  | [] => exact .inr ⟨rfl, rfl⟩
  | b :: rest => exact .inl ⟨by simp, b, rfl⟩

end Sys2Proof
end

