-- ==== Sys2Proof/Laws/Memory.lean ====
section
/-! SUPPORT. The laws of the bound stream as memory: reading after writing, and that every operation keeps the canonical form. -/

namespace Sys2Proof.Machine

/-! ### The canonical form -/

@[simp] theorem Memory.wf_nil : Memory.wf [] = true := rfl

/-- The form, one cell at a time: the cell holds something, it lies below every later one, and the later ones are in form. -/
theorem Memory.wf_cons (a : Nat) (v : Byte) (m : Memory) :
    Memory.wf ((a, v) :: m) = true ↔ v ≠ 0 ∧ (∀ c ∈ m, a < c.1) ∧ Memory.wf m = true := by
  induction m generalizing a v with
  | nil => simp [Memory.wf]
  | cons d m ih =>
    obtain ⟨b, u⟩ := d
    have step : Memory.wf ((a, v) :: (b, u) :: m) = true ↔ (v ≠ 0 ∧ a < b) ∧ Memory.wf ((b, u) :: m) = true := by
      simp [Memory.wf]
    rw [step]
    constructor
    · rintro ⟨⟨hv, hab⟩, hwf⟩
      refine ⟨hv, ?_, hwf⟩
      intro c hc
      rcases List.mem_cons.mp hc with rfl | hc
      · exact hab
      · exact Nat.lt_trans hab (((ih b u).mp hwf).2.1 c hc)
    · rintro ⟨hv, hall, hwf⟩
      exact ⟨⟨hv, hall (b, u) (List.mem_cons_self ..)⟩, hwf⟩

/-- The form of a memory follows from that of any list of which it is a sublist. -/
theorem Memory.wf_sublist {m n : Memory} (h : List.Sublist m n) (hn : Memory.wf n = true) : Memory.wf m = true := by
  induction h with
  | slnil => rfl
  | @cons l₁ l₂ a _ ih => obtain ⟨a, v⟩ := a; exact ih ((Memory.wf_cons a v l₂).mp hn).2.2
  | @cons_cons l₁ l₂ a hs ih =>
    obtain ⟨a, v⟩ := a
    obtain ⟨hv, hall, hwf⟩ := (Memory.wf_cons a v l₂).mp hn
    exact (Memory.wf_cons a v l₁).mpr ⟨hv, fun c hc => hall c (hs.subset hc), ih hwf⟩

/-! ### Reading -/

@[simp] theorem Memory.read_nil (a : Nat) : Memory.read [] a = 0 := rfl

theorem Memory.read_cons (k : Nat) (v : Byte) (m : Memory) (a : Nat) :
    Memory.read ((k, v) :: m) a = if k = a then v else Memory.read m a := rfl

/-- An offset that no cell has reads as 0. -/
theorem Memory.read_of_absent (m : Memory) (a : Nat) (h : ∀ c ∈ m, c.1 ≠ a) : Memory.read m a = 0 := by
  induction m with
  | nil => rfl
  | cons d m ih =>
    obtain ⟨k, v⟩ := d
    rw [Memory.read_cons, if_neg (h (k, v) (List.mem_cons_self ..))]
    exact ih fun c hc => h c (List.mem_cons_of_mem _ hc)

/-- A cell of a memory in form is what its offset reads as. -/
theorem Memory.read_of_mem (m : Memory) (hm : Memory.wf m = true) (c : Host.Cell) (hc : c ∈ m) :
    Memory.read m c.1 = c.2 := by
  induction m with
  | nil => simp at hc
  | cons d m ih =>
    obtain ⟨k, v⟩ := d
    obtain ⟨-, hall, hwf⟩ := (Memory.wf_cons k v m).mp hm
    rcases List.mem_cons.mp hc with rfl | hc
    · simp [Memory.read_cons]
    · rw [Memory.read_cons, if_neg (Nat.ne_of_lt (hall c hc))]
      exact ih hwf hc

/-- A run of bytes is the bytes at its offsets. -/
@[simp] theorem Memory.length_bytes (m : Memory) (a n : Nat) : (Memory.bytes m a n).length = n := by
  induction n generalizing a with
  | zero => rfl
  | succ n ih => simp [Memory.bytes, ih]

theorem Memory.getElem?_bytes (m : Memory) (a n k : Nat) (h : k < n) :
    (Memory.bytes m a n)[k]? = some (Memory.read m (a + k)) := by
  induction n generalizing a k with
  | zero => omega
  | succ n ih =>
    cases k with
    | zero => simp [Memory.bytes]
    | succ k =>
      simp only [Memory.bytes, List.getElem?_cons_succ]
      rw [ih (a + 1) k (by omega)]
      congr 2; omega

/-- Two runs of one length are equal where every offset reads alike. -/
theorem Memory.bytes_congr (m n : Memory) (a b len : Nat)
    (h : ∀ k, k < len → Memory.read m (a + k) = Memory.read n (b + k)) :
    Memory.bytes m a len = Memory.bytes n b len := by
  apply List.ext_getElem?
  intro k
  by_cases hk : k < len
  · rw [Memory.getElem?_bytes _ _ _ _ hk, Memory.getElem?_bytes _ _ _ _ hk, h k hk]
  · rw [List.getElem?_eq_none (by simp; omega), List.getElem?_eq_none (by simp; omega)]

theorem Memory.bytes_add (m : Memory) (a j k : Nat) :
    Memory.bytes m a (j + k) = Memory.bytes m a j ++ Memory.bytes m (a + j) k := by
  induction j generalizing a with
  | zero => simp [Memory.bytes]
  | succ j ih =>
    have : j + 1 + k = (j + k) + 1 := by omega
    rw [this]
    simp only [Memory.bytes, List.cons_append, ih]
    congr 3; omega

/-! ### Writing -/

/-- A cell of a written memory is a cell there was, or the one that was written. -/
theorem Memory.mem_write (m : Memory) (a : Nat) (v : Byte) (c : Host.Cell) (h : c ∈ Memory.write m a v) :
    c ∈ m ∨ (c = (a, v) ∧ v ≠ 0) := by
  induction m with
  | nil =>
    simp only [Memory.write] at h
    split at h <;> simp_all
  | cons d m ih =>
    obtain ⟨k, u⟩ := d
    simp only [Memory.write] at h
    split at h
    · split at h <;> simp_all <;> tauto
    · split at h
      · split at h <;> simp_all <;> tauto
      · rcases List.mem_cons.mp h with rfl | h
        · exact .inl (List.mem_cons_self ..)
        · rcases ih h with h | h
          · exact .inl (List.mem_cons_of_mem _ h)
          · exact .inr h

/-- A write keeps the canonical form. -/
theorem Memory.wf_write (m : Memory) (a : Nat) (v : Byte) (hm : Memory.wf m = true) :
    Memory.wf (Memory.write m a v) = true := by
  induction m with
  | nil =>
    simp only [Memory.write]
    split
    · rfl
    · rename_i hv; exact (Memory.wf_cons ..).mpr ⟨hv, by simp, rfl⟩
  | cons d m ih =>
    obtain ⟨k, u⟩ := d
    obtain ⟨hu, hall, hwf⟩ := (Memory.wf_cons k u m).mp hm
    simp only [Memory.write]
    split
    · rename_i hak
      split
      · exact hm
      · rename_i hv
        refine (Memory.wf_cons ..).mpr ⟨hv, ?_, hm⟩
        intro c hc
        rcases List.mem_cons.mp hc with rfl | hc
        · exact hak
        · exact Nat.lt_trans hak (hall c hc)
    · split
      · rename_i h
        subst h
        split
        · exact hwf
        · rename_i hv; exact (Memory.wf_cons ..).mpr ⟨hv, hall, hwf⟩
      · refine (Memory.wf_cons ..).mpr ⟨hu, ?_, ih hwf⟩
        intro c hc
        rcases Memory.mem_write m a v c hc with hc | ⟨rfl, -⟩
        · exact hall c hc
        · show k < a; omega

/-- A read after a write to the same offset gives the byte written. -/
theorem Memory.read_write_same (m : Memory) (a : Nat) (v : Byte) (hm : Memory.wf m = true) :
    Memory.read (Memory.write m a v) a = v := by
  induction m with
  | nil =>
    simp only [Memory.write]
    split
    · rename_i hv; simp [hv]
    · simp [Memory.read_cons]
  | cons d m ih =>
    obtain ⟨k, u⟩ := d
    obtain ⟨-, hall, hwf⟩ := (Memory.wf_cons k u m).mp hm
    simp only [Memory.write]
    split
    · rename_i hak
      split
      · rename_i hv
        rw [hv]
        apply Memory.read_of_absent
        intro c hc
        rcases List.mem_cons.mp hc with rfl | hc
        · exact Nat.ne_of_gt hak
        · exact Nat.ne_of_gt (Nat.lt_trans hak (hall c hc))
      · simp [Memory.read_cons]
    · split
      · rename_i h
        subst h
        split
        · rename_i hv
          rw [hv]
          exact Memory.read_of_absent m a fun c hc => Nat.ne_of_gt (hall c hc)
        · simp [Memory.read_cons]
      · rename_i h1 h2
        rw [Memory.read_cons, if_neg (Ne.symm h2)]
        exact ih hwf

/-- A write leaves every other offset alone. -/
theorem Memory.read_write_other (m : Memory) (a b : Nat) (v : Byte) (h : b ≠ a) :
    Memory.read (Memory.write m a v) b = Memory.read m b := by
  induction m with
  | nil =>
    simp only [Memory.write]
    split
    · rfl
    · simp [Memory.read_cons, Ne.symm h]
  | cons d m ih =>
    obtain ⟨k, u⟩ := d
    simp only [Memory.write]
    split
    · split
      · rfl
      · simp [Memory.read_cons, Ne.symm h]
    · split
      · rename_i hak
        subst hak
        split <;> simp [Memory.read_cons, Ne.symm h]
      · simp only [Memory.read_cons, ih]

/-- A run of writes keeps the canonical form. -/
theorem Memory.wf_writeAll (m : Memory) (a : Nat) (bs : List Byte) (hm : Memory.wf m = true) :
    Memory.wf (Memory.writeAll m a bs) = true := by
  induction bs generalizing m a with
  | nil => exact hm
  | cons b bs ih => exact ih _ _ (Memory.wf_write m a b hm)

/-- What a run of writes leaves outside itself. -/
theorem Memory.read_writeAll_other (m : Memory) (a : Nat) (bs : List Byte) (x : Nat)
    (h : x < a ∨ a + bs.length ≤ x) : Memory.read (Memory.writeAll m a bs) x = Memory.read m x := by
  induction bs generalizing m a with
  | nil => rfl
  | cons b bs ih =>
    simp only [List.length_cons] at h
    rw [Memory.writeAll, ih _ _ (by omega), Memory.read_write_other _ _ _ _ (by omega)]

/-- What a run of writes leaves at its own offsets. -/
theorem Memory.read_writeAll (m : Memory) (a : Nat) (bs : List Byte) (k : Nat) (hm : Memory.wf m = true)
    (hk : k < bs.length) : Memory.read (Memory.writeAll m a bs) (a + k) = bs.getD k 0 := by
  induction bs generalizing m a k with
  | nil => simp at hk
  | cons b bs ih =>
    cases k with
    | zero =>
      rw [Memory.writeAll, Memory.read_writeAll_other _ _ _ _ (by omega)]
      simpa using Memory.read_write_same m a b hm
    | succ k =>
      have := ih _ (a + 1) k (Memory.wf_write m a b hm) (by simpa using hk)
      rw [Memory.writeAll]
      simpa [Nat.add_assoc, Nat.add_comm 1 k] using this

/-- Cells picked by their offset keep the canonical form. -/
theorem Memory.wf_filter (m : Memory) (p : Host.Cell → Bool) (hm : Memory.wf m = true) :
    Memory.wf (m.filter p) = true := Memory.wf_sublist List.filter_sublist hm

/-! ### Placing a byte sequence -/

theorem Memory.ofBytes_inside (a : Nat) (bs : List Byte) :
    ∀ c ∈ Memory.ofBytes a bs, a ≤ c.1 ∧ c.1 < a + bs.length := by
  induction bs generalizing a with
  | nil => simp [Memory.ofBytes]
  | cons b bs ih =>
    intro c hc
    simp only [Memory.ofBytes] at hc
    split at hc
    · have := ih (a + 1) c hc
      simp only [List.length_cons]; omega
    · rcases List.mem_cons.mp hc with rfl | hc
      · simp
      · have := ih (a + 1) c hc
        simp only [List.length_cons]; omega

theorem Memory.wf_ofBytes (a : Nat) (bs : List Byte) : Memory.wf (Memory.ofBytes a bs) = true := by
  induction bs generalizing a with
  | nil => rfl
  | cons b bs ih =>
    simp only [Memory.ofBytes]
    split
    · exact ih _
    · rename_i hb
      refine (Memory.wf_cons ..).mpr ⟨hb, ?_, ih _⟩
      intro c hc
      have := Memory.ofBytes_inside (a + 1) bs c hc
      omega

theorem Memory.read_ofBytes (a : Nat) (bs : List Byte) (k : Nat) (hk : k < bs.length) :
    Memory.read (Memory.ofBytes a bs) (a + k) = bs.getD k 0 := by
  induction bs generalizing a k with
  | nil => simp at hk
  | cons b bs ih =>
    cases k with
    | zero =>
      simp only [Memory.ofBytes, Nat.add_zero, List.getD_cons_zero]
      split
      · rename_i hb
        rw [hb]
        apply Memory.read_of_absent
        intro c hc
        have := Memory.ofBytes_inside (a + 1) bs c hc
        omega
      · simp [Memory.read_cons]
    | succ k =>
      have := ih (a + 1) k (by simpa using hk)
      simp only [Memory.ofBytes, List.getD_cons_succ]
      rw [← this]
      split
      · congr 1; omega
      · rw [Memory.read_cons, if_neg (by omega)]
        congr 1; omega

/-- The bytes of a placed sequence are that sequence. -/
theorem Memory.bytes_ofBytes (bs : List Byte) : Memory.bytes (Memory.ofBytes 0 bs) 0 bs.length = bs := by
  apply List.ext_getElem?
  intro k
  by_cases hk : k < bs.length
  · have := Memory.read_ofBytes 0 bs k hk
    rw [Memory.getElem?_bytes _ _ _ _ hk, this, List.getD_eq_getElem?_getD, List.getElem?_eq_getElem hk]
    rfl
  · rw [List.getElem?_eq_none (by simpa using hk), List.getElem?_eq_none (by simpa using hk)]

end Sys2Proof.Machine
end

