-- ==== Sys2Proof/Laws/State.lean ====
section
/-! SUPPORT. One lemma for each field of State after each named update, so that no proof unfolds an update to read a field. -/

namespace Sys2Proof.Machine


/-! ### advance -/

@[simp] theorem State.advance_state (s : State) (n : Nat) : (s.advance n).state = s.state := rfl
@[simp] theorem State.advance_pos (s : State) (n : Nat) : (s.advance n).pos = s.pos + n := rfl
@[simp] theorem State.advance_scrW (s : State) (n : Nat) : (s.advance n).scrW = s.scrW := rfl
@[simp] theorem State.advance_scrH (s : State) (n : Nat) : (s.advance n).scrH = s.scrH := rfl
@[simp] theorem State.advance_gctPresent (s : State) (n : Nat) : (s.advance n).gctPresent = s.gctPresent := rfl
@[simp] theorem State.advance_gctRes (s : State) (n : Nat) : (s.advance n).gctRes = s.gctRes := rfl
@[simp] theorem State.advance_gct (s : State) (n : Nat) : (s.advance n).gct = s.gct := rfl
@[simp] theorem State.advance_pendDelay (s : State) (n : Nat) : (s.advance n).pendDelay = s.pendDelay := rfl
@[simp] theorem State.advance_pendLct (s : State) (n : Nat) : (s.advance n).pendLct = s.pendLct := rfl
@[simp] theorem State.advance_frames (s : State) (n : Nat) : (s.advance n).frames = s.frames := rfl
@[simp] theorem State.advance_status (s : State) (n : Nat) : (s.advance n).status = s.status := rfl
@[simp] theorem State.advance_cause (s : State) (n : Nat) : (s.advance n).cause = s.cause := rfl
@[simp] theorem State.advance_fstate (s : State) (n : Nat) : (s.advance n).fstate = s.fstate := rfl
@[simp] theorem State.advance_fpos (s : State) (n : Nat) : (s.advance n).fpos = s.fpos := rfl
@[simp] theorem State.advance_finfo (s : State) (n : Nat) : (s.advance n).finfo = s.finfo := rfl
@[simp] theorem State.advance_fval (s : State) (n : Nat) : (s.advance n).fval = s.fval := rfl
@[simp] theorem State.advance_mcs (s : State) (n : Nat) : (s.advance n).mcs = s.mcs := rfl
@[simp] theorem State.advance_pay (s : State) (n : Nat) : (s.advance n).pay = s.pay := rfl
@[simp] theorem State.advance_w (s : State) (n : Nat) : (s.advance n).w = s.w := rfl
@[simp] theorem State.advance_cc (s : State) (n : Nat) : (s.advance n).cc = s.cc := rfl
@[simp] theorem State.advance_eoi (s : State) (n : Nat) : (s.advance n).eoi = s.eoi := rfl
@[simp] theorem State.advance_prev (s : State) (n : Nat) : (s.advance n).prev = s.prev := rfl
@[simp] theorem State.advance_dict (s : State) (n : Nat) : (s.advance n).dict = s.dict := rfl
@[simp] theorem State.advance_bitOff (s : State) (n : Nat) : (s.advance n).bitOff = s.bitOff := rfl
@[simp] theorem State.advance_out (s : State) (n : Nat) : (s.advance n).out = s.out := rfl
@[simp] theorem State.advance_eoiSeen (s : State) (n : Nat) : (s.advance n).eoiSeen = s.eoiSeen := rfl
@[simp] theorem State.advance_lzwPos (s : State) (n : Nat) : (s.advance n).lzwPos = s.lzwPos := rfl
@[simp] theorem State.advance_mem (s : State) (n : Nat) : (s.advance n).mem = s.mem := rfl
@[simp] theorem State.advance_inLen (s : State) (n : Nat) : (s.advance n).inLen = s.inLen := rfl
@[simp] theorem State.advance_cfg (s : State) (n : Nat) : (s.advance n).cfg = s.cfg := rfl

/-! ### goto -/

@[simp] theorem State.goto_state (s : State) (p : ParserState) : (s.goto p).state = p := rfl
@[simp] theorem State.goto_pos (s : State) (p : ParserState) : (s.goto p).pos = s.pos := rfl
@[simp] theorem State.goto_scrW (s : State) (p : ParserState) : (s.goto p).scrW = s.scrW := rfl
@[simp] theorem State.goto_scrH (s : State) (p : ParserState) : (s.goto p).scrH = s.scrH := rfl
@[simp] theorem State.goto_gctPresent (s : State) (p : ParserState) : (s.goto p).gctPresent = s.gctPresent := rfl
@[simp] theorem State.goto_gctRes (s : State) (p : ParserState) : (s.goto p).gctRes = s.gctRes := rfl
@[simp] theorem State.goto_gct (s : State) (p : ParserState) : (s.goto p).gct = s.gct := rfl
@[simp] theorem State.goto_pendDelay (s : State) (p : ParserState) : (s.goto p).pendDelay = s.pendDelay := rfl
@[simp] theorem State.goto_pendLct (s : State) (p : ParserState) : (s.goto p).pendLct = s.pendLct := rfl
@[simp] theorem State.goto_frames (s : State) (p : ParserState) : (s.goto p).frames = s.frames := rfl
@[simp] theorem State.goto_status (s : State) (p : ParserState) : (s.goto p).status = s.status := rfl
@[simp] theorem State.goto_cause (s : State) (p : ParserState) : (s.goto p).cause = s.cause := rfl
@[simp] theorem State.goto_fstate (s : State) (p : ParserState) : (s.goto p).fstate = s.fstate := rfl
@[simp] theorem State.goto_fpos (s : State) (p : ParserState) : (s.goto p).fpos = s.fpos := rfl
@[simp] theorem State.goto_finfo (s : State) (p : ParserState) : (s.goto p).finfo = s.finfo := rfl
@[simp] theorem State.goto_fval (s : State) (p : ParserState) : (s.goto p).fval = s.fval := rfl
@[simp] theorem State.goto_mcs (s : State) (p : ParserState) : (s.goto p).mcs = s.mcs := rfl
@[simp] theorem State.goto_pay (s : State) (p : ParserState) : (s.goto p).pay = s.pay := rfl
@[simp] theorem State.goto_w (s : State) (p : ParserState) : (s.goto p).w = s.w := rfl
@[simp] theorem State.goto_cc (s : State) (p : ParserState) : (s.goto p).cc = s.cc := rfl
@[simp] theorem State.goto_eoi (s : State) (p : ParserState) : (s.goto p).eoi = s.eoi := rfl
@[simp] theorem State.goto_prev (s : State) (p : ParserState) : (s.goto p).prev = s.prev := rfl
@[simp] theorem State.goto_dict (s : State) (p : ParserState) : (s.goto p).dict = s.dict := rfl
@[simp] theorem State.goto_bitOff (s : State) (p : ParserState) : (s.goto p).bitOff = s.bitOff := rfl
@[simp] theorem State.goto_out (s : State) (p : ParserState) : (s.goto p).out = s.out := rfl
@[simp] theorem State.goto_eoiSeen (s : State) (p : ParserState) : (s.goto p).eoiSeen = s.eoiSeen := rfl
@[simp] theorem State.goto_lzwPos (s : State) (p : ParserState) : (s.goto p).lzwPos = s.lzwPos := rfl
@[simp] theorem State.goto_mem (s : State) (p : ParserState) : (s.goto p).mem = s.mem := rfl
@[simp] theorem State.goto_inLen (s : State) (p : ParserState) : (s.goto p).inLen = s.inLen := rfl
@[simp] theorem State.goto_cfg (s : State) (p : ParserState) : (s.goto p).cfg = s.cfg := rfl

/-! ### warn -/

@[simp] theorem State.warn_state (s : State) (f : StatusFlag) : (s.warn f).state = s.state := rfl
@[simp] theorem State.warn_pos (s : State) (f : StatusFlag) : (s.warn f).pos = s.pos := rfl
@[simp] theorem State.warn_scrW (s : State) (f : StatusFlag) : (s.warn f).scrW = s.scrW := rfl
@[simp] theorem State.warn_scrH (s : State) (f : StatusFlag) : (s.warn f).scrH = s.scrH := rfl
@[simp] theorem State.warn_gctPresent (s : State) (f : StatusFlag) : (s.warn f).gctPresent = s.gctPresent := rfl
@[simp] theorem State.warn_gctRes (s : State) (f : StatusFlag) : (s.warn f).gctRes = s.gctRes := rfl
@[simp] theorem State.warn_gct (s : State) (f : StatusFlag) : (s.warn f).gct = s.gct := rfl
@[simp] theorem State.warn_pendDelay (s : State) (f : StatusFlag) : (s.warn f).pendDelay = s.pendDelay := rfl
@[simp] theorem State.warn_pendLct (s : State) (f : StatusFlag) : (s.warn f).pendLct = s.pendLct := rfl
@[simp] theorem State.warn_frames (s : State) (f : StatusFlag) : (s.warn f).frames = s.frames := rfl
@[simp] theorem State.warn_status (s : State) (f : StatusFlag) : (s.warn f).status = s.status ||| (1 <<< f.bit) := rfl
@[simp] theorem State.warn_cause (s : State) (f : StatusFlag) : (s.warn f).cause = s.cause := rfl
@[simp] theorem State.warn_fstate (s : State) (f : StatusFlag) : (s.warn f).fstate = s.fstate := rfl
@[simp] theorem State.warn_fpos (s : State) (f : StatusFlag) : (s.warn f).fpos = s.fpos := rfl
@[simp] theorem State.warn_finfo (s : State) (f : StatusFlag) : (s.warn f).finfo = s.finfo := rfl
@[simp] theorem State.warn_fval (s : State) (f : StatusFlag) : (s.warn f).fval = s.fval := rfl
@[simp] theorem State.warn_mcs (s : State) (f : StatusFlag) : (s.warn f).mcs = s.mcs := rfl
@[simp] theorem State.warn_pay (s : State) (f : StatusFlag) : (s.warn f).pay = s.pay := rfl
@[simp] theorem State.warn_w (s : State) (f : StatusFlag) : (s.warn f).w = s.w := rfl
@[simp] theorem State.warn_cc (s : State) (f : StatusFlag) : (s.warn f).cc = s.cc := rfl
@[simp] theorem State.warn_eoi (s : State) (f : StatusFlag) : (s.warn f).eoi = s.eoi := rfl
@[simp] theorem State.warn_prev (s : State) (f : StatusFlag) : (s.warn f).prev = s.prev := rfl
@[simp] theorem State.warn_dict (s : State) (f : StatusFlag) : (s.warn f).dict = s.dict := rfl
@[simp] theorem State.warn_bitOff (s : State) (f : StatusFlag) : (s.warn f).bitOff = s.bitOff := rfl
@[simp] theorem State.warn_out (s : State) (f : StatusFlag) : (s.warn f).out = s.out := rfl
@[simp] theorem State.warn_eoiSeen (s : State) (f : StatusFlag) : (s.warn f).eoiSeen = s.eoiSeen := rfl
@[simp] theorem State.warn_lzwPos (s : State) (f : StatusFlag) : (s.warn f).lzwPos = s.lzwPos := rfl
@[simp] theorem State.warn_mem (s : State) (f : StatusFlag) : (s.warn f).mem = s.mem := rfl
@[simp] theorem State.warn_inLen (s : State) (f : StatusFlag) : (s.warn f).inLen = s.inLen := rfl
@[simp] theorem State.warn_cfg (s : State) (f : StatusFlag) : (s.warn f).cfg = s.cfg := rfl

/-! ### warnIf -/

@[simp] theorem State.warnIf_state (s : State) (c : Bool) (f : StatusFlag) : (s.warnIf c f).state = s.state := by
  cases c <;> rfl
@[simp] theorem State.warnIf_pos (s : State) (c : Bool) (f : StatusFlag) : (s.warnIf c f).pos = s.pos := by
  cases c <;> rfl
@[simp] theorem State.warnIf_scrW (s : State) (c : Bool) (f : StatusFlag) : (s.warnIf c f).scrW = s.scrW := by
  cases c <;> rfl
@[simp] theorem State.warnIf_scrH (s : State) (c : Bool) (f : StatusFlag) : (s.warnIf c f).scrH = s.scrH := by
  cases c <;> rfl
@[simp] theorem State.warnIf_gctPresent (s : State) (c : Bool) (f : StatusFlag) : (s.warnIf c f).gctPresent = s.gctPresent := by
  cases c <;> rfl
@[simp] theorem State.warnIf_gctRes (s : State) (c : Bool) (f : StatusFlag) : (s.warnIf c f).gctRes = s.gctRes := by
  cases c <;> rfl
@[simp] theorem State.warnIf_gct (s : State) (c : Bool) (f : StatusFlag) : (s.warnIf c f).gct = s.gct := by
  cases c <;> rfl
@[simp] theorem State.warnIf_pendDelay (s : State) (c : Bool) (f : StatusFlag) : (s.warnIf c f).pendDelay = s.pendDelay := by
  cases c <;> rfl
@[simp] theorem State.warnIf_pendLct (s : State) (c : Bool) (f : StatusFlag) : (s.warnIf c f).pendLct = s.pendLct := by
  cases c <;> rfl
@[simp] theorem State.warnIf_frames (s : State) (c : Bool) (f : StatusFlag) : (s.warnIf c f).frames = s.frames := by
  cases c <;> rfl
@[simp] theorem State.warnIf_status (s : State) (c : Bool) (f : StatusFlag) : (s.warnIf c f).status = if c then s.status ||| (1 <<< f.bit) else s.status := by
  cases c <;> rfl
@[simp] theorem State.warnIf_cause (s : State) (c : Bool) (f : StatusFlag) : (s.warnIf c f).cause = s.cause := by
  cases c <;> rfl
@[simp] theorem State.warnIf_fstate (s : State) (c : Bool) (f : StatusFlag) : (s.warnIf c f).fstate = s.fstate := by
  cases c <;> rfl
@[simp] theorem State.warnIf_fpos (s : State) (c : Bool) (f : StatusFlag) : (s.warnIf c f).fpos = s.fpos := by
  cases c <;> rfl
@[simp] theorem State.warnIf_finfo (s : State) (c : Bool) (f : StatusFlag) : (s.warnIf c f).finfo = s.finfo := by
  cases c <;> rfl
@[simp] theorem State.warnIf_fval (s : State) (c : Bool) (f : StatusFlag) : (s.warnIf c f).fval = s.fval := by
  cases c <;> rfl
@[simp] theorem State.warnIf_mcs (s : State) (c : Bool) (f : StatusFlag) : (s.warnIf c f).mcs = s.mcs := by
  cases c <;> rfl
@[simp] theorem State.warnIf_pay (s : State) (c : Bool) (f : StatusFlag) : (s.warnIf c f).pay = s.pay := by
  cases c <;> rfl
@[simp] theorem State.warnIf_w (s : State) (c : Bool) (f : StatusFlag) : (s.warnIf c f).w = s.w := by
  cases c <;> rfl
@[simp] theorem State.warnIf_cc (s : State) (c : Bool) (f : StatusFlag) : (s.warnIf c f).cc = s.cc := by
  cases c <;> rfl
@[simp] theorem State.warnIf_eoi (s : State) (c : Bool) (f : StatusFlag) : (s.warnIf c f).eoi = s.eoi := by
  cases c <;> rfl
@[simp] theorem State.warnIf_prev (s : State) (c : Bool) (f : StatusFlag) : (s.warnIf c f).prev = s.prev := by
  cases c <;> rfl
@[simp] theorem State.warnIf_dict (s : State) (c : Bool) (f : StatusFlag) : (s.warnIf c f).dict = s.dict := by
  cases c <;> rfl
@[simp] theorem State.warnIf_bitOff (s : State) (c : Bool) (f : StatusFlag) : (s.warnIf c f).bitOff = s.bitOff := by
  cases c <;> rfl
@[simp] theorem State.warnIf_out (s : State) (c : Bool) (f : StatusFlag) : (s.warnIf c f).out = s.out := by
  cases c <;> rfl
@[simp] theorem State.warnIf_eoiSeen (s : State) (c : Bool) (f : StatusFlag) : (s.warnIf c f).eoiSeen = s.eoiSeen := by
  cases c <;> rfl
@[simp] theorem State.warnIf_lzwPos (s : State) (c : Bool) (f : StatusFlag) : (s.warnIf c f).lzwPos = s.lzwPos := by
  cases c <;> rfl
@[simp] theorem State.warnIf_mem (s : State) (c : Bool) (f : StatusFlag) : (s.warnIf c f).mem = s.mem := by
  cases c <;> rfl
@[simp] theorem State.warnIf_inLen (s : State) (c : Bool) (f : StatusFlag) : (s.warnIf c f).inLen = s.inLen := by
  cases c <;> rfl
@[simp] theorem State.warnIf_cfg (s : State) (c : Bool) (f : StatusFlag) : (s.warnIf c f).cfg = s.cfg := by
  cases c <;> rfl

/-! ### raise -/

@[simp] theorem State.raise_state (s : State) (c : Cause) (sub : BitVec 4) (v : Nat) : (s.raise c sub v).state = .fault := rfl
@[simp] theorem State.raise_pos (s : State) (c : Cause) (sub : BitVec 4) (v : Nat) : (s.raise c sub v).pos = s.pos := rfl
@[simp] theorem State.raise_scrW (s : State) (c : Cause) (sub : BitVec 4) (v : Nat) : (s.raise c sub v).scrW = s.scrW := rfl
@[simp] theorem State.raise_scrH (s : State) (c : Cause) (sub : BitVec 4) (v : Nat) : (s.raise c sub v).scrH = s.scrH := rfl
@[simp] theorem State.raise_gctPresent (s : State) (c : Cause) (sub : BitVec 4) (v : Nat) : (s.raise c sub v).gctPresent = s.gctPresent := rfl
@[simp] theorem State.raise_gctRes (s : State) (c : Cause) (sub : BitVec 4) (v : Nat) : (s.raise c sub v).gctRes = s.gctRes := rfl
@[simp] theorem State.raise_gct (s : State) (c : Cause) (sub : BitVec 4) (v : Nat) : (s.raise c sub v).gct = s.gct := rfl
@[simp] theorem State.raise_pendDelay (s : State) (c : Cause) (sub : BitVec 4) (v : Nat) : (s.raise c sub v).pendDelay = s.pendDelay := rfl
@[simp] theorem State.raise_pendLct (s : State) (c : Cause) (sub : BitVec 4) (v : Nat) : (s.raise c sub v).pendLct = s.pendLct := rfl
@[simp] theorem State.raise_frames (s : State) (c : Cause) (sub : BitVec 4) (v : Nat) : (s.raise c sub v).frames = s.frames := rfl
@[simp] theorem State.raise_status (s : State) (c : Cause) (sub : BitVec 4) (v : Nat) : (s.raise c sub v).status = s.status := rfl
@[simp] theorem State.raise_cause (s : State) (c : Cause) (sub : BitVec 4) (v : Nat) : (s.raise c sub v).cause = c := rfl
@[simp] theorem State.raise_fstate (s : State) (c : Cause) (sub : BitVec 4) (v : Nat) : (s.raise c sub v).fstate = s.state := rfl
@[simp] theorem State.raise_fpos (s : State) (c : Cause) (sub : BitVec 4) (v : Nat) : (s.raise c sub v).fpos = s.pos := rfl
@[simp] theorem State.raise_finfo (s : State) (c : Cause) (sub : BitVec 4) (v : Nat) : (s.raise c sub v).finfo = sub := rfl
@[simp] theorem State.raise_fval (s : State) (c : Cause) (sub : BitVec 4) (v : Nat) : (s.raise c sub v).fval = BitVec.ofNat 16 v := rfl
@[simp] theorem State.raise_mcs (s : State) (c : Cause) (sub : BitVec 4) (v : Nat) : (s.raise c sub v).mcs = s.mcs := rfl
@[simp] theorem State.raise_pay (s : State) (c : Cause) (sub : BitVec 4) (v : Nat) : (s.raise c sub v).pay = s.pay := rfl
@[simp] theorem State.raise_w (s : State) (c : Cause) (sub : BitVec 4) (v : Nat) : (s.raise c sub v).w = s.w := rfl
@[simp] theorem State.raise_cc (s : State) (c : Cause) (sub : BitVec 4) (v : Nat) : (s.raise c sub v).cc = s.cc := rfl
@[simp] theorem State.raise_eoi (s : State) (c : Cause) (sub : BitVec 4) (v : Nat) : (s.raise c sub v).eoi = s.eoi := rfl
@[simp] theorem State.raise_prev (s : State) (c : Cause) (sub : BitVec 4) (v : Nat) : (s.raise c sub v).prev = s.prev := rfl
@[simp] theorem State.raise_dict (s : State) (c : Cause) (sub : BitVec 4) (v : Nat) : (s.raise c sub v).dict = s.dict := rfl
@[simp] theorem State.raise_bitOff (s : State) (c : Cause) (sub : BitVec 4) (v : Nat) : (s.raise c sub v).bitOff = s.bitOff := rfl
@[simp] theorem State.raise_out (s : State) (c : Cause) (sub : BitVec 4) (v : Nat) : (s.raise c sub v).out = s.out := rfl
@[simp] theorem State.raise_eoiSeen (s : State) (c : Cause) (sub : BitVec 4) (v : Nat) : (s.raise c sub v).eoiSeen = s.eoiSeen := rfl
@[simp] theorem State.raise_lzwPos (s : State) (c : Cause) (sub : BitVec 4) (v : Nat) : (s.raise c sub v).lzwPos = s.lzwPos := rfl
@[simp] theorem State.raise_mem (s : State) (c : Cause) (sub : BitVec 4) (v : Nat) : (s.raise c sub v).mem = s.mem := rfl
@[simp] theorem State.raise_inLen (s : State) (c : Cause) (sub : BitVec 4) (v : Nat) : (s.raise c sub v).inLen = s.inLen := rfl
@[simp] theorem State.raise_cfg (s : State) (c : Cause) (sub : BitVec 4) (v : Nat) : (s.raise c sub v).cfg = s.cfg := rfl

/-! ### advanceBits -/

@[simp] theorem State.advanceBits_state (s : State) (n : Nat) : (s.advanceBits n).state = s.state := rfl
@[simp] theorem State.advanceBits_pos (s : State) (n : Nat) : (s.advanceBits n).pos = s.pos := rfl
@[simp] theorem State.advanceBits_scrW (s : State) (n : Nat) : (s.advanceBits n).scrW = s.scrW := rfl
@[simp] theorem State.advanceBits_scrH (s : State) (n : Nat) : (s.advanceBits n).scrH = s.scrH := rfl
@[simp] theorem State.advanceBits_gctPresent (s : State) (n : Nat) : (s.advanceBits n).gctPresent = s.gctPresent := rfl
@[simp] theorem State.advanceBits_gctRes (s : State) (n : Nat) : (s.advanceBits n).gctRes = s.gctRes := rfl
@[simp] theorem State.advanceBits_gct (s : State) (n : Nat) : (s.advanceBits n).gct = s.gct := rfl
@[simp] theorem State.advanceBits_pendDelay (s : State) (n : Nat) : (s.advanceBits n).pendDelay = s.pendDelay := rfl
@[simp] theorem State.advanceBits_pendLct (s : State) (n : Nat) : (s.advanceBits n).pendLct = s.pendLct := rfl
@[simp] theorem State.advanceBits_frames (s : State) (n : Nat) : (s.advanceBits n).frames = s.frames := rfl
@[simp] theorem State.advanceBits_status (s : State) (n : Nat) : (s.advanceBits n).status = s.status := rfl
@[simp] theorem State.advanceBits_cause (s : State) (n : Nat) : (s.advanceBits n).cause = s.cause := rfl
@[simp] theorem State.advanceBits_fstate (s : State) (n : Nat) : (s.advanceBits n).fstate = s.fstate := rfl
@[simp] theorem State.advanceBits_fpos (s : State) (n : Nat) : (s.advanceBits n).fpos = s.fpos := rfl
@[simp] theorem State.advanceBits_finfo (s : State) (n : Nat) : (s.advanceBits n).finfo = s.finfo := rfl
@[simp] theorem State.advanceBits_fval (s : State) (n : Nat) : (s.advanceBits n).fval = s.fval := rfl
@[simp] theorem State.advanceBits_mcs (s : State) (n : Nat) : (s.advanceBits n).mcs = s.mcs := rfl
@[simp] theorem State.advanceBits_pay (s : State) (n : Nat) : (s.advanceBits n).pay = s.pay := rfl
@[simp] theorem State.advanceBits_w (s : State) (n : Nat) : (s.advanceBits n).w = s.w := rfl
@[simp] theorem State.advanceBits_cc (s : State) (n : Nat) : (s.advanceBits n).cc = s.cc := rfl
@[simp] theorem State.advanceBits_eoi (s : State) (n : Nat) : (s.advanceBits n).eoi = s.eoi := rfl
@[simp] theorem State.advanceBits_prev (s : State) (n : Nat) : (s.advanceBits n).prev = s.prev := rfl
@[simp] theorem State.advanceBits_dict (s : State) (n : Nat) : (s.advanceBits n).dict = s.dict := rfl
@[simp] theorem State.advanceBits_bitOff (s : State) (n : Nat) : (s.advanceBits n).bitOff = s.bitOff + n := rfl
@[simp] theorem State.advanceBits_out (s : State) (n : Nat) : (s.advanceBits n).out = s.out := rfl
@[simp] theorem State.advanceBits_eoiSeen (s : State) (n : Nat) : (s.advanceBits n).eoiSeen = s.eoiSeen := rfl
@[simp] theorem State.advanceBits_lzwPos (s : State) (n : Nat) : (s.advanceBits n).lzwPos = s.lzwPos := rfl
@[simp] theorem State.advanceBits_mem (s : State) (n : Nat) : (s.advanceBits n).mem = s.mem := rfl
@[simp] theorem State.advanceBits_inLen (s : State) (n : Nat) : (s.advanceBits n).inLen = s.inLen := rfl
@[simp] theorem State.advanceBits_cfg (s : State) (n : Nat) : (s.advanceBits n).cfg = s.cfg := rfl

/-! ### dictInit -/

@[simp] theorem State.dictInit_state (s : State) : (s.dictInit).state = s.state := rfl
@[simp] theorem State.dictInit_pos (s : State) : (s.dictInit).pos = s.pos := rfl
@[simp] theorem State.dictInit_scrW (s : State) : (s.dictInit).scrW = s.scrW := rfl
@[simp] theorem State.dictInit_scrH (s : State) : (s.dictInit).scrH = s.scrH := rfl
@[simp] theorem State.dictInit_gctPresent (s : State) : (s.dictInit).gctPresent = s.gctPresent := rfl
@[simp] theorem State.dictInit_gctRes (s : State) : (s.dictInit).gctRes = s.gctRes := rfl
@[simp] theorem State.dictInit_gct (s : State) : (s.dictInit).gct = s.gct := rfl
@[simp] theorem State.dictInit_pendDelay (s : State) : (s.dictInit).pendDelay = s.pendDelay := rfl
@[simp] theorem State.dictInit_pendLct (s : State) : (s.dictInit).pendLct = s.pendLct := rfl
@[simp] theorem State.dictInit_frames (s : State) : (s.dictInit).frames = s.frames := rfl
@[simp] theorem State.dictInit_status (s : State) : (s.dictInit).status = s.status := rfl
@[simp] theorem State.dictInit_cause (s : State) : (s.dictInit).cause = s.cause := rfl
@[simp] theorem State.dictInit_fstate (s : State) : (s.dictInit).fstate = s.fstate := rfl
@[simp] theorem State.dictInit_fpos (s : State) : (s.dictInit).fpos = s.fpos := rfl
@[simp] theorem State.dictInit_finfo (s : State) : (s.dictInit).finfo = s.finfo := rfl
@[simp] theorem State.dictInit_fval (s : State) : (s.dictInit).fval = s.fval := rfl
@[simp] theorem State.dictInit_mcs (s : State) : (s.dictInit).mcs = s.mcs := rfl
@[simp] theorem State.dictInit_pay (s : State) : (s.dictInit).pay = s.pay := rfl
@[simp] theorem State.dictInit_w (s : State) : (s.dictInit).w = s.w := rfl
@[simp] theorem State.dictInit_cc (s : State) : (s.dictInit).cc = s.cc := rfl
@[simp] theorem State.dictInit_eoi (s : State) : (s.dictInit).eoi = s.eoi := rfl
@[simp] theorem State.dictInit_prev (s : State) : (s.dictInit).prev = s.prev := rfl
@[simp] theorem State.dictInit_dict (s : State) : (s.dictInit).dict = (List.range s.cc).map (fun i => [i]) ++ [[], []] := rfl
@[simp] theorem State.dictInit_bitOff (s : State) : (s.dictInit).bitOff = s.bitOff := rfl
@[simp] theorem State.dictInit_out (s : State) : (s.dictInit).out = s.out := rfl
@[simp] theorem State.dictInit_eoiSeen (s : State) : (s.dictInit).eoiSeen = s.eoiSeen := rfl
@[simp] theorem State.dictInit_lzwPos (s : State) : (s.dictInit).lzwPos = s.lzwPos := rfl
@[simp] theorem State.dictInit_mem (s : State) : (s.dictInit).mem = s.mem := rfl
@[simp] theorem State.dictInit_inLen (s : State) : (s.dictInit).inLen = s.inLen := rfl
@[simp] theorem State.dictInit_cfg (s : State) : (s.dictInit).cfg = s.cfg := rfl

/-! ### updateActive -/

@[simp] theorem State.updateActive_state (s : State) (g : Frame → Frame) : (s.updateActive g).state = s.state := rfl
@[simp] theorem State.updateActive_pos (s : State) (g : Frame → Frame) : (s.updateActive g).pos = s.pos := rfl
@[simp] theorem State.updateActive_scrW (s : State) (g : Frame → Frame) : (s.updateActive g).scrW = s.scrW := rfl
@[simp] theorem State.updateActive_scrH (s : State) (g : Frame → Frame) : (s.updateActive g).scrH = s.scrH := rfl
@[simp] theorem State.updateActive_gctPresent (s : State) (g : Frame → Frame) : (s.updateActive g).gctPresent = s.gctPresent := rfl
@[simp] theorem State.updateActive_gctRes (s : State) (g : Frame → Frame) : (s.updateActive g).gctRes = s.gctRes := rfl
@[simp] theorem State.updateActive_gct (s : State) (g : Frame → Frame) : (s.updateActive g).gct = s.gct := rfl
@[simp] theorem State.updateActive_pendDelay (s : State) (g : Frame → Frame) : (s.updateActive g).pendDelay = s.pendDelay := rfl
@[simp] theorem State.updateActive_pendLct (s : State) (g : Frame → Frame) : (s.updateActive g).pendLct = s.pendLct := rfl
@[simp] theorem State.updateActive_frames (s : State) (g : Frame → Frame) : (s.updateActive g).frames = updateLast g s.frames := rfl
@[simp] theorem State.updateActive_status (s : State) (g : Frame → Frame) : (s.updateActive g).status = s.status := rfl
@[simp] theorem State.updateActive_cause (s : State) (g : Frame → Frame) : (s.updateActive g).cause = s.cause := rfl
@[simp] theorem State.updateActive_fstate (s : State) (g : Frame → Frame) : (s.updateActive g).fstate = s.fstate := rfl
@[simp] theorem State.updateActive_fpos (s : State) (g : Frame → Frame) : (s.updateActive g).fpos = s.fpos := rfl
@[simp] theorem State.updateActive_finfo (s : State) (g : Frame → Frame) : (s.updateActive g).finfo = s.finfo := rfl
@[simp] theorem State.updateActive_fval (s : State) (g : Frame → Frame) : (s.updateActive g).fval = s.fval := rfl
@[simp] theorem State.updateActive_mcs (s : State) (g : Frame → Frame) : (s.updateActive g).mcs = s.mcs := rfl
@[simp] theorem State.updateActive_pay (s : State) (g : Frame → Frame) : (s.updateActive g).pay = s.pay := rfl
@[simp] theorem State.updateActive_w (s : State) (g : Frame → Frame) : (s.updateActive g).w = s.w := rfl
@[simp] theorem State.updateActive_cc (s : State) (g : Frame → Frame) : (s.updateActive g).cc = s.cc := rfl
@[simp] theorem State.updateActive_eoi (s : State) (g : Frame → Frame) : (s.updateActive g).eoi = s.eoi := rfl
@[simp] theorem State.updateActive_prev (s : State) (g : Frame → Frame) : (s.updateActive g).prev = s.prev := rfl
@[simp] theorem State.updateActive_dict (s : State) (g : Frame → Frame) : (s.updateActive g).dict = s.dict := rfl
@[simp] theorem State.updateActive_bitOff (s : State) (g : Frame → Frame) : (s.updateActive g).bitOff = s.bitOff := rfl
@[simp] theorem State.updateActive_out (s : State) (g : Frame → Frame) : (s.updateActive g).out = s.out := rfl
@[simp] theorem State.updateActive_eoiSeen (s : State) (g : Frame → Frame) : (s.updateActive g).eoiSeen = s.eoiSeen := rfl
@[simp] theorem State.updateActive_lzwPos (s : State) (g : Frame → Frame) : (s.updateActive g).lzwPos = s.lzwPos := rfl
@[simp] theorem State.updateActive_mem (s : State) (g : Frame → Frame) : (s.updateActive g).mem = s.mem := rfl
@[simp] theorem State.updateActive_inLen (s : State) (g : Frame → Frame) : (s.updateActive g).inLen = s.inLen := rfl
@[simp] theorem State.updateActive_cfg (s : State) (g : Frame → Frame) : (s.updateActive g).cfg = s.cfg := rfl

/-! ### beginPayload -/

@[simp] theorem State.beginPayload_state (s : State) (m : Byte) : (s.beginPayload m).state = s.state := rfl
@[simp] theorem State.beginPayload_pos (s : State) (m : Byte) : (s.beginPayload m).pos = s.pos + 1 := rfl
@[simp] theorem State.beginPayload_scrW (s : State) (m : Byte) : (s.beginPayload m).scrW = s.scrW := rfl
@[simp] theorem State.beginPayload_scrH (s : State) (m : Byte) : (s.beginPayload m).scrH = s.scrH := rfl
@[simp] theorem State.beginPayload_gctPresent (s : State) (m : Byte) : (s.beginPayload m).gctPresent = s.gctPresent := rfl
@[simp] theorem State.beginPayload_gctRes (s : State) (m : Byte) : (s.beginPayload m).gctRes = s.gctRes := rfl
@[simp] theorem State.beginPayload_gct (s : State) (m : Byte) : (s.beginPayload m).gct = s.gct := rfl
@[simp] theorem State.beginPayload_pendDelay (s : State) (m : Byte) : (s.beginPayload m).pendDelay = s.pendDelay := rfl
@[simp] theorem State.beginPayload_pendLct (s : State) (m : Byte) : (s.beginPayload m).pendLct = s.pendLct := rfl
@[simp] theorem State.beginPayload_frames (s : State) (m : Byte) : (s.beginPayload m).frames = s.frames := rfl
@[simp] theorem State.beginPayload_status (s : State) (m : Byte) : (s.beginPayload m).status = s.status := rfl
@[simp] theorem State.beginPayload_cause (s : State) (m : Byte) : (s.beginPayload m).cause = s.cause := rfl
@[simp] theorem State.beginPayload_fstate (s : State) (m : Byte) : (s.beginPayload m).fstate = s.fstate := rfl
@[simp] theorem State.beginPayload_fpos (s : State) (m : Byte) : (s.beginPayload m).fpos = s.fpos := rfl
@[simp] theorem State.beginPayload_finfo (s : State) (m : Byte) : (s.beginPayload m).finfo = s.finfo := rfl
@[simp] theorem State.beginPayload_fval (s : State) (m : Byte) : (s.beginPayload m).fval = s.fval := rfl
@[simp] theorem State.beginPayload_mcs (s : State) (m : Byte) : (s.beginPayload m).mcs = m := rfl
@[simp] theorem State.beginPayload_pay (s : State) (m : Byte) : (s.beginPayload m).pay = [] := rfl
@[simp] theorem State.beginPayload_w (s : State) (m : Byte) : (s.beginPayload m).w = s.w := rfl
@[simp] theorem State.beginPayload_cc (s : State) (m : Byte) : (s.beginPayload m).cc = s.cc := rfl
@[simp] theorem State.beginPayload_eoi (s : State) (m : Byte) : (s.beginPayload m).eoi = s.eoi := rfl
@[simp] theorem State.beginPayload_prev (s : State) (m : Byte) : (s.beginPayload m).prev = s.prev := rfl
@[simp] theorem State.beginPayload_dict (s : State) (m : Byte) : (s.beginPayload m).dict = s.dict := rfl
@[simp] theorem State.beginPayload_bitOff (s : State) (m : Byte) : (s.beginPayload m).bitOff = s.bitOff := rfl
@[simp] theorem State.beginPayload_out (s : State) (m : Byte) : (s.beginPayload m).out = s.out := rfl
@[simp] theorem State.beginPayload_eoiSeen (s : State) (m : Byte) : (s.beginPayload m).eoiSeen = s.eoiSeen := rfl
@[simp] theorem State.beginPayload_lzwPos (s : State) (m : Byte) : (s.beginPayload m).lzwPos = s.lzwPos := rfl
@[simp] theorem State.beginPayload_mem (s : State) (m : Byte) : (s.beginPayload m).mem = s.mem := rfl
@[simp] theorem State.beginPayload_inLen (s : State) (m : Byte) : (s.beginPayload m).inLen = s.inLen := rfl
@[simp] theorem State.beginPayload_cfg (s : State) (m : Byte) : (s.beginPayload m).cfg = s.cfg := rfl

/-! ### grow -/

@[simp] theorem State.grow_state (s : State) : (s.grow).state = s.state := by
  unfold State.grow State.tsize; split <;> rfl
@[simp] theorem State.grow_pos (s : State) : (s.grow).pos = s.pos := by
  unfold State.grow State.tsize; split <;> rfl
@[simp] theorem State.grow_scrW (s : State) : (s.grow).scrW = s.scrW := by
  unfold State.grow State.tsize; split <;> rfl
@[simp] theorem State.grow_scrH (s : State) : (s.grow).scrH = s.scrH := by
  unfold State.grow State.tsize; split <;> rfl
@[simp] theorem State.grow_gctPresent (s : State) : (s.grow).gctPresent = s.gctPresent := by
  unfold State.grow State.tsize; split <;> rfl
@[simp] theorem State.grow_gctRes (s : State) : (s.grow).gctRes = s.gctRes := by
  unfold State.grow State.tsize; split <;> rfl
@[simp] theorem State.grow_gct (s : State) : (s.grow).gct = s.gct := by
  unfold State.grow State.tsize; split <;> rfl
@[simp] theorem State.grow_pendDelay (s : State) : (s.grow).pendDelay = s.pendDelay := by
  unfold State.grow State.tsize; split <;> rfl
@[simp] theorem State.grow_pendLct (s : State) : (s.grow).pendLct = s.pendLct := by
  unfold State.grow State.tsize; split <;> rfl
@[simp] theorem State.grow_frames (s : State) : (s.grow).frames = s.frames := by
  unfold State.grow State.tsize; split <;> rfl
@[simp] theorem State.grow_status (s : State) : (s.grow).status = s.status := by
  unfold State.grow State.tsize; split <;> rfl
@[simp] theorem State.grow_cause (s : State) : (s.grow).cause = s.cause := by
  unfold State.grow State.tsize; split <;> rfl
@[simp] theorem State.grow_fstate (s : State) : (s.grow).fstate = s.fstate := by
  unfold State.grow State.tsize; split <;> rfl
@[simp] theorem State.grow_fpos (s : State) : (s.grow).fpos = s.fpos := by
  unfold State.grow State.tsize; split <;> rfl
@[simp] theorem State.grow_finfo (s : State) : (s.grow).finfo = s.finfo := by
  unfold State.grow State.tsize; split <;> rfl
@[simp] theorem State.grow_fval (s : State) : (s.grow).fval = s.fval := by
  unfold State.grow State.tsize; split <;> rfl
@[simp] theorem State.grow_mcs (s : State) : (s.grow).mcs = s.mcs := by
  unfold State.grow State.tsize; split <;> rfl
@[simp] theorem State.grow_pay (s : State) : (s.grow).pay = s.pay := by
  unfold State.grow State.tsize; split <;> rfl
@[simp] theorem State.grow_w (s : State) : (s.grow).w = if s.dict.length = 2 ^ s.w ∧ s.w < maxWidth then s.w + 1 else s.w := by
  unfold State.grow State.tsize; split <;> rfl
@[simp] theorem State.grow_cc (s : State) : (s.grow).cc = s.cc := by
  unfold State.grow State.tsize; split <;> rfl
@[simp] theorem State.grow_eoi (s : State) : (s.grow).eoi = s.eoi := by
  unfold State.grow State.tsize; split <;> rfl
@[simp] theorem State.grow_prev (s : State) : (s.grow).prev = s.prev := by
  unfold State.grow State.tsize; split <;> rfl
@[simp] theorem State.grow_dict (s : State) : (s.grow).dict = s.dict := by
  unfold State.grow State.tsize; split <;> rfl
@[simp] theorem State.grow_bitOff (s : State) : (s.grow).bitOff = s.bitOff := by
  unfold State.grow State.tsize; split <;> rfl
@[simp] theorem State.grow_out (s : State) : (s.grow).out = s.out := by
  unfold State.grow State.tsize; split <;> rfl
@[simp] theorem State.grow_eoiSeen (s : State) : (s.grow).eoiSeen = s.eoiSeen := by
  unfold State.grow State.tsize; split <;> rfl
@[simp] theorem State.grow_lzwPos (s : State) : (s.grow).lzwPos = s.lzwPos := by
  unfold State.grow State.tsize; split <;> rfl
@[simp] theorem State.grow_mem (s : State) : (s.grow).mem = s.mem := by
  unfold State.grow State.tsize; split <;> rfl
@[simp] theorem State.grow_inLen (s : State) : (s.grow).inLen = s.inLen := by
  unfold State.grow State.tsize; split <;> rfl
@[simp] theorem State.grow_cfg (s : State) : (s.grow).cfg = s.cfg := by
  unfold State.grow State.tsize; split <;> rfl

/-! ### append -/

@[simp] theorem State.append_state (s : State) (e : List Nat) : (s.append e).state = s.state := by
  by_cases h : s.dict.length < tableMax <;> simp [State.append, State.tsize, h]
@[simp] theorem State.append_pos (s : State) (e : List Nat) : (s.append e).pos = s.pos := by
  by_cases h : s.dict.length < tableMax <;> simp [State.append, State.tsize, h]
@[simp] theorem State.append_scrW (s : State) (e : List Nat) : (s.append e).scrW = s.scrW := by
  by_cases h : s.dict.length < tableMax <;> simp [State.append, State.tsize, h]
@[simp] theorem State.append_scrH (s : State) (e : List Nat) : (s.append e).scrH = s.scrH := by
  by_cases h : s.dict.length < tableMax <;> simp [State.append, State.tsize, h]
@[simp] theorem State.append_gctPresent (s : State) (e : List Nat) : (s.append e).gctPresent = s.gctPresent := by
  by_cases h : s.dict.length < tableMax <;> simp [State.append, State.tsize, h]
@[simp] theorem State.append_gctRes (s : State) (e : List Nat) : (s.append e).gctRes = s.gctRes := by
  by_cases h : s.dict.length < tableMax <;> simp [State.append, State.tsize, h]
@[simp] theorem State.append_gct (s : State) (e : List Nat) : (s.append e).gct = s.gct := by
  by_cases h : s.dict.length < tableMax <;> simp [State.append, State.tsize, h]
@[simp] theorem State.append_pendDelay (s : State) (e : List Nat) : (s.append e).pendDelay = s.pendDelay := by
  by_cases h : s.dict.length < tableMax <;> simp [State.append, State.tsize, h]
@[simp] theorem State.append_pendLct (s : State) (e : List Nat) : (s.append e).pendLct = s.pendLct := by
  by_cases h : s.dict.length < tableMax <;> simp [State.append, State.tsize, h]
@[simp] theorem State.append_frames (s : State) (e : List Nat) : (s.append e).frames = s.frames := by
  by_cases h : s.dict.length < tableMax <;> simp [State.append, State.tsize, h]
@[simp] theorem State.append_status (s : State) (e : List Nat) : (s.append e).status = s.status := by
  by_cases h : s.dict.length < tableMax <;> simp [State.append, State.tsize, h]
@[simp] theorem State.append_cause (s : State) (e : List Nat) : (s.append e).cause = s.cause := by
  by_cases h : s.dict.length < tableMax <;> simp [State.append, State.tsize, h]
@[simp] theorem State.append_fstate (s : State) (e : List Nat) : (s.append e).fstate = s.fstate := by
  by_cases h : s.dict.length < tableMax <;> simp [State.append, State.tsize, h]
@[simp] theorem State.append_fpos (s : State) (e : List Nat) : (s.append e).fpos = s.fpos := by
  by_cases h : s.dict.length < tableMax <;> simp [State.append, State.tsize, h]
@[simp] theorem State.append_finfo (s : State) (e : List Nat) : (s.append e).finfo = s.finfo := by
  by_cases h : s.dict.length < tableMax <;> simp [State.append, State.tsize, h]
@[simp] theorem State.append_fval (s : State) (e : List Nat) : (s.append e).fval = s.fval := by
  by_cases h : s.dict.length < tableMax <;> simp [State.append, State.tsize, h]
@[simp] theorem State.append_mcs (s : State) (e : List Nat) : (s.append e).mcs = s.mcs := by
  by_cases h : s.dict.length < tableMax <;> simp [State.append, State.tsize, h]
@[simp] theorem State.append_pay (s : State) (e : List Nat) : (s.append e).pay = s.pay := by
  by_cases h : s.dict.length < tableMax <;> simp [State.append, State.tsize, h]
@[simp] theorem State.append_w (s : State) (e : List Nat) : (s.append e).w = if s.dict.length < tableMax ∧ s.dict.length + 1 = 2 ^ s.w ∧ s.w < maxWidth then s.w + 1 else s.w := by
  by_cases h : s.dict.length < tableMax <;> simp [State.append, State.tsize, h]
@[simp] theorem State.append_cc (s : State) (e : List Nat) : (s.append e).cc = s.cc := by
  by_cases h : s.dict.length < tableMax <;> simp [State.append, State.tsize, h]
@[simp] theorem State.append_eoi (s : State) (e : List Nat) : (s.append e).eoi = s.eoi := by
  by_cases h : s.dict.length < tableMax <;> simp [State.append, State.tsize, h]
@[simp] theorem State.append_prev (s : State) (e : List Nat) : (s.append e).prev = s.prev := by
  by_cases h : s.dict.length < tableMax <;> simp [State.append, State.tsize, h]
@[simp] theorem State.append_dict (s : State) (e : List Nat) : (s.append e).dict = if s.dict.length < tableMax then s.dict ++ [e] else s.dict := by
  by_cases h : s.dict.length < tableMax <;> simp [State.append, State.tsize, h]
@[simp] theorem State.append_bitOff (s : State) (e : List Nat) : (s.append e).bitOff = s.bitOff := by
  by_cases h : s.dict.length < tableMax <;> simp [State.append, State.tsize, h]
@[simp] theorem State.append_out (s : State) (e : List Nat) : (s.append e).out = s.out := by
  by_cases h : s.dict.length < tableMax <;> simp [State.append, State.tsize, h]
@[simp] theorem State.append_eoiSeen (s : State) (e : List Nat) : (s.append e).eoiSeen = s.eoiSeen := by
  by_cases h : s.dict.length < tableMax <;> simp [State.append, State.tsize, h]
@[simp] theorem State.append_lzwPos (s : State) (e : List Nat) : (s.append e).lzwPos = s.lzwPos := by
  by_cases h : s.dict.length < tableMax <;> simp [State.append, State.tsize, h]
@[simp] theorem State.append_mem (s : State) (e : List Nat) : (s.append e).mem = s.mem := by
  by_cases h : s.dict.length < tableMax <;> simp [State.append, State.tsize, h]
@[simp] theorem State.append_inLen (s : State) (e : List Nat) : (s.append e).inLen = s.inLen := by
  by_cases h : s.dict.length < tableMax <;> simp [State.append, State.tsize, h]
@[simp] theorem State.append_cfg (s : State) (e : List Nat) : (s.append e).cfg = s.cfg := by
  by_cases h : s.dict.length < tableMax <;> simp [State.append, State.tsize, h]

/-! ### Views -/

@[simp] theorem State.tsize_eq (s : State) : s.tsize = s.dict.length := rfl
@[simp] theorem State.payLen_eq (s : State) : s.payLen = s.pay.length := rfl
@[simp] theorem State.nframes_eq (s : State) : s.nframes = s.frames.length := rfl
@[simp] theorem State.gctLen_eq (s : State) : s.gctLen = s.gct.length := rfl

end Sys2Proof.Machine
end

