-- ==== Sys2Proof/Laws/Ops.lean ====
section
/-! SUPPORT. What the shared operations over the stream, the frame store and the flow of a handler can do, said once. -/

namespace Sys2Proof.Machine

/-! ### The flow of a handler -/

@[simp] theorem Flow.ok_bind (s : State) (f : State → Flow) : (Flow.ok s).bind f = f s := rfl
@[simp] theorem Flow.raised_bind (s : State) (f : State → Flow) : (Flow.raised s).bind f = .raised s := rfl
@[simp] theorem Flow.stuck_bind (r : Fault) (f : State → Flow) : (Flow.stuck r).bind f = .stuck r := rfl
@[simp] theorem Flow.ok_outcome (s : State) : (Flow.ok s).outcome = .next s := rfl
@[simp] theorem Flow.raised_outcome (s : State) : (Flow.raised s).outcome = .next s := rfl
@[simp] theorem Flow.stuck_outcome (r : Fault) : (Flow.stuck r).outcome = .fault r := rfl
@[simp] theorem Read.got_andThen {α : Type} (a : α) (s : State) (f : α → State → Flow) :
    (Read.got a s).andThen f = f a s := rfl
@[simp] theorem Read.raised_andThen {α : Type} (s : State) (f : α → State → Flow) :
    (Read.raised (α := α) s).andThen f = .raised s := rfl

theorem Flow.bind_assoc (x : Flow) (f g : State → Flow) : (x.bind f).bind g = x.bind fun s => (f s).bind g := by
  cases x <;> rfl

theorem Flow.bind_ok (x : Flow) : x.bind Flow.ok = x := by cases x <;> rfl

/-- A part that goes on went on in its first half and in its second. -/
theorem Flow.bind_eq_ok {x : Flow} {f : State → Flow} {t : State} (h : x.bind f = .ok t) :
    ∃ u, x = .ok u ∧ f u = .ok t := by
  cases x with
  | ok u => exact ⟨u, rfl, h⟩
  | raised u => simp at h
  | stuck r => simp at h

/-- Where a next state of a handler comes from. -/
theorem Flow.outcome_next {x : Flow} {t : State} (h : x.outcome = .next t) : x = .ok t ∨ x = .raised t := by
  cases x <;> simp_all

/-! ### How a part of a handler ends, for a relation between its start and its end -/

/-- The part that started in `s` goes on only in states `P` allows, raises a named cause only from such states, and never
stands where no run leads. -/
def Flow.Keeps (P : State → State → Prop) (s : State) : Flow → Prop
  | .ok t => P s t
  | .raised t => ∃ u c sub val,
      P s u ∧ c ≠ .none ∧ c ≠ .unsupportedFeature ∧ t = State.raise u c sub val
  | .stuck _ => False

/-- A part that starts where an earlier one ended. -/
theorem Flow.Keeps.after {P : State → State → Prop} (trans : ∀ a b c, P a b → P b c → P a c) {s u : State} {x : Flow}
    (h : P s u) (hx : x.Keeps P u) : x.Keeps P s := by
  cases x with
  | ok t => exact trans s u t h hx
  | raised t =>
    obtain ⟨v, c, sub, val, hv, hc, hn, rfl⟩ := hx
    exact ⟨v, c, sub, val, trans s u v h hv, hc, hn, rfl⟩
  | stuck r => exact hx

theorem Flow.Keeps.bind {P : State → State → Prop} (trans : ∀ a b c, P a b → P b c → P a c) {s : State} {x : Flow}
    {f : State → Flow} (hx : x.Keeps P s) (hf : ∀ t, P s t → (f t).Keeps P t) : (x.bind f).Keeps P s := by
  cases x with
  | ok t => exact Flow.Keeps.after trans hx (hf t hx)
  | raised t => exact hx
  | stuck r => exact hx

theorem Flow.Keeps.mono {P Q : State → State → Prop} {s : State} {x : Flow} (hx : x.Keeps P s)
    (h : ∀ t, P s t → Q s t) : x.Keeps Q s := by
  cases x with
  | ok t => exact h t hx
  | raised t =>
    obtain ⟨u, c, sub, val, hu, hc, hn, rfl⟩ := hx
    exact ⟨u, c, sub, val, h u hu, hc, hn, rfl⟩
  | stuck r => exact hx

/-! ### Capacities -/

theorem exceedsCap_false {cap : Option Nat} {n : Nat} : exceedsCap cap n = false ↔ ∀ c, cap = some c → n ≤ c := by
  cases cap <;> simp [exceedsCap]

theorem exceedsCap_true {cap : Option Nat} {n : Nat} : exceedsCap cap n = true ↔ ∃ c, cap = some c ∧ c < n := by
  cases cap <;> simp [exceedsCap]

@[simp] theorem exceedsCap_none (n : Nat) : exceedsCap none n = false := rfl

/-! ### The stream -/

@[simp] theorem State.length_unread (s : State) : s.unread.length = s.avail := by simp [State.unread]

theorem State.avail_eq (s : State) : s.avail = s.inLen - s.pos := rfl

/-- Byte `k` of the unread bytes is the byte at offset `POS + k`. -/
theorem State.getElem?_unread (s : State) (k : Nat) (h : k < s.avail) :
    s.unread[k]? = some (Memory.read s.mem (s.pos + k)) := Memory.getElem?_bytes _ _ _ _ h

/-- After `n` bytes were consumed, the rest is unread. -/
theorem State.unread_advance (s : State) (n : Nat) : (s.advance n).unread = s.unread.drop n := by
  by_cases h : n ≤ s.avail
  · have h1 : s.avail = n + (s.advance n).avail := by
      simp only [State.avail_eq, State.advance_inLen, State.advance_pos] at *; omega
    have h2 := Memory.bytes_add s.mem s.pos n (s.advance n).avail
    unfold State.unread
    rw [h1, h2, List.drop_left' (by simp)]
    rfl
  · have h1 : (s.advance n).avail = 0 := by
      simp only [State.avail_eq, State.advance_inLen, State.advance_pos] at *; omega
    have h2 : s.unread.drop n = [] := List.drop_eq_nil_of_le (by rw [State.length_unread]; omega)
    rw [h2, State.unread, h1]; rfl

/-- The first bytes ahead. -/
theorem State.bytes_eq_take (s : State) (n : Nat) (h : n ≤ s.avail) :
    Memory.bytes s.mem s.pos n = s.unread.take n := by
  have h1 : s.avail = n + (s.avail - n) := by omega
  unfold State.unread
  rw [h1, Memory.bytes_add, List.take_left' (by simp)]

/-- `Peek` is the first unread byte. -/
theorem State.peek_eq (s : State) : s.peek = s.unread.head? := by
  unfold State.peek
  split
  · rename_i h
    have : 0 < s.avail := by rw [State.avail_eq]; omega
    rw [List.head?_eq_getElem?, State.getElem?_unread s 0 this, Nat.add_zero]
  · rename_i h
    have : s.avail = 0 := by rw [State.avail_eq]; omega
    rw [State.unread, this]; rfl

/-- `ReadByte` over the unread bytes. -/
theorem State.readByte_nil (s : State) (h : s.unread = []) :
    s.readByte = .raised (s.raise .readFailure 1 0) := by
  have : s.avail = 0 := by rw [← State.length_unread, h]; rfl
  simp [State.readByte, this]

theorem State.readByte_cons (s : State) (b : Byte) (bs : List Byte) (h : s.unread = b :: bs) :
    s.readByte = .got b (s.advance 1) := by
  have ha : s.avail = bs.length + 1 := by rw [← State.length_unread, h]; rfl
  have hb := State.getElem?_unread s 0 (by omega)
  rw [h, List.getElem?_cons_zero, Option.some.injEq, Nat.add_zero] at hb
  simp [State.readByte, ha, hb]

/-- `ReadBytes` over the unread bytes: all or nothing. -/
theorem State.readBytes_eq (s : State) (n : Nat) :
    s.readBytes n = if s.unread.length < n then .raised (s.raise .readFailure 1 0)
      else .got (s.unread.take n) (s.advance n) := by
  rw [State.length_unread]
  unfold State.readBytes
  split
  · rfl
  · rw [State.bytes_eq_take s n (by omega)]

/-! ### The frame store -/

@[simp] theorem updateLast_append (g : Frame → Frame) (fs : List Frame) (f : Frame) :
    updateLast g (fs ++ [f]) = fs ++ [g f] := by
  induction fs with
  | nil => rfl
  | cons a fs ih =>
    cases fs with
    | nil => rfl
    | cons b fs => simpa [updateLast] using ih

@[simp] theorem length_updateLast (g : Frame → Frame) (fs : List Frame) : (updateLast g fs).length = fs.length := by
  rcases List.eq_nil_or_concat fs with rfl | ⟨l, f, rfl⟩
  · rfl
  · simp

/-- The active frame is the last record. -/
theorem State.active_eq_some {s : State} {f : Frame} : s.active = some f ↔ ∃ fs, s.frames = fs ++ [f] := by
  unfold State.active
  constructor
  · intro h
    exact ⟨s.frames.dropLast, (List.dropLast_append_getLast? f h).symm⟩
  · rintro ⟨fs, h⟩
    simp [h]

theorem State.active_eq_none {s : State} : s.active = none ↔ s.frames = [] := by
  simp [State.active]

/-- Writing the active frame. -/
theorem State.frames_updateActive {s : State} {fs : List Frame} {f : Frame} (h : s.frames = fs ++ [f])
    (g : Frame → Frame) : (s.updateActive g).frames = fs ++ [g f] := by
  simp [h]

/-! ### Warnings -/

/-- A flag after `warn`. -/
theorem State.flag_warn (s : State) (f g : StatusFlag) : (s.warn f).flag g = (s.flag g || decide (g = f)) := by
  cases f <;> cases g <;> simp [State.flag, StatusFlag.bit]

theorem State.flag_warnIf (s : State) (c : Bool) (f g : StatusFlag) :
    (s.warnIf c f).flag g = (s.flag g || (c && decide (g = f))) := by
  cases c
  · simp [State.warnIf]
  · simp [State.warnIf, State.flag_warn]

/-- A flag is a bit of `STATUS` and of nothing else. -/
theorem State.flag_congr {s t : State} (h : s.status = t.status) (f : StatusFlag) : s.flag f = t.flag f := by
  simp [State.flag, h]

/-! ### Which fields a part of a handler leaves alone -/

/-- `t` is `s` but for the LZW registers (10_state.md section 6) and the place in the code stream. -/
def LzwOnly (s t : State) : Prop :=
  t = { s with
    w := t.w, cc := t.cc, eoi := t.eoi, prev := t.prev, dict := t.dict, bitOff := t.bitOff, out := t.out
    eoiSeen := t.eoiSeen, lzwPos := t.lzwPos }

/-- `t` is `s` but for the working registers and a place in the stream that is no earlier, and not beyond `e` unless `s` stood
there already. -/
structure Worked (e : Nat) (s t : State) : Prop where
  same : t = { s with
    pos := t.pos, mcs := t.mcs, pay := t.pay, w := t.w, cc := t.cc, eoi := t.eoi, prev := t.prev, dict := t.dict
    bitOff := t.bitOff, out := t.out, eoiSeen := t.eoiSeen, lzwPos := t.lzwPos }
  forward : s.pos ≤ t.pos
  within : s.pos ≤ e → t.pos ≤ e

theorem LzwOnly.refl (s : State) : LzwOnly s s := rfl

theorem LzwOnly.trans (s t u : State) (h1 : LzwOnly s t) (h2 : LzwOnly t u) : LzwOnly s u := by
  unfold LzwOnly at *
  refine h2.trans ?_
  rw [h1]

theorem LzwOnly.state {s t : State} (h : LzwOnly s t) : t.state = s.state := by rw [h]
theorem LzwOnly.pos {s t : State} (h : LzwOnly s t) : t.pos = s.pos := by rw [h]
theorem LzwOnly.mcs {s t : State} (h : LzwOnly s t) : t.mcs = s.mcs := by rw [h]
theorem LzwOnly.pay {s t : State} (h : LzwOnly s t) : t.pay = s.pay := by rw [h]
theorem LzwOnly.cfg {s t : State} (h : LzwOnly s t) : t.cfg = s.cfg := by rw [h]
theorem LzwOnly.mem {s t : State} (h : LzwOnly s t) : t.mem = s.mem := by rw [h]
theorem LzwOnly.inLen {s t : State} (h : LzwOnly s t) : t.inLen = s.inLen := by rw [h]
theorem LzwOnly.frames {s t : State} (h : LzwOnly s t) : t.frames = s.frames := by rw [h]
theorem LzwOnly.status {s t : State} (h : LzwOnly s t) : t.status = s.status := by rw [h]

theorem LzwOnly.worked {s t : State} (e : Nat) (h : LzwOnly s t) : Worked e s t := by
  refine ⟨?_, Nat.le_of_eq h.pos.symm, fun hp => h.pos ▸ hp⟩
  unfold LzwOnly at h
  rw [h]

theorem Worked.refl (e : Nat) (s : State) : Worked e s s := (LzwOnly.refl s).worked e

theorem Worked.inLen {e : Nat} {s t : State} (h : Worked e s t) : t.inLen = s.inLen := by rw [h.same]
theorem Worked.state {e : Nat} {s t : State} (h : Worked e s t) : t.state = s.state := by rw [h.same]
theorem Worked.frames {e : Nat} {s t : State} (h : Worked e s t) : t.frames = s.frames := by rw [h.same]
theorem Worked.status {e : Nat} {s t : State} (h : Worked e s t) : t.status = s.status := by rw [h.same]
theorem Worked.mem {e : Nat} {s t : State} (h : Worked e s t) : t.mem = s.mem := by rw [h.same]
theorem Worked.cfg {e : Nat} {s t : State} (h : Worked e s t) : t.cfg = s.cfg := by rw [h.same]
theorem Worked.active {e : Nat} {s t : State} (h : Worked e s t) : t.active = s.active := by
  rw [State.active, h.frames]; rfl

theorem Worked.trans (e : Nat) (s t u : State) (h1 : Worked e s t) (h2 : Worked e t u) : Worked e s u := by
  refine ⟨?_, Nat.le_trans h1.forward h2.forward, fun hp => h2.within (h1.within hp)⟩
  refine h2.same.trans ?_
  rw [h1.same]

/-- A farther bound is a bound. -/
theorem Worked.mono {e e' : Nat} {s t : State} (h : Worked e s t) (hs : s.pos ≤ e) (he : e ≤ e') : Worked e' s t :=
  ⟨h.same, h.forward, fun _ => Nat.le_trans (h.within hs) he⟩

/-- Consuming bytes. -/
theorem Worked.advance (e : Nat) (s : State) (n : Nat) (h : s.pos ≤ e → s.pos + n ≤ e) : Worked e s (s.advance n) :=
  ⟨rfl, Nat.le_add_right _ _, h⟩

/-- Consuming bytes that are there. -/
theorem Worked.advance_avail (s : State) (n : Nat) (h : n ≤ s.avail) : Worked s.inLen s (s.advance n) :=
  Worked.advance _ s n fun hp => by rw [State.avail_eq] at h; omega

end Sys2Proof.Machine
end

