-- ==== Sys2Proof/Laws/Lzw.lean ====
section
/-! SUPPORT. What each operation and each code class of the LZW unit can do, said once. -/

namespace Sys2Proof.Machine

/-! ### Operations -/

theorem State.entry_of_getElem? {s : State} {c : Nat} {e : List Nat} (h : s.dict[c]? = some e) : s.entry c = e := by
  simp [State.entry, List.getD_eq_getElem?_getD, h]

theorem State.dict_some_of_lt {s : State} {c : Nat} (h : c < s.dict.length) : ∃ e, s.dict[c]? = some e :=
  ⟨s.dict[c], by simp⟩

@[simp] theorem firstOf_nil : firstOf [] = [] := rfl
@[simp] theorem firstOf_cons (x : Nat) (e : List Nat) : firstOf (x :: e) = [x] := rfl

/-- `Emit` where the output buffer has room. -/
theorem State.emit_of_room (s : State) (e : List Nat)
    (h : ∀ cap, s.cfg.pixelCap = some cap → s.out.length + e.length ≤ cap) :
    s.emit e = .ok { s with out := s.out ++ e } := by
  have : exceedsCap s.cfg.pixelCap (s.out.length + e.length) = false := exceedsCap_false.mpr h
  simp [State.emit, this]

/-- `Emit` where it has none. -/
theorem State.emit_of_full (s : State) (e : List Nat) (cap : Nat) (hc : s.cfg.pixelCap = some cap)
    (h : cap < s.out.length + e.length) : s.emit e = .raised (s.raise .capacityExceeded 3 0) := by
  have : exceedsCap s.cfg.pixelCap (s.out.length + e.length) = true := exceedsCap_true.mpr ⟨cap, hc, h⟩
  simp [State.emit, this]

/-- What `Emit` left where it went on. -/
theorem State.emit_ok {s t : State} {e : List Nat} (h : s.emit e = .ok t) : t = { s with out := s.out ++ e } := by
  unfold State.emit at h
  split at h
  · cases h
  · cases h; rfl

/-- `ReadCode` where the code is there and in range. -/
theorem State.readCode_of_ok {s : State} {c off : Nat} (h : Sys2Proof.readCode s.pay s.bitOff s.w = .ok (c, off)) :
    s.readCode = .got c { s with bitOff := off } := by simp [State.readCode, h]

/-- `ReadCode` where too few bits are left. -/
theorem State.readCode_of_short {s : State} (h : 8 * s.pay.length < s.bitOff + s.w) :
    s.readCode = .raised (s.raise .readFailure 2 0) := by
  have : Sys2Proof.readCode s.pay s.bitOff s.w = .error .shortPayload := by
    simp [Sys2Proof.readCode, h]
  simp [State.readCode, this]

/-- The loop condition of R144. -/
theorem State.moreCodes_iff (s : State) : s.moreCodes = true ↔ s.bitOff < 8 * s.pay.length ∧ s.eoiSeen = false := by
  show (decide (s.bitOff < 8 * s.pay.length) && !s.eoiSeen) = true ↔ _
  simp

/-! ### What an operation or a class leaves alone -/

/-- The part keeps to the LZW registers, and goes on or raises. -/
abbrev Flow.KeepsLzw (s : State) (x : Flow) : Prop := x.Keeps LzwOnly s

theorem State.emit_keeps (s : State) (e : List Nat) : (s.emit e).KeepsLzw s := by
  unfold State.emit
  split
  · exact ⟨s, _, _, _, LzwOnly.refl s, by decide, by decide, rfl⟩
  · exact rfl

theorem State.grow_lzwOnly (s : State) : LzwOnly s s.grow := by unfold State.grow; split <;> rfl

theorem State.append_lzwOnly (s : State) (e : List Nat) : LzwOnly s (s.append e) := by
  unfold State.append
  split
  · exact LzwOnly.trans s { s with dict := s.dict ++ [e] } _ rfl (State.grow_lzwOnly _)
  · rfl

/-- `ReadCode` goes on with the cursor moved, or raises. -/
theorem State.readCode_keeps (s : State) (f : Nat → State → Flow)
    (hf : ∀ c t, LzwOnly s t → (f c t).KeepsLzw t) : (s.readCode.andThen f).KeepsLzw s := by
  unfold State.readCode
  split
  · rename_i c off h
    exact Flow.Keeps.bind LzwOnly.trans (x := .ok { s with bitOff := off }) (f := f c) rfl (hf c)
  · exact ⟨s, _, _, _, LzwOnly.refl s, by decide, by decide, rfl⟩
  · exact ⟨s, _, _, _, LzwOnly.refl s, by decide, by decide, rfl⟩

theorem startEffect_keeps (c : Nat) (s : State) : (startEffect c s).KeepsLzw s := by
  unfold startEffect
  split
  · exact ⟨s, _, _, _, LzwOnly.refl s, by decide, by decide, rfl⟩
  · exact rfl

theorem firstEffect_keeps (c : Nat) (s : State) : (firstEffect c s).KeepsLzw s := by
  unfold firstEffect
  split
  · exact ⟨s, _, _, _, LzwOnly.refl s, by decide, by decide, rfl⟩
  · exact Flow.Keeps.bind LzwOnly.trans (State.emit_keeps _ _) fun t _ => rfl

theorem clearEffect_keeps (s : State) : (clearEffect s).KeepsLzw s :=
  Flow.Keeps.bind LzwOnly.trans (x := .ok { s.dictInit with w := s.mcs.toNat + 1 })
    (f := fun t => t.readCode.andThen firstEffect) rfl
    fun t _ => State.readCode_keeps t firstEffect fun c u _ => firstEffect_keeps c u

theorem knownEffect_keeps (c : Nat) (s : State) : (knownEffect c s).KeepsLzw s := by
  refine Flow.Keeps.bind LzwOnly.trans (State.emit_keeps _ _) fun t _ => ?_
  exact LzwOnly.trans _ _ _ (State.append_lzwOnly t _) rfl

theorem kwkwkEffect_keeps (c : Nat) (s : State) : (kwkwkEffect c s).KeepsLzw s := by
  unfold kwkwkEffect
  split
  · exact ⟨s, _, _, _, LzwOnly.refl s, by decide, by decide, rfl⟩
  · refine Flow.Keeps.bind LzwOnly.trans (x := State.emit _ _) ?_ fun t _ => rfl
    exact Flow.Keeps.bind LzwOnly.trans (x := .ok _) (f := fun t => t.emit _) (State.append_lzwOnly s _)
      fun t _ => State.emit_keeps t _

theorem illegalEffect_keeps (c : Nat) (s : State) : (illegalEffect c s).KeepsLzw s :=
  ⟨s, _, _, _, LzwOnly.refl s, by decide, by decide, rfl⟩

theorem classEffect_keeps (k : CodeClass) (c : Nat) (s : State) : (classEffect k c s).KeepsLzw s := by
  cases k
  · exact startEffect_keeps c s
  · exact firstEffect_keeps c s
  · exact clearEffect_keeps s
  · exact rfl
  · exact knownEffect_keeps c s
  · exact kwkwkEffect_keeps c s
  · exact illegalEffect_keeps c s

/-- One code changes nothing but the LZW registers, and goes on or raises. -/
theorem lzwTick_keeps (p : CodePos) (s : State) : (lzwTick p s).KeepsLzw s :=
  State.readCode_keeps s _ fun c t _ => classEffect_keeps _ c t

theorem lzwRun_keeps (n : Nat) (s : State) : (lzwRun n s).KeepsLzw s := by
  induction n generalizing s with
  | zero => exact LzwOnly.refl s
  | succ n ih =>
    have go : ∀ p, ((lzwTick p s).bind (lzwRun n)).KeepsLzw s := fun p =>
      Flow.Keeps.bind LzwOnly.trans (lzwTick_keeps p s) fun t _ => ih t
    unfold lzwRun
    split
    · exact LzwOnly.refl s
    · split
      · exact go _
      · exact LzwOnly.refl s
    · exact go _

theorem State.lzwInit_keeps (s : State) : s.lzwInit.KeepsLzw s := by
  unfold State.lzwInit
  split
  · exact ⟨s, _, _, _, LzwOnly.refl s, by decide, by decide, rfl⟩
  · exact rfl

/-- The decode of a payload changes nothing but the LZW registers, and goes on or raises. -/
theorem State.lzwDecode_keeps (s : State) : s.lzwDecode.KeepsLzw s :=
  Flow.Keeps.bind LzwOnly.trans (State.lzwInit_keeps s) fun t _ => lzwRun_keeps _ t

/-! ### A tick is the meaning of the code that stands next -/

/-- The token of a class at the width of the state does what a tick of that class does. -/
theorem execInstr_eq_tick (k : CodeClass) (c : Nat) (s : State) :
    (classEffect k c (s.advanceBits s.w)).outcome =
      match k with
      | .start => execLzwStart s.w c s
      | .first => execLzwFirst s.w c s
      | .clear => execLzwClear s.w s
      | .eoi => execLzwEoi s.w s
      | .known => execLzwKnown s.w c s
      | .kwkwk => execLzwKwkwk s.w c s
      | .illegal => execLzwIllegal s.w c s := by
  cases k <;> rfl

/-- The tick where a code can be read. -/
theorem lzwTick_of_ok {p : CodePos} {s : State} {c off : Nat}
    (h : Sys2Proof.readCode s.pay s.bitOff s.w = .ok (c, off)) :
    lzwTick p s = classEffect ((s.codeSlot p).classOf c) c (s.advanceBits s.w) := by
  have hoff := (readCode_ok.mp h).2.2.2
  subst hoff
  rw [lzwTick, State.readCode_of_ok h]
  rfl

/-- The Clear Code takes the next code along, at the reset width, as the first code. -/
theorem clearEffect_of_ok {s : State} {v off : Nat}
    (h : Sys2Proof.readCode s.pay s.bitOff (s.mcs.toNat + 1) = .ok (v, off)) :
    clearEffect s = firstEffect v { s.dictInit with w := s.mcs.toNat + 1, bitOff := off } := by
  show (State.readCode { s.dictInit with w := s.mcs.toNat + 1 }).andThen firstEffect = _
  rw [State.readCode_of_ok h]
  rfl

/-- Where it cannot be read, nothing goes on. -/
theorem clearEffect_of_error {s t : State} {r : Reject}
    (h : Sys2Proof.readCode s.pay s.bitOff (s.mcs.toNat + 1) = .error r) : clearEffect s ≠ .ok t := by
  show (State.readCode { s.dictInit with w := s.mcs.toNat + 1 }).andThen firstEffect ≠ _
  rcases readCode_error h with ⟨rfl, -⟩ | ⟨v, rfl, -, -⟩ <;> simp [State.readCode, h]

/-- The first code, where it goes on. -/
theorem firstEffect_ok {c : Nat} {s t : State} (h : firstEffect c s = .ok t) :
    ∃ e, s.dict[c]? = some e ∧ t = { s with out := s.out ++ e, prev := c, lzwPos := some .loop } := by
  unfold firstEffect at h
  split at h
  · cases h
  · rename_i hlt
    obtain ⟨e, he⟩ := State.dict_some_of_lt (s := s) (c := c) (Nat.lt_of_not_le hlt)
    obtain ⟨u, hu, ht⟩ := Flow.bind_eq_ok h
    have := State.emit_ok hu
    subst this
    cases ht
    exact ⟨e, he, by rw [State.entry_of_getElem? he]⟩

/-! ### Everything a tick that goes on can do -/

/-- The table and the width after `Append`. -/
def State.appended (s : State) (e : List Nat) : List (List Nat) :=
  if s.dict.length < tableMax then s.dict ++ [e] else s.dict

def State.grown (s : State) : Nat :=
  if s.dict.length < tableMax ∧ s.dict.length + 1 = 2 ^ s.w ∧ s.w < maxWidth then s.w + 1 else s.w

theorem State.append_eq (s : State) (e : List Nat) : s.append e = { s with dict := s.appended e, w := s.grown } := by
  by_cases h : s.dict.length < tableMax
  · by_cases hg : s.dict.length + 1 = 2 ^ s.w ∧ s.w < maxWidth
    · simp [State.append, State.grow, State.tsize, State.appended, State.grown, h, hg]
    · simp [State.append, State.grow, State.tsize, State.appended, State.grown, h, hg]
  · simp [State.append, State.tsize, State.appended, State.grown, h]

/-- The ways a tick from `s` at place `p` can go on. `c` is the code that was read. -/
inductive TickWay (p : CodePos) (s : State) : State → Prop
  /-- R142 -/
  | start : p = .start → TickWay p s { s with bitOff := s.bitOff + s.w, lzwPos := some .first }
  /-- R143 -/
  | first (c : Nat) (e : List Nat) : p = .first → s.dict[c]? = some e →
      TickWay p s { s with bitOff := s.bitOff + s.w, out := s.out ++ e, prev := c, lzwPos := some .loop }
  /-- R150: `v` is the code that the Clear Code takes along -/
  | clear (v : Nat) (e : List Nat) : p = .loop →
      s.bitOff + s.w + (s.mcs.toNat + 1) ≤ 8 * s.pay.length → s.dictInit.dict[v]? = some e →
      TickWay p s { s with
        dict := s.dictInit.dict, w := s.mcs.toNat + 1, bitOff := s.bitOff + s.w + (s.mcs.toNat + 1)
        out := s.out ++ e, prev := v, lzwPos := some .loop }
  /-- R149 -/
  | eoi : p = .loop → TickWay p s { s with bitOff := s.bitOff + s.w, eoiSeen := true }
  /-- R151 -/
  | known (c : Nat) (e : List Nat) : p = .loop → c ≠ s.cc → c ≠ s.eoi → s.dict[c]? = some e →
      TickWay p s { s with
        bitOff := s.bitOff + s.w, out := s.out ++ e, prev := c
        dict := s.appended (s.entry s.prev ++ firstOf e), w := s.grown }
  /-- R152 -/
  | kwkwk (x : Nat) (e : List Nat) : p = .loop → s.dict.length ≠ s.cc → s.dict.length ≠ s.eoi →
      s.dict.length ≤ maxCode → s.entry s.prev = x :: e →
      TickWay p s { s with
        bitOff := s.bitOff + s.w, out := s.out ++ (x :: e ++ [x]), prev := s.dict.length
        dict := s.appended (x :: e ++ [x]), w := s.grown }

/-- A tick that goes on found its code inside the payload and is one of the ways. -/
theorem lzwTick_cases {p : CodePos} {s t : State} (h : lzwTick p s = .ok t) :
    s.bitOff + s.w ≤ 8 * s.pay.length ∧ TickWay p s t := by
  cases hr : Sys2Proof.readCode s.pay s.bitOff s.w with
  | error r =>
    rcases readCode_error hr with ⟨rfl, -⟩ | ⟨v, rfl, -, -⟩ <;> simp [lzwTick, State.readCode, hr] at h
  | ok v =>
    obtain ⟨c, off⟩ := v
    refine ⟨(readCode_ok.mp hr).1, ?_⟩
    rw [lzwTick_of_ok hr] at h
    cases p with
    | start =>
      simp only [CodeSlot.classOf, State.codeSlot, classEffect, startEffect] at h
      split at h
      · cases h
      · cases h; exact .start rfl
    | first =>
      obtain ⟨e, he, rfl⟩ := firstEffect_ok h
      exact .first c e rfl he
    | loop =>
      simp only [CodeSlot.classOf, State.codeSlot] at h
      rcases classify_cases s.cc s.eoi s.tsize c with
        ⟨-, hk⟩ | ⟨-, -, hk⟩ | ⟨hcc, heoi, hlt, hk⟩ | ⟨hcc, heoi, heq, hk⟩ | ⟨-, -, -, hk⟩ <;> rw [hk] at h
      · cases hr2 : Sys2Proof.readCode s.pay (s.bitOff + s.w) (s.mcs.toNat + 1) with
        | error r => exact absurd h (clearEffect_of_error (s := s.advanceBits s.w) hr2)
        | ok v2 =>
          obtain ⟨v, off2⟩ := v2
          obtain ⟨hin, -, -, rfl⟩ := readCode_ok.mp hr2
          have h : clearEffect (s.advanceBits s.w) = .ok t := h
          rw [clearEffect_of_ok (s := s.advanceBits s.w) hr2] at h
          obtain ⟨e, he, rfl⟩ := firstEffect_ok h
          exact .clear v e rfl hin he
      · cases h; exact .eoi rfl
      · obtain ⟨e, he⟩ := State.dict_some_of_lt (s := s) (c := c) hlt
        obtain ⟨u, hu, ht⟩ := Flow.bind_eq_ok h
        have := State.emit_ok hu
        subst this
        cases ht
        rw [State.append_eq]
        have hent : s.entry c = e := State.entry_of_getElem? he
        subst hent
        exact .known c _ rfl hcc heoi he
      · simp only [classEffect, kwkwkEffect] at h
        split at h
        · cases h
        · rename_i hne
          obtain ⟨u, hu, ht⟩ := Flow.bind_eq_ok h
          have := State.emit_ok hu
          subst this
          cases ht
          rw [State.append_eq]
          cases hp : s.entry s.prev with
          | nil => exact absurd (congrArg List.length hp) hne
          | cons x e =>
            have hc : c = s.dict.length := heq
            subst hc
            have hpe : (s.advanceBits s.w).entry (s.advanceBits s.w).prev = x :: e := hp
            rw [hpe]
            exact .kwkwk x e rfl hcc heoi (readCode_ok.mp hr).2.2.1 hp
      · simp [classEffect, illegalEffect] at h

end Sys2Proof.Machine
end

