-- ==== Sys2Proof/Laws/Image.lean ====
section
/-! SUPPORT. Gathering a payload, materialisation, and the end of an image block: what each can do, said once. -/

namespace Sys2Proof.Machine

/-! ### Gathering -/

/-- Sub-blocks that the payload buffer has room for. -/
theorem gatherBlocks_of_room (blocks : List (List Byte)) (s : State)
    (h : ∀ cap, s.cfg.payloadCap = some cap → s.pay.length + blocks.flatten.length ≤ cap) :
    gatherBlocks blocks s =
      .ok { s with pos := s.pos + blocksLength blocks, pay := s.pay ++ blocks.flatten } := by
  induction blocks generalizing s with
  | nil => simp [gatherBlocks, blocksLength]
  | cons b bs ih =>
    have hcap : exceedsCap s.cfg.payloadCap (s.pay.length + b.length) = false := by
      refine exceedsCap_false.mpr fun cap hc => ?_
      have := h cap hc
      simp only [List.flatten_cons, List.length_append] at this
      omega
    have hopen : s.openBlock b.length = .ok (s.advance 1) := by simp [State.openBlock, hcap]
    rw [gatherBlocks, hopen, Flow.ok_bind, ih]
    · simp only [State.advance, blocksLength, List.flatten_cons, List.append_assoc]
      congr 2
      omega
    · intro cap hc
      have := h cap hc
      simp only [List.flatten_cons, List.length_append] at this
      simp only [State.advance_pay, List.length_append]
      omega

/-- A whole chain that the payload buffer has room for. -/
theorem gather_of_room (mcs : Byte) (blocks : List (List Byte)) (s : State)
    (h : ∀ cap, s.cfg.payloadCap = some cap → blocks.flatten.length ≤ cap) :
    gather mcs blocks s =
      .ok { s with pos := s.pos + (1 + chainLength blocks), mcs := mcs, pay := blocks.flatten } := by
  rw [gather, gatherBlocks_of_room blocks (s.beginPayload mcs) (by simpa using h), Flow.ok_bind]
  simp only [State.advance, State.beginPayload, List.nil_append, chainLength]
  congr 2
  omega

/-- A length byte was read: the state after it, or the fault of a full payload buffer. -/
theorem openBlock_cases (n : Nat) (s : State) :
    s.openBlock n = .raised ((s.advance 1).raise .capacityExceeded 2 n) ∨ s.openBlock n = .ok (s.advance 1) := by
  unfold State.openBlock
  simp only
  split
  · exact .inl rfl
  · exact .inr rfl

theorem openBlock_keeps (e n : Nat) (s : State) (h : s.pos + 1 ≤ e) : (s.openBlock n).Keeps (Worked e) s := by
  rcases openBlock_cases n s with hopen | hopen
  · rw [hopen]
    exact ⟨s.advance 1, _, _, _, Worked.advance e s 1 fun _ => h, by decide, by decide, rfl⟩
  · rw [hopen]
    exact Worked.advance e s 1 fun _ => h

/-- Gathering moves in the stream, writes the payload, and goes on or raises. -/
theorem gatherBlocks_keeps (e : Nat) (blocks : List (List Byte)) (s : State) (h : s.pos + blocksLength blocks ≤ e) :
    (gatherBlocks blocks s).Keeps (Worked e) s := by
  induction blocks generalizing s with
  | nil => exact Worked.refl e s
  | cons b bs ih =>
    simp only [blocksLength] at h
    rcases openBlock_cases b.length s with hopen | hopen
    · rw [gatherBlocks, hopen]
      exact ⟨s.advance 1, _, _, _, Worked.advance e s 1 (fun _ => by omega), by decide, by decide, rfl⟩
    · rw [gatherBlocks, hopen, Flow.ok_bind]
      refine Flow.Keeps.after (Worked.trans e) ?_ (ih _ ?_)
      · exact ⟨rfl, by simp [Nat.add_assoc], fun _ => by simp; omega⟩
      · simp; omega

/-- Where gathering went on, it is past the sub-blocks. -/
theorem gatherBlocks_pos {blocks : List (List Byte)} {s t : State} (h : gatherBlocks blocks s = .ok t) :
    t.pos = s.pos + blocksLength blocks := by
  induction blocks generalizing s with
  | nil => simp only [gatherBlocks, Flow.ok.injEq] at h; simp [← h, blocksLength]
  | cons b bs ih =>
    rcases openBlock_cases b.length s with hopen | hopen
    · rw [gatherBlocks, hopen] at h; simp at h
    · rw [gatherBlocks, hopen, Flow.ok_bind] at h
      rw [ih h]
      simp only [State.advance_pos, blocksLength]
      omega

theorem beginPayload_worked (e : Nat) (s : State) (mcs : Byte) (h : s.pos + 1 ≤ e) : Worked e s (s.beginPayload mcs) :=
  ⟨rfl, Nat.le_add_right _ _, fun _ => h⟩

theorem gather_keeps (e : Nat) (mcs : Byte) (blocks : List (List Byte)) (s : State)
    (h : s.pos + (1 + chainLength blocks) ≤ e) : (gather mcs blocks s).Keeps (Worked e) s := by
  simp only [chainLength] at h
  refine Flow.Keeps.after (Worked.trans e) (beginPayload_worked e s mcs (by omega)) ?_
  have hk := gatherBlocks_keeps e blocks (s.beginPayload mcs) (by simp; omega)
  unfold gather
  cases hg : gatherBlocks blocks (s.beginPayload mcs) with
  | ok t =>
    have hp := gatherBlocks_pos hg
    rw [hg] at hk
    simp only [State.beginPayload_pos] at hp
    exact Worked.trans e _ _ _ hk (Worked.advance e t 1 fun _ => by omega)
  | raised t => rw [hg] at hk; exact hk
  | stuck r => rw [hg] at hk; exact hk

/-- Where the whole chain was gathered. -/
theorem gather_pos {mcs : Byte} {blocks : List (List Byte)} {s t : State} (h : gather mcs blocks s = .ok t) :
    t.pos = s.pos + (1 + chainLength blocks) := by
  obtain ⟨u, hu, ht⟩ := Flow.bind_eq_ok h
  have hp := gatherBlocks_pos hu
  simp only [Flow.ok.injEq] at ht
  subst ht
  simp only [State.advance_pos, hp, State.beginPayload_pos, chainLength]
  omega

/-- Gathering and decoding change nothing but the working registers and the place in the stream, and go on or raise. -/
theorem gather_decode_keeps (e : Nat) (mcs : Byte) (blocks : List (List Byte)) (s : State)
    (h : s.pos + (1 + chainLength blocks) ≤ e) : ((gather mcs blocks s).bind State.lzwDecode).Keeps (Worked e) s :=
  Flow.Keeps.bind (Worked.trans e) (gather_keeps e mcs blocks s h) fun t _ =>
    (State.lzwDecode_keeps t).mono fun _ hu => hu.worked e

theorem gather_decode_pos {mcs : Byte} {blocks : List (List Byte)} {s t : State}
    (h : (gather mcs blocks s).bind State.lzwDecode = .ok t) : t.pos = s.pos + (1 + chainLength blocks) := by
  obtain ⟨u, hu, ht⟩ := Flow.bind_eq_ok h
  have hk := State.lzwDecode_keeps u
  rw [ht] at hk
  rw [LzwOnly.pos hk, gather_pos hu]

/-! ### Materialisation -/

/-- Every index below the palette's length has its Color. -/
theorem materialize_of_inside (pal : List Color) (idx : List Nat) (h : ∀ i ∈ idx, i < pal.length) :
    ∃ rgb, materialize pal idx = .ok rgb := by
  induction idx with
  | nil => exact ⟨[], rfl⟩
  | cons i idx ih =>
    obtain ⟨rgb, hr⟩ := ih fun j hj => h j (List.mem_cons_of_mem _ hj)
    have hi := h i (List.mem_cons_self ..)
    exact ⟨colorBytes pal[i] ++ rgb, by simp [materialize, hi, hr]⟩

/-- What was materialised is three bytes for each index. -/
theorem length_materialize {pal : List Color} {idx : List Nat} {rgb : List Byte} (h : materialize pal idx = .ok rgb) :
    rgb.length = 3 * idx.length := by
  induction idx generalizing rgb with
  | nil =>
    simp only [materialize, Except.ok.injEq] at h
    simp [← h]
  | cons i idx ih =>
    simp only [materialize] at h
    split at h
    · simp at h
    · split at h
      · simp at h
      · rename_i c _ _ rgb' hr
        simp only [Except.ok.injEq] at h
        rw [← h, List.length_append, ih hr]
        simp only [colorBytes, List.length_cons, List.length_nil]
        omega

/-! ### The end of an image block -/

/-- What the end of an image block leaves where the pixels `rgb` go to the active frame `f`. -/
def State.withImage (s : State) (f : Frame) (rgb : List Byte) : State :=
  State.goto
    { (s.updateActive fun g => { g with pix := rgb, npix := s.out.length, pixValid := true }).imageWarnings f with
      lzwPos := none }
    .content

/-- The end of an image block: no frame, a bad index, or the pixels stored. -/
theorem finishImage_cases (s : State) :
    (s.active = none ∧ s.finishImage = .stuck .noActiveFrame) ∨
    (∃ f i, s.active = some f ∧ s.finishImage = .raised (s.raise .paletteIndexOutOfRange 0 i)) ∨
    (∃ f rgb, s.active = some f ∧ materialize f.pal s.out = .ok rgb ∧ s.finishImage = .ok (s.withImage f rgb)) := by
  unfold State.finishImage
  cases ha : s.active with
  | none => exact .inl ⟨rfl, rfl⟩
  | some f =>
    refine .inr ?_
    cases hm : materialize f.pal s.out with
    | error i => exact .inl ⟨f, i, rfl, by simp [hm]⟩
    | ok rgb => exact .inr ⟨f, rgb, rfl, hm, by simp [hm, State.withImage]⟩

end Sys2Proof.Machine
end

