-- ==== Sys2Proof/Laws/PerInstr.lean ====
section
/-! SUPPORT. Statements made once for every row of the table. -/

namespace Sys2Proof.Laws.EncodedLength

/-- How many bits a code-stream token takes; a container token takes none of the payload. -/
def width : Instr → Nat
  | .lzwStart w _ => w
  | .lzwFirst w _ => w
  | .lzwClear w _ => w
  | .lzwEoi w _ => w
  | .lzwKnown w _ => w
  | .lzwKwkwk w _ => w
  | .lzwIllegal w _ => w
  | .hdr87 => 0
  | .hdr89 => 0
  | .lsd _ _ _ _ _ => 0
  | .gct _ => 0
  | .lct _ => 0
  | .ext => 0
  | .img => 0
  | .trl => 0
  | .gce _ => 0
  | .pte _ => 0
  | .app _ => 0
  | .cmt _ _ => 0
  | .gceBody _ _ _ _ _ => 0
  | .imgDesc _ _ _ _ _ _ => 0
  | .idata _ _ => 0
  | .subchain _ => 0
  | .trlByte _ => 0

/-- The encoding of a token is as long as the token's step consumes: in bytes of the stream, one byte for a lookahead, which
consumes none, and in bits of the payload (30_encoding.md R90, R97, R105). -/
def Statement (i : Instr) : Prop :=
  ((encodeBlock i).length = i.length ∨ (i.length = 0 ∧ (encodeBlock i).length = 1)) ∧ (encodeBits i).length = width i

theorem hdr87 : Statement .hdr87 := ⟨.inl rfl, rfl⟩
theorem hdr89 : Statement .hdr89 := ⟨.inl rfl, rfl⟩
theorem lsd (w h : BitVec 16) (packed background aspect : Byte) : Statement (.lsd w h packed background aspect) := ⟨.inl rfl, rfl⟩
theorem gct (entries : List Color) : Statement (.gct entries) := ⟨.inl (length_encodeTable entries), rfl⟩
theorem lct (entries : List Color) : Statement (.lct entries) := ⟨.inl (length_encodeTable entries), rfl⟩
theorem ext : Statement .ext := ⟨.inr ⟨rfl, rfl⟩, rfl⟩
theorem img : Statement .img := ⟨.inr ⟨rfl, rfl⟩, rfl⟩
theorem trl : Statement .trl := ⟨.inr ⟨rfl, rfl⟩, rfl⟩
theorem gce (intro : Byte) : Statement (.gce intro) := ⟨.inl rfl, rfl⟩
theorem pte (intro : Byte) : Statement (.pte intro) := ⟨.inl rfl, rfl⟩
theorem app (intro : Byte) : Statement (.app intro) := ⟨.inl rfl, rfl⟩
theorem cmt (intro label : Byte) : Statement (.cmt intro label) := ⟨.inl rfl, rfl⟩
theorem gceBody (skipped flags : Byte) (delay : BitVec 16) (transparent terminator : Byte) : Statement (.gceBody skipped flags delay transparent terminator) := ⟨.inl rfl, rfl⟩
theorem imgDesc (intro : Byte) (left top w h : BitVec 16) (packed : Byte) : Statement (.imgDesc intro left top w h packed) := ⟨.inl rfl, rfl⟩
theorem idata (mcs : Byte) (blocks : List (List Byte)) : Statement (.idata mcs blocks) := by
  refine ⟨.inl ?_, rfl⟩
  simp only [encodeBlock, Instr.length, List.length_cons, length_encodeChain]
  omega
theorem subchain (blocks : List (List Byte)) : Statement (.subchain blocks) := ⟨.inl (length_encodeChain blocks), rfl⟩
theorem trlByte (marker : Byte) : Statement (.trlByte marker) := ⟨.inl rfl, rfl⟩
theorem lzwStart (w c : Nat) : Statement (.lzwStart w c) := ⟨.inl rfl, length_codeBits w c⟩
theorem lzwFirst (w c : Nat) : Statement (.lzwFirst w c) := ⟨.inl rfl, length_codeBits w c⟩
theorem lzwClear (w c : Nat) : Statement (.lzwClear w c) := ⟨.inl rfl, length_codeBits w c⟩
theorem lzwEoi (w c : Nat) : Statement (.lzwEoi w c) := ⟨.inl rfl, length_codeBits w c⟩
theorem lzwKnown (w c : Nat) : Statement (.lzwKnown w c) := ⟨.inl rfl, length_codeBits w c⟩
theorem lzwKwkwk (w c : Nat) : Statement (.lzwKwkwk w c) := ⟨.inl rfl, length_codeBits w c⟩
theorem lzwIllegal (w c : Nat) : Statement (.lzwIllegal w c) := ⟨.inl rfl, length_codeBits w c⟩

end Sys2Proof.Laws.EncodedLength
end

