-- ==== Sys2Proof/Laws/Step.lean ====
section
/-! SUPPORT. Everything a step can do, said once: each way a step can end, with what it takes. The rules about every step
follow from this list. -/

namespace Sys2Proof.Machine

/-- The ways a step from `s` can go to a next state. -/
inductive Way (s : State) : State → Prop
  /-- R182 -/
  | signature : s.state = .header → 6 ≤ s.avail → Way s ((s.advance 6).goto .lsd)
  /-- R183 -/
  | screen (w h : BitVec 16) (packed : Byte) : s.state = .lsd → 7 ≤ s.avail →
      Way s (State.goto
        { s.advance 7 with
          scrW := w, scrH := h, gctPresent := lsdGctFlag packed, gctRes := lsdResolution s.cfg packed }
        (if lsdGctFlag packed then .gct else .content))
  /-- R184 -/
  | globalTable (cs : List Color) : s.state = .gct → cs.length = tableEntries s.gctRes → 3 * cs.length ≤ s.avail →
      Way s (State.goto { s.advance (3 * cs.length) with gct := cs } .content)
  /-- R185 -/
  | lookahead (p : ParserState) : s.state = .content → 1 ≤ s.avail → p = .ext ∨ p = .imgDesc ∨ p = .trailer →
      Way s (s.goto p)
  /-- R186 -/
  | endOfStream : s.state = .content → s.avail = 0 → Way s ((s.warn .wEos).goto .done)
  /-- R198 -/
  | extension (p : ParserState) : s.state = .ext → 2 ≤ s.avail → p = .gce ∨ p = .ptae ∨ p = .comment →
      Way s ((s.advance 2).goto p)
  /-- R199 -/
  | control (d : BitVec 16) : s.state = .gce → 6 ≤ s.avail →
      Way s (State.goto { s.advance 6 with pendDelay := scaledDelay d } .content)
  /-- R200, R201, R202 -/
  | skipped (n : Nat) : s.state = .ptae ∨ s.state = .comment → 1 ≤ n → n ≤ s.avail → Way s ((s.advance n).goto .content)
  /-- R190 -/
  | descriptor (w h : BitVec 16) (packed : Byte) : s.state = .imgDesc → 10 ≤ s.avail →
      s.cfg.frameCap ≠ some s.frames.length →
      Way s (State.goto
        { s.advance 10 with
          frames := s.frames ++ [newFrame w h packed s.pendDelay s.gct], pendLct := idLctFlag packed }
        (if idLctFlag packed then .lct else .imgData))
  /-- R192 -/
  | localTable (f : Frame) (cs : List Color) : s.state = .lct → s.active = some f →
      cs.length = tableEntries f.res → 3 * cs.length ≤ s.avail →
      Way s (((s.advance (3 * cs.length)).updateActive fun g => { g with pal := cs, palValid := true }).goto .imgData)
  /-- R203 -/
  | trailer : s.state = .trailer → 1 ≤ s.avail →
      Way s ((((s.advance 1).warn .trailerSeen).warnIf (decide (0 < (s.advance 1).avail)) .wStray).goto .done)
  /-- R142 to R153, where a decode is taken code by code -/
  | code (p : CodePos) (t : State) : s.state = .imgData → s.lzwPos = some p → lzwTick p s = .ok t → LzwOnly s t →
      Way s t
  /-- R194: `u` is the state after the decode -/
  | image (u : State) (f : Frame) (rgb : List Byte) : s.state = .imgData → Worked s.inLen s u →
      (s.lzwPos = none → s.pos < u.pos ∧ u.pos ≤ s.inLen) → s.active = some f → materialize f.pal u.out = .ok rgb →
      Way s (u.withImage f rgb)
  /-- 60_exceptions.md R250: `u` is the state at the `raise` -/
  | faulted (u : State) (c : Cause) (sub : BitVec 4) (val : Nat) : s.state ≠ .done → s.state ≠ .fault →
      Worked s.inLen s u → c ≠ .none → c ≠ .unsupportedFeature → Way s (u.raise c sub val)
  /-- R199: "`PEND_DELAY` is written before the terminator is read" -/
  | controlFaulted (n : Nat) (d : BitVec 16) (c : Cause) (sub : BitVec 4) (val : Nat) : s.state = .gce →
      n ≤ s.avail → c ≠ .none → c ≠ .unsupportedFeature →
      Way s (State.raise { s.advance n with pendDelay := scaledDelay d } c sub val)

/-- `raise ReadFailure` with `n` bytes of the stream consumed. -/
theorem Way.short {s : State} (n : Nat) (hd : s.state ≠ .done) (hf : s.state ≠ .fault) (h : n ≤ s.avail) :
    Way s ((s.advance n).raise .readFailure 1 0) :=
  .faulted _ _ _ _ hd hf (Worked.advance_avail s n h) (by decide) (by decide)

/-- How a handler ends: in one of the ways, or nowhere because there is no frame. -/
def Flow.Goes (s : State) : Flow → Prop
  | .ok t => Way s t
  | .raised t => Way s t
  | .stuck r => r = .noActiveFrame ∧ s.frames = []

/-- A part that keeps to the working registers and then raises, or a raise on the way, is a fault of the step. -/
theorem Flow.Keeps.raised_goes {s : State} {x : Flow} {t : State} (hd : s.state ≠ .done) (hf : s.state ≠ .fault)
    (hx : x.Keeps (Worked s.inLen) s) (h : x = .raised t) : Way s t := by
  subst h
  obtain ⟨u, c, sub, val, hu, hc, hn, rfl⟩ := hx
  exact .faulted u c sub val hd hf hu hc hn

/-- Gathering and decoding, then the end of the image block. -/
theorem finishImage_goes {s : State} {x : Flow} (hs : s.state = .imgData) (hx : x.Keeps (Worked s.inLen) s)
    (hpos : s.lzwPos = none → ∀ u, x = .ok u → s.pos < u.pos ∧ u.pos ≤ s.inLen) : (x.bind State.finishImage).Goes s := by
  have hd : s.state ≠ .done := by simp [hs]
  have hf : s.state ≠ .fault := by simp [hs]
  cases hxe : x with
  | raised t => exact Flow.Keeps.raised_goes hd hf hx hxe
  | stuck r => rw [hxe] at hx; exact hx.elim
  | ok u =>
    rw [hxe] at hx
    have hw : Worked s.inLen s u := hx
    rw [Flow.ok_bind]
    rcases finishImage_cases u with ⟨ha, h⟩ | ⟨f, i, -, h⟩ | ⟨f, rgb, ha, hm, h⟩
    · rw [h]
      exact ⟨rfl, by rw [← hw.frames]; exact State.active_eq_none.mp ha⟩
    · rw [h]
      exact .faulted u _ _ _ hd hf hw (by decide) (by decide)
    · rw [h]
      exact .image u f rgb hs hw (fun hn => hpos hn u hxe) (hw.active ▸ ha) hm

/-- A step is one of the ways, or has none: in `DONE` and `FAULT`, and where an image block has no frame. -/
def Goes (s : State) : Prop :=
  (∃ t, step s = .next t ∧ Way s t) ∨
  (step s = .fault .runEnded ∧ (s.state = .done ∨ s.state = .fault)) ∨
  (step s = .fault .noActiveFrame ∧ s.frames = [] ∧ (s.state = .lct ∨ s.state = .imgData))

section
variable {s : State}

theorem Goes.next {t : State} (h : step s = .next t) (hw : Way s t) : Goes s := .inl ⟨t, h, hw⟩

theorem step_of_token {i : Instr} (h : s.fetch = .token i) : step s = exec i s := by simp only [step, h]

theorem step_of_reject {r : Reject} (h : s.fetch = .reject r) : step s = (answerReject r s).outcome := by
  simp only [step, h]

/-- A structure cut short after reads of `n` bytes. -/
theorem Goes.short (n : Nat) (hd : s.state ≠ .done) (hf : s.state ≠ .fault) (h : n ≤ s.avail)
    (hfetch : s.fetch = .reject (.short n)) : Goes s := .next (step_of_reject hfetch) (.short n hd hf h)

theorem Flow.Goes.step {x : Flow} (hs : s.state = .imgData) (h : Machine.step s = x.outcome) (hg : x.Goes s) :
    Machine.Goes s := by
  cases x with
  | ok t => exact .next h hg
  | raised t => exact .next h hg
  | stuck r =>
    obtain ⟨rfl, hfr⟩ := hg
    exact .inr (.inr ⟨h, hfr, .inr hs⟩)

theorem header_goes (hs : s.state = .header) : Goes s := by
  have hfetch : s.fetch = .ofDecode (decodeSig s.unread) := by simp only [State.fetch, State.place, hs, decodeBlock]
  rcases decodeSig_cases s.unread with ⟨hl, h | h | h⟩ | ⟨hl, h⟩ <;> rw [h] at hfetch
  · exact .next (step_of_token hfetch) (.signature hs (State.length_unread s ▸ hl))
  · exact .next (step_of_token hfetch) (.signature hs (State.length_unread s ▸ hl))
  · exact .next (step_of_reject hfetch) (.faulted _ _ _ _ (by simp [hs]) (by simp [hs])
      (Worked.advance_avail s 6 (State.length_unread s ▸ hl)) (by decide) (by decide))
  · exact .short 0 (by simp [hs]) (by simp [hs]) (Nat.zero_le _) hfetch

theorem lsd_goes (hs : s.state = .lsd) : Goes s := by
  have hfetch : s.fetch = .ofDecode (decodeLsd s.unread) := by simp only [State.fetch, State.place, hs, decodeBlock]
  rcases decodeLsd_cases s.unread with ⟨hl, w, h, p, _, _, hd⟩ | ⟨hl, hd⟩ <;> rw [hd] at hfetch
  · exact .next (step_of_token hfetch) (.screen w h p hs (State.length_unread s ▸ hl))
  · exact .short 0 (by simp [hs]) (by simp [hs]) (Nat.zero_le _) hfetch

theorem gct_goes (hs : s.state = .gct) : Goes s := by
  have hfetch : s.fetch = .ofDecode ((decodeTable s.gctRes s.unread).map Instr.gct) := by
    simp only [State.fetch, State.place, hs, decodeBlock]
  rcases decodeTable_cases s.gctRes s.unread with ⟨cs, hc, hl, hd⟩ | ⟨hl, hd⟩ <;> rw [hd] at hfetch
  · exact .next (step_of_token hfetch) (.globalTable cs hs hc (State.length_unread s ▸ hl))
  · exact .short _ (by simp [hs]) (by simp [hs]) (by rw [State.length_unread]; omega) hfetch

theorem content_goes (hs : s.state = .content) : Goes s := by
  have hfetch : s.fetch = .ofDecode (decodeIntro s.unread) := by simp only [State.fetch, State.place, hs, decodeBlock]
  rcases decodeIntro_cases s.unread with ⟨hl, h | h | h | ⟨b, h⟩⟩ | ⟨hl, h⟩ <;> rw [h] at hfetch
  · exact .next (step_of_token hfetch) (.lookahead .ext hs (State.length_unread s ▸ hl) (by simp))
  · exact .next (step_of_token hfetch) (.lookahead .imgDesc hs (State.length_unread s ▸ hl) (by simp))
  · exact .next (step_of_token hfetch) (.lookahead .trailer hs (State.length_unread s ▸ hl) (by simp))
  · exact .next (step_of_reject hfetch) (.faulted s _ _ _ (by simp [hs]) (by simp [hs]) (Worked.refl _ s) (by decide) (by decide))
  · exact .next (step_of_reject hfetch) (.endOfStream hs (by rw [← State.length_unread, hl]; rfl))

theorem imgDesc_goes (hs : s.state = .imgDesc) : Goes s := by
  have hfetch : s.fetch = .ofDecode (decodeImgDesc s.unread) := by
    simp only [State.fetch, State.place, hs, decodeBlock]
  rcases decodeImgDesc_cases s.unread with ⟨hl, b, l, t, w, h, p, hd⟩ | ⟨hl, hd⟩ <;> rw [hd] at hfetch
  · by_cases hc : s.cfg.frameCap = some s.frames.length
    · refine .next (t := (s.advance 10).raise .capacityExceeded 1 0) ?_ (.faulted _ _ _ _ (by simp [hs]) (by simp [hs])
        (Worked.advance_avail s 10 (State.length_unread s ▸ hl)) (by decide) (by decide))
      rw [step_of_token hfetch]
      simp [exec, execImgDesc, hc]
    · refine .next ?_ (.descriptor w h p hs (State.length_unread s ▸ hl) hc)
      rw [step_of_token hfetch]
      simp [exec, execImgDesc, hc]
  · exact .short 0 (by simp [hs]) (by simp [hs]) (Nat.zero_le _) hfetch

theorem lct_goes (hs : s.state = .lct) : Goes s := by
  cases ha : s.active with
  | none =>
    refine .inr (.inr ⟨?_, State.active_eq_none.mp ha, .inl hs⟩)
    simp only [step, State.fetch, State.place, hs, ha]
  | some f =>
    have hfetch : s.fetch = .ofDecode ((decodeTable f.res s.unread).map Instr.lct) := by
      simp only [State.fetch, State.place, hs, ha, decodeBlock]
    rcases decodeTable_cases f.res s.unread with ⟨cs, hc, hl, hd⟩ | ⟨hl, hd⟩ <;> rw [hd] at hfetch
    · refine .next ?_ (.localTable f cs hs ha hc (State.length_unread s ▸ hl))
      rw [step_of_token hfetch]
      simp [exec, execLct, ha]
    · exact .short _ (by simp [hs]) (by simp [hs]) (by rw [State.length_unread]; omega) hfetch

/-- Where a code stands next, the step is a tick of its place. -/
theorem step_eq_tick {p : CodePos} (hplace : s.place = .code p) : step s = (lzwTick p s).outcome := by
  cases hr : Sys2Proof.readCode s.pay s.bitOff s.w with
  | ok v =>
    obtain ⟨c, off⟩ := v
    rw [lzwTick_of_ok hr, execInstr_eq_tick]
    have hfetch : s.fetch = .token (((s.codeSlot p).classOf c).instr s.w c) := by
      simp only [State.fetch, hplace, decodeCode, decodeClass, State.codeSlot, hr, Fetched.ofDecode]
    rw [step_of_token hfetch]
    cases (s.codeSlot p).classOf c <;> rfl
  | error r =>
    have hfetch : s.fetch = .reject r := by
      simp only [State.fetch, hplace, decodeCode, decodeClass, State.codeSlot, hr, Fetched.ofDecode]
    rw [step_of_reject hfetch]
    rcases readCode_error hr with ⟨rfl, -⟩ | ⟨v, rfl, -, -⟩ <;>
      simp [lzwTick, State.readCode, hr, answerReject]

theorem tick_goes {p : CodePos} (hs : s.state = .imgData) (hp : s.lzwPos = some p) (hplace : s.place = .code p) :
    Goes s := by
  have hk := lzwTick_keeps p s
  have hstep := step_eq_tick hplace
  cases hx : lzwTick p s with
  | ok t =>
    rw [hx] at hk hstep
    exact Goes.next hstep (.code p t hs hp hx hk)
  | raised t =>
    rw [hx] at hk hstep
    obtain ⟨u, c, sub, val, hu, hc, hn, rfl⟩ := hk
    exact Goes.next hstep (.faulted u c sub val (by simp [hs]) (by simp [hs]) (hu.worked _) hc hn)
  | stuck r => rw [hx] at hk; exact hk.elim

/-- What a place of the code stream is. -/
theorem place_of_lzwPos (hs : s.state = .imgData) {p : CodePos} (hp : s.lzwPos = some p) :
    s.place = .code p ∨ (p = .loop ∧ s.moreCodes = false ∧ s.place = .imageEnd) := by
  cases p with
  | start => exact .inl (by simp only [State.place, hs, State.imagePlace, hp])
  | first => exact .inl (by simp only [State.place, hs, State.imagePlace, hp])
  | loop =>
    cases hm : s.moreCodes with
    | true => exact .inl (by simp [State.place, hs, State.imagePlace, hp, hm])
    | false => exact .inr ⟨rfl, rfl, by simp [State.place, hs, State.imagePlace, hp, hm]⟩

/-- A chain that the end of the stream cuts. -/
theorem cut_goes (hs : s.state = .imgData) {x : Flow} (hx : x.Keeps (Worked s.inLen) s)
    (h : step s = (x.bind State.streamFailure).outcome) : Goes s := by
  have hall : (x.bind State.streamFailure).Keeps (Worked s.inLen) s :=
    Flow.Keeps.bind (Worked.trans _) hx fun t _ => ⟨t, _, _, _, Worked.refl _ t, by decide, by decide, rfl⟩
  refine Flow.Goes.step hs h ?_
  cases hb : x.bind State.streamFailure with
  | ok t =>
    obtain ⟨u, -, hu⟩ := Flow.bind_eq_ok hb
    simp [State.streamFailure] at hu
  | raised t => exact Flow.Keeps.raised_goes (by simp [hs]) (by simp [hs]) hall hb
  | stuck r => rw [hb] at hall; exact hall.elim

theorem idata_goes (hs : s.state = .imgData) (hp : s.lzwPos = none) : Goes s := by
  have hlen := State.length_unread s
  have hfetch : s.fetch = .ofDecode (decodeIdata s.unread) := by
    simp only [State.fetch, State.place, hs, State.imagePlace, hp, decodeBlock]
  rcases decodeIdata_cases s.unread with ⟨m, bl, -, hl, hd⟩ | ⟨m, bl, hl, hd⟩ | ⟨m, bl, len, hl, hd⟩ | ⟨hl, hd⟩ <;>
    rw [hd] at hfetch
  · have hb : s.pos + (1 + chainLength bl) ≤ s.inLen := by
      rw [hlen, State.avail_eq] at hl
      simp only [chainLength] at *
      omega
    refine Flow.Goes.step hs (step_of_token hfetch) (finishImage_goes hs (gather_decode_keeps _ m bl s hb) ?_)
    intro _ u hu
    rw [gather_decode_pos hu]
    omega
  · rw [hlen, State.avail_eq] at hl
    have hg := gatherBlocks_keeps s.inLen bl (s.beginPayload m) (by simp; omega)
    exact cut_goes hs (Flow.Keeps.after (Worked.trans _) (beginPayload_worked s.inLen s m (by omega)) hg)
      (step_of_reject hfetch)
  · rw [hlen, State.avail_eq] at hl
    have hg := gatherBlocks_keeps s.inLen bl (s.beginPayload m) (by simp; omega)
    have hg := Flow.Keeps.after (Worked.trans _) (beginPayload_worked s.inLen s m (by omega)) hg
    refine cut_goes hs (x := (gatherBlocks bl (s.beginPayload m)).bind fun t => t.openBlock len.toNat) ?_
      (step_of_reject hfetch)
    cases hx : gatherBlocks bl (s.beginPayload m) with
    | ok t =>
      have hp := gatherBlocks_pos hx
      rw [hx] at hg
      simp only [State.beginPayload_pos] at hp
      exact Flow.Keeps.after (Worked.trans _) hg (openBlock_keeps _ _ t (by omega))
    | raised t => rw [hx] at hg; exact hg
    | stuck r => rw [hx] at hg; exact hg
  · exact .short 0 (by simp [hs]) (by simp [hs]) (Nat.zero_le _) hfetch

theorem imgData_goes (hs : s.state = .imgData) : Goes s := by
  cases hp : s.lzwPos with
  | none => exact idata_goes hs hp
  | some p =>
    rcases place_of_lzwPos hs hp with hplace | ⟨rfl, -, hplace⟩
    · exact tick_goes hs hp hplace
    · exact Flow.Goes.step (x := s.finishImage) hs (by simp only [step, State.fetch, hplace])
        (finishImage_goes (x := .ok s) hs (Worked.refl _ s) (by simp [hp]))

theorem ext_goes (hs : s.state = .ext) : Goes s := by
  have hfetch : s.fetch = .ofDecode (decodeExtHdr s.unread) := by
    simp only [State.fetch, State.place, hs, decodeBlock]
  rcases decodeExtHdr_cases s.unread with ⟨hl, b0, b1, h | h | h | h⟩ | ⟨hl, h⟩ <;> rw [h] at hfetch
  · exact .next (step_of_token hfetch) (.extension .gce hs (State.length_unread s ▸ hl) (by simp))
  · exact .next (step_of_token hfetch) (.extension .ptae hs (State.length_unread s ▸ hl) (by simp))
  · exact .next (step_of_token hfetch) (.extension .ptae hs (State.length_unread s ▸ hl) (by simp))
  · exact .next (step_of_token hfetch) (.extension .comment hs (State.length_unread s ▸ hl) (by simp))
  · exact .short 0 (by simp [hs]) (by simp [hs]) (Nat.zero_le _) hfetch

theorem gce_goes (hs : s.state = .gce) : Goes s := by
  have hfetch : s.fetch = .ofDecode (decodeGceBody s.unread) := by
    simp only [State.fetch, State.place, hs, decodeBlock]
  rcases decodeGceBody_cases s.unread with ⟨hl, b0, f, d, x, t, hd⟩ | ⟨hl, d, hd⟩ | ⟨hl, -, hd⟩ | ⟨hl, hd⟩ <;>
    rw [hd] at hfetch
  · by_cases ht : t = 0
    · refine .next ?_ (.control d hs (State.length_unread s ▸ hl))
      rw [step_of_token hfetch]
      simp [exec, execGceBody, ht]
    · refine .next ?_ (.controlFaulted 6 d .malformedStream 3 t.toNat hs (State.length_unread s ▸ hl) (by decide) (by decide))
      rw [step_of_token hfetch]
      simp only [exec, execGceBody, ne_eq, ht, not_false_eq_true, if_true]
  · exact .next (step_of_reject hfetch) (.controlFaulted 5 d .readFailure 1 0 hs (by rw [State.length_unread] at hl; omega) (by decide) (by decide))
  · exact .short 1 (by simp [hs]) (by simp [hs]) (State.length_unread s ▸ hl) hfetch
  · exact .short 0 (by simp [hs]) (by simp [hs]) (Nat.zero_le _) hfetch

theorem ptae_goes (hs : s.state = .ptae) : Goes s := by
  have hfetch : s.fetch = .ofDecode (decodeSubchain s.unread) := by
    simp only [State.fetch, State.place, hs, decodeBlock]
  rcases decodeSubchain_cases s.unread with ⟨bl, -, hl, hd⟩ | ⟨bl, hl, hd⟩ | ⟨bl, len, hl, hd⟩ <;> rw [hd] at hfetch
  · exact .next (step_of_token hfetch) (.skipped _ (.inl hs) (by simp [chainLength]) (State.length_unread s ▸ hl))
  · exact .next (step_of_reject hfetch) (.short _ (by simp [hs]) (by simp [hs]) (by rw [State.length_unread] at hl; omega))
  · exact .next (step_of_reject hfetch) (.short _ (by simp [hs]) (by simp [hs]) (by rw [State.length_unread] at hl; omega))

theorem comment_goes (hs : s.state = .comment) : Goes s := by
  have hfetch : s.fetch = .ofDecode (decodeSubchain s.unread) := by
    simp only [State.fetch, State.place, hs, decodeBlock]
  rcases decodeSubchain_cases s.unread with ⟨bl, -, hl, hd⟩ | ⟨bl, hl, hd⟩ | ⟨bl, len, hl, hd⟩ <;> rw [hd] at hfetch
  · exact .next (step_of_token hfetch) (.skipped _ (.inr hs) (by simp [chainLength]) (State.length_unread s ▸ hl))
  · exact .next (step_of_reject hfetch) (.short _ (by simp [hs]) (by simp [hs]) (by rw [State.length_unread] at hl; omega))
  · exact .next (step_of_reject hfetch) (.short _ (by simp [hs]) (by simp [hs]) (by rw [State.length_unread] at hl; omega))

theorem trailer_goes (hs : s.state = .trailer) : Goes s := by
  have hfetch : s.fetch = .ofDecode (decodeTrl s.unread) := by simp only [State.fetch, State.place, hs, decodeBlock]
  rcases decodeTrl_cases s.unread with ⟨hl, b, hd⟩ | ⟨hl, hd⟩ <;> rw [hd] at hfetch
  · by_cases hb : b = introTrl
    · refine .next ?_ (.trailer hs (State.length_unread s ▸ hl))
      rw [step_of_token hfetch]
      simp [exec, execTrlByte, hb]
    · refine .next ?_ (.faulted (s.advance 1) .malformedStream 2 b.toNat (by simp [hs]) (by simp [hs])
        (Worked.advance_avail s 1 (State.length_unread s ▸ hl)) (by decide) (by decide))
      rw [step_of_token hfetch]
      simp only [exec, execTrlByte, ne_eq, hb, not_false_eq_true, if_true]
  · exact .short 0 (by simp [hs]) (by simp [hs]) (Nat.zero_le _) hfetch

end

/-- Every step, by the state it starts in. -/
theorem step_goes (s : State) : Goes s := by
  cases hs : s.state with
  | header => exact header_goes hs
  | lsd => exact lsd_goes hs
  | gct => exact gct_goes hs
  | content => exact content_goes hs
  | imgDesc => exact imgDesc_goes hs
  | lct => exact lct_goes hs
  | imgData => exact imgData_goes hs
  | ext => exact ext_goes hs
  | gce => exact gce_goes hs
  | ptae => exact ptae_goes hs
  | comment => exact comment_goes hs
  | trailer => exact trailer_goes hs
  | done => exact .inr (.inl ⟨by simp only [step, State.fetch, State.place, hs], .inl hs⟩)
  | fault => exact .inr (.inl ⟨by simp only [step, State.fetch, State.place, hs], .inr hs⟩)

/-- Everything a step that goes on can do. -/
theorem step_cases {s t : State} (h : step s = .next t) : Way s t := by
  rcases step_goes s with ⟨u, hu, hw⟩ | ⟨hf, -⟩ | ⟨hf, -⟩
  · rw [h] at hu
    cases hu
    exact hw
  · rw [h] at hf; cases hf
  · rw [h] at hf; cases hf

end Sys2Proof.Machine
end

