-- ==== Sys2Proof/Tests/Slice0.lean ====
section
/-! SUPPORT. The model's own tests: ill-formed terms, words written out by hand, single steps with results from
95_test_vectors.md or from hand calculation, and for each statement with hypotheses a state that meets them. -/

namespace Sys2Proof.Tests

-- One theorem after another: each kernel evaluation waits for all before it, and many waiting at once take a thread each.
set_option Elab.async false
open Sys2Proof.Machine

/-! ### Small states -/

/-- A state with a stream bound and nothing read. -/
def streamState (p : ParserState) (bs : List Byte) : State :=
  { State.reset with state := p, mem := Memory.ofBytes 0 bs, inLen := bs.length }

/-- A decode under way with `MCS = 2` at its initial table, at a bit of a payload. -/
def codeState (p : CodePos) (pay : List Byte) (off : Nat) : State :=
  { State.reset with
    state := .imgData, lzwPos := some p, mcs := 2, w := 3, cc := 4, eoi := 5, dict := initialTable 4
    pay := pay, bitOff := off }

/-- The state after the codes 4 and 0 of payload `44 02 05` (T10). -/
def loopState : State := { codeState .loop [0x44, 0x02, 0x05] 6 with out := [0], prev := 0 }

/-- A frame of two Colors. -/
def frame0 : Frame :=
  { w := 2, h := 2, hasLct := false, res := 0, interlace := false, delayMs := 100
    pal := [⟨0, 0, 0⟩, ⟨255, 255, 255⟩], palValid := true, pix := [], npix := 0, pixValid := false }

/-- Whether an outcome is a next state with a property. -/
def nextIs (x : Host.Outcome State Fault Refusal) (f : State → Bool) : Bool :=
  match x with
  | .next t => f t
  | .fault _ => false
  | .refused _ => false

/-- Whether an outcome is a fault entry with these registers. -/
def faultIs (x : Host.Outcome State Fault Refusal) (c : Cause) (sub : BitVec 4) (val : BitVec 16) (pos : Nat) : Bool :=
  nextIs x fun t => t.state == .fault && t.cause == c && t.finfo == sub && t.fval == val && t.fpos == pos && t.pos == pos

/-! ### Well-formedness refuses -/

theorem test_wf_gct : (Instr.gct [⟨0, 0, 0⟩]).wf = false := by decide
theorem test_wf_lct : (Instr.lct []).wf = false := by decide
theorem test_wf_gce : (Instr.gce 0x2C).wf = false := by decide
theorem test_wf_pte : (Instr.pte 0x00).wf = false := by decide
theorem test_wf_app : (Instr.app 0x3B).wf = false := by decide
theorem test_wf_cmt_intro : (Instr.cmt 0x2C 0xFE).wf = false := by decide
theorem test_wf_cmt_labels :
    (Instr.cmt 0x21 0xF9).wf = false ∧ (Instr.cmt 0x21 0x01).wf = false ∧ (Instr.cmt 0x21 0xFF).wf = false := by decide
theorem test_wf_imgDesc : (Instr.imgDesc 0x21 0 0 1 1 0).wf = false := by decide
theorem test_wf_idata_empty : (Instr.idata 2 [[1], []]).wf = false := by decide
theorem test_wf_subchain_long : (Instr.subchain [List.replicate 256 0]).wf = false := by decide +kernel
theorem test_wf_codes_width :
    (Instr.lzwStart 0 0).wf = false ∧ (Instr.lzwFirst 13 0).wf = false ∧ (Instr.lzwClear 0 0).wf = false ∧
    (Instr.lzwEoi 13 0).wf = false := by decide
theorem test_wf_codes_value :
    (Instr.lzwKnown 3 8).wf = false ∧ (Instr.lzwKwkwk 12 4096).wf = false ∧ (Instr.lzwIllegal 1 2).wf = false := by decide

/-! ### Words written out by hand from 30_encoding.md -/

/-- R94: `GIF89a`. -/
theorem test_decode_sig : decodeBlock .sig [0x47, 0x49, 0x46, 0x38, 0x39, 0x61, 0xFF] = .ok .hdr89 := by decide
/-- R94: `GIF88a` is neither signature. -/
theorem test_decode_bad_sig : decodeBlock .sig [0x47, 0x49, 0x46, 0x38, 0x38, 0x61] = .error .badSignature := by decide
/-- R95, R92: low byte first. -/
theorem test_decode_lsd :
    decodeBlock .lsd [0x80, 0x02, 0xE0, 0x01, 0xF7, 0x00, 0x00] = .ok (.lsd 640 480 0xF7 0 0) := by decide
/-- R96: red, green, blue, index 0 first; the table of resolution 0 has two entries. -/
theorem test_decode_table :
    decodeBlock (.lct 0) [1, 2, 3, 4, 5, 6, 7] = .ok (.lct [⟨1, 2, 3⟩, ⟨4, 5, 6⟩]) := by decide
/-- R97. -/
theorem test_decode_intro :
    decodeBlock .intro [0x21] = .ok .ext ∧ decodeBlock .intro [0x3B] = .ok .trl ∧
    decodeBlock .intro [0x22] = .error (.badIntroducer 0x22) := by decide
/-- R98: the four kinds of label. -/
theorem test_decode_extHdr :
    decodeBlock .extHdr [0x21, 0xF9] = .ok (.gce 0x21) ∧ decodeBlock .extHdr [0x21, 0x01] = .ok (.pte 0x21) ∧
    decodeBlock .extHdr [0x21, 0xFF] = .ok (.app 0x21) ∧ decodeBlock .extHdr [0x21, 0x00] = .ok (.cmt 0x21 0x00) := by
  decide
/-- R99: the delay field at offsets 2 and 3. -/
theorem test_decode_gceBody :
    decodeBlock .gceBody [0x04, 0x09, 0x34, 0x12, 0x1F, 0x00] = .ok (.gceBody 4 9 0x1234 0x1F 0) := by decide
/-- R100: width at offsets 5 and 6, height at 7 and 8, the packed byte at 9. -/
theorem test_decode_imgDesc :
    decodeBlock .imgDesc [0x2C, 0, 0, 0, 0, 0x02, 0x01, 0x04, 0x03, 0x87] = .ok (.imgDesc 0x2C 0 0 0x0102 0x0304 0x87) := by
  decide
/-- R101, R102: two sub-blocks and the zero-length one. -/
theorem test_decode_idata : decodeBlock .idata [2, 1, 0x44, 2, 2, 5, 0, 0x3B] = .ok (.idata 2 [[0x44], [2, 5]]) := by decide
/-- R101. -/
theorem test_decode_subchain : decodeBlock .subchain [0, 0x21] = .ok (.subchain []) := by decide
/-- R103: the marker is not tested by the decoder. -/
theorem test_decode_trl : decodeBlock .trl [0x3C] = .ok (.trlByte 0x3C) := by decide
/-- R105, R106: bits 0 to 2 of byte 0x44 are 4, bits 3 to 5 are 0. -/
theorem test_decode_codes :
    decodeCode { pos := .start, off := 0, w := 3, cc := 4, eoi := 5, tsize := 6 } [0x44] = .ok (.lzwStart 3 4) ∧
    decodeCode { pos := .first, off := 3, w := 3, cc := 4, eoi := 5, tsize := 6 } [0x44] = .ok (.lzwFirst 3 0) := by
  decide
/-- R106: the order of the comparisons. -/
theorem test_classify :
    classify 4 5 6 4 = .clear ∧ classify 4 5 6 5 = .eoi ∧ classify 4 5 6 3 = .known ∧ classify 4 5 6 6 = .kwkwk ∧
    classify 4 5 6 7 = .illegal := by decide

/-! ### Single steps -/

/-- R182. -/
theorem test_step_hdr87 :
    nextIs (step (streamState .header [0x47, 0x49, 0x46, 0x38, 0x37, 0x61])) fun t => t.state == .lsd && t.pos == 6 := by
  decide +kernel
/-- R182: `InvalidHeader` with the six bytes consumed. -/
theorem test_step_bad_header :
    faultIs (step (streamState .header [0x47, 0x49, 0x46, 0x38, 0x38, 0x61])) .invalidHeader 0 0 6 := by decide +kernel
/-- R182, R64: five bytes are none. -/
theorem test_step_hdr89_short :
    faultIs (step (streamState .header [0x47, 0x49, 0x46, 0x38, 0x39])) .readFailure 1 0 0 := by decide +kernel
/-- R183, with `LSD_RES_LSB = 0`. -/
theorem test_step_lsd :
    nextIs (step (streamState .lsd [0x02, 0x01, 0x04, 0x03, 0x87, 9, 9])) fun t =>
      t.state == .gct && t.scrW == 0x0102 && t.scrH == 0x0304 && t.gctPresent && t.gctRes == 7 := by decide +kernel
/-- R183, with `LSD_RES_LSB = 4`: the resolution is written with the flag clear. -/
theorem test_step_lsd_high :
    nextIs (step { streamState .lsd [1, 0, 1, 0, 0x52, 0, 0] with cfg := { Config.standard with lsdRes := .bits6to4 } })
      fun t => t.state == .content && !t.gctPresent && t.gctRes == 5 := by decide +kernel
/-- R184. -/
theorem test_step_gct :
    nextIs (step (streamState .gct [0, 0, 0, 255, 255, 255])) fun t =>
      t.state == .content && t.gct == [⟨0, 0, 0⟩, ⟨255, 255, 255⟩] && t.pos == 6 := by decide +kernel
/-- R171: one whole triple was consumed. -/
theorem test_step_gct_short : faultIs (step (streamState .gct [0, 0, 0, 255])) .readFailure 1 0 3 := by decide +kernel
/-- R192. -/
theorem test_step_lct :
    nextIs (step { streamState .lct [1, 2, 3, 4, 5, 6] with frames := [{ frame0 with palValid := false, pal := [] }] })
      fun t => t.state == .imgData && t.frames == [{ frame0 with pal := [⟨1, 2, 3⟩, ⟨4, 5, 6⟩] }] := by decide +kernel
/-- R185: nothing is consumed. -/
theorem test_step_lookahead :
    nextIs (step (streamState .content [0x21])) (fun t => t.state == .ext && t.pos == 0) ∧
    nextIs (step (streamState .content [0x2C])) (fun t => t.state == .imgDesc && t.pos == 0) ∧
    nextIs (step (streamState .content [0x3B])) (fun t => t.state == .trailer && t.pos == 0) := by decide +kernel
/-- R185: the introducer that is none (scenario C). -/
theorem test_step_bad_introducer : faultIs (step (streamState .content [0x00])) .malformedStream 1 0 0 := by decide +kernel
/-- R186. -/
theorem test_step_end_of_stream :
    nextIs (step (streamState .content [])) fun t => t.state == .done && t.status == 1 := by decide +kernel
/-- R198. -/
theorem test_step_headers :
    nextIs (step (streamState .ext [0x21, 0xF9])) (fun t => t.state == .gce && t.pos == 2) ∧
    nextIs (step (streamState .ext [0x21, 0x01])) (fun t => t.state == .ptae && t.pos == 2) ∧
    nextIs (step (streamState .ext [0x21, 0xFF])) (fun t => t.state == .ptae && t.pos == 2) ∧
    nextIs (step (streamState .ext [0x21, 0xFE])) (fun t => t.state == .comment && t.pos == 2) := by decide +kernel
/-- R199, R107: the largest delay. -/
theorem test_step_gceBody :
    nextIs (step (streamState .gce [4, 0, 0xFF, 0xFF, 0, 0])) fun t =>
      t.state == .content && t.pendDelay.toNat == 655350 && t.pos == 6 := by decide +kernel
/-- R199: the terminator fault, after the delay was written. -/
theorem test_step_gceBody_terminator :
    (faultIs (step (streamState .gce [4, 0, 5, 0, 0, 7])) .malformedStream 3 7 6 &&
      nextIs (step (streamState .gce [4, 0, 5, 0, 0, 7])) fun t => t.pendDelay == 50) := by decide +kernel
/-- R190: a local table; the delay is copied and stays pending. -/
theorem test_step_imgDesc :
    nextIs (step { streamState .imgDesc [0x2C, 0, 0, 0, 0, 2, 0, 3, 0, 0xC1] with pendDelay := 50 }) fun t =>
      t.state == .lct && t.pendLct && t.pendDelay == 50 &&
      t.frames == [{ w := 2, h := 3, hasLct := true, res := 1, interlace := true, delayMs := 50, pal := []
                     palValid := false, pix := [], npix := 0, pixValid := false }] := by decide +kernel
/-- R190: a full frame store. -/
theorem test_step_imgDesc_full :
    faultIs (step { streamState .imgDesc [0x2C, 0, 0, 0, 0, 2, 0, 3, 0, 0] with
      cfg := { Config.standard with frameCap := some 0 } }) .capacityExceeded 1 0 10 := by decide +kernel
/-- R193, R194 on the payload of scenario A (T10, P1). -/
theorem test_step_idata :
    nextIs (step { streamState .imgData [2, 3, 0x44, 2, 5, 0] with frames := [frame0] }) fun t =>
      t.state == .content && t.status == 0 && t.pos == 6 &&
      t.frames == [{ frame0 with
        pix := [0, 0, 0, 255, 255, 255, 255, 255, 255, 0, 0, 0], npix := 4, pixValid := true }] := by decide +kernel
/-- T20 (scenario D): the first code is not the Clear Code. -/
theorem test_step_idata_no_clear :
    faultIs (step { streamState .imgData [2, 1, 0, 0] with frames := [frame0] }) .invalidLzwStream 1 0 4 := by decide +kernel
/-- R202. -/
theorem test_step_subchain :
    nextIs (step (streamState .comment [2, 0x68, 0x69, 1, 0, 0, 0x3B])) fun t => t.state == .content && t.pos == 6 := by
  decide +kernel
/-- R203 with stray bytes behind the marker. -/
theorem test_step_trailer :
    nextIs (step (streamState .trailer [0x3B, 0])) fun t => t.state == .done && t.status == 0b100010 && t.pos == 1 := by
  decide +kernel
/-- R203: another byte. -/
theorem test_step_trailer_marker : faultIs (step (streamState .trailer [0x3C])) .malformedStream 2 0x3C 1 := by decide +kernel
/-- R204. -/
theorem test_step_done :
    step (streamState .done [0]) = .fault .runEnded ∧ step (streamState .fault [0]) = .fault .runEnded := ⟨rfl, rfl⟩

/-- T10, first code. -/
theorem test_step_lzwStart :
    nextIs (step (codeState .start [0x44, 2, 5] 0)) fun t => t.bitOff == 3 && t.lzwPos == some .first && t.out == [] := by
  decide +kernel
/-- T10, second code. -/
theorem test_step_lzwFirst :
    nextIs (step (codeState .first [0x44, 2, 5] 3)) fun t =>
      t.bitOff == 6 && t.lzwPos == some .loop && t.out == [0] && t.prev == 0 && t.dict.length == 6 := by decide +kernel
/-- T23a: `c = TSIZE` right after a Clear Code. -/
theorem test_step_lzwFirst_range : faultIs (step (codeState .first [0x34] 3)) .codeOutOfRange 3 6 0 := by decide +kernel
/-- T10, third code: entry 6 is `[0, 1]`. -/
theorem test_step_lzwKnown :
    nextIs (step loopState) fun t => t.out == [0, 1] && t.dict[6]? == some [0, 1] && t.prev == 1 && t.w == 3 := by
  decide +kernel
/-- R154: the append that makes `TSIZE = 8` makes the width 4. -/
theorem test_step_lzwKnown_grow :
    nextIs (step { loopState with dict := initialTable 4 ++ [[0, 0]] }) fun t => t.dict.length == 8 && t.w == 4 := by
  decide +kernel
/-- T11, third code: 6 is the entry that does not exist yet, `[0, 0]`. -/
theorem test_step_lzwKwkwk :
    nextIs (step { codeState .loop [0x84, 0x5F] 6 with out := [0], prev := 0 }) fun t =>
      t.out == [0, 0, 0] && t.dict[6]? == some [0, 0] && t.prev == 6 := by decide +kernel
/-- T26: the previous entry is a reserved one. -/
theorem test_step_lzwKwkwk_empty :
    faultIs (step { codeState .loop [0xA4, 0x01] 6 with prev := 4 }) .invalidLzwStream 2 6 0 := by decide +kernel
/-- T12: the Clear Code in the middle takes the next code along. -/
theorem test_step_lzwClear :
    nextIs (step { codeState .loop [0x44, 0x18, 0x14] 9 with out := [0, 1], prev := 1, dict := initialTable 4 ++ [[0, 1]] })
      fun t => t.out == [0, 1, 1] && t.dict == initialTable 4 && t.bitOff == 15 && t.prev == 1 && t.w == 3 := by
  decide +kernel
/-- R149. -/
theorem test_step_lzwEoi :
    nextIs (step (codeState .loop [0x05] 0)) fun t => t.eoiSeen && t.out == [] && t.dict == initialTable 4 && t.bitOff == 3 := by
  decide +kernel
/-- T24: a code above the table. -/
theorem test_step_lzwIllegal :
    faultIs (step { codeState .loop [0xC4, 0x01] 6 with out := [0], prev := 0 }) .codeOutOfRange 4 7 0 := by decide +kernel

/-! ### States that meet the hypotheses of the statements -/

theorem witness_LaunchBindsAStreamOrRefusesIt :
    2 ^ 32 ≤ (List.replicate (2 ^ 32) (0 : Byte)).length ∧ ([0x47, 0x49] : List Byte).length < 2 ^ 32 := by
  constructor
  · rw [List.length_replicate]
  · decide

theorem witness_DecodingAnEncodedTokenGivesItBack :
    Slot.takes (.gct 7) (.gct (List.replicate 256 ⟨0, 0, 0⟩)) = true ∧ Slot.takes .extHdr (.cmt 0 0) = true ∧
    Slot.takes .subchain (.subchain [List.replicate 255 0]) = true ∧
    (Instr.idata 0 [[1]]).isCode = false ∧ (Instr.idata 0 [[1]]).wf = true := by decide +kernel

theorem witness_ADecodedTokenEncodesToTheBytesRead :
    decodeBlock .intro [0x2C] = .ok .img ∧ decodeBlock .trl [0, 1] = .ok (.trlByte 0) := by decide

theorem witness_CodesDecodeAndEncodeAlike :
    (∃ sl : CodeSlot, ∃ pay : List Byte, 1 ≤ sl.w ∧ sl.w ≤ 12 ∧ 4095 < 2 ^ sl.w ∧ sl.off + sl.w ≤ 8 * pay.length ∧
      codeBits sl.w 4095 = (List.range sl.w).map fun k => payBit pay (sl.off + k)) ∧
    decodeCode (loopState.codeSlot .loop) loopState.pay = .ok (.lzwKnown 3 1) :=
  ⟨⟨{ pos := .loop, off := 4, w := 12, cc := 4, eoi := 5, tsize := 6 }, [0xF0, 0xFF], by decide +kernel⟩,
    by decide +kernel⟩

theorem witness_ReadCodeAssemblesTheCode :
    8 * (codeState .loop [0x44] 6).pay.length < (codeState .loop [0x44] 6).bitOff + (codeState .loop [0x44] 6).w ∧
    (codeState .loop [0x44] 5).bitOff + (codeState .loop [0x44] 5).w ≤ 8 * (codeState .loop [0x44] 5).pay.length ∧
    { codeState .loop [0xFF, 0xFF] 0 with w := 13 }.bitOff + 13 ≤ 8 * 2 := by decide

theorem witness_EndOfInformationStopsTheDecode :
    loopState.state = .imgData ∧ loopState.lzwPos = some .loop := by decide

theorem witness_BytesAreLittleEndianAndBitsCountFromTheLow : ([0x44, 0x80] : List Byte)[15 / 8]? = some 0x80 := by decide

theorem witness_AStepRunsTheDecodedToken :
    ((streamState .trailer [0x3B]).place = .block .trl ∧
      decodeBlock .trl (streamState .trailer [0x3B]).unread = .ok (.trlByte 0x3B)) ∧
    (loopState.place = .code .loop ∧ decodeCode (loopState.codeSlot .loop) loopState.pay = .ok (.lzwKnown 3 1)) ∧
    ((streamState .trailer []).place = .block .trl ∧
      decodeBlock .trl (streamState .trailer []).unread = .error (.short 0)) ∧
    ((codeState .start [] 0).place = .code .start ∧
      decodeCode ((codeState .start [] 0).codeSlot .start) (codeState .start [] 0).pay = .error .shortPayload) ∧
    (codeState .loop [] 0).place = .imageEnd ∧ (streamState .done []).place = .nowhere .runEnded := by decide +kernel

theorem witness_AStepRunsTheTokenWhoseBytesStandAtPos :
    (streamState .trailer [0x3B]).place = .block .trl ∧ Slot.takes .trl (.trlByte 0x3B) = true ∧
    0 + (encodeBlock (.trlByte 0x3B)).length ≤ (streamState .trailer [0x3B]).inLen ∧
    ∀ k b, (encodeBlock (.trlByte 0x3B))[k]? = some b → Memory.read (streamState .trailer [0x3B]).mem (0 + k) = b := by
  refine ⟨by decide +kernel, by decide, by decide, fun k b h => ?_⟩
  match k with
  | 0 => simp only [encodeBlock, List.getElem?_cons_zero, Option.some.injEq] at h; subst h; decide
  | k + 1 => simp [encodeBlock] at h

/-- One word for each row that a table word can select (log 15). -/
theorem witness_APlacedTableWordRunsNext :
    Memory.wf State.reset.mem = true ∧ decodeTableWord 48 0x613738464947 = some .hdr87 ∧
    decodeTableWord 48 0x613938464947 = some .hdr89 ∧ decodeTableWord 8 0x21 = some .ext ∧
    decodeTableWord 8 0x2C = some .img ∧ decodeTableWord 8 0x3B = some .trl ∧
    decodeTableWord 16 0xF921 = some (.gce 0x21) ∧ decodeTableWord 16 0x0121 = some (.pte 0x21) ∧
    decodeTableWord 16 0xFF21 = some (.app 0x21) ∧ decodeTableWord 16 0x0021 = some (.cmt 0x21 0) := by decide +kernel

theorem witness_APlacedTableWordRunsNext_fields :
    decodeTableWord 0 0 = some (.lsd 0 0 0 0 0) ∧ decodeTableWord 48 0 = some (.gceBody 0 0 0 0 0) ∧
    decodeTableWord 80 0x2C = some (.imgDesc 0x2C 0 0 0 0 0) := by decide +kernel

theorem witness_ControlBodySetsThePendingDelay : (0 : Byte) = 0 ∧ (1 : Byte) ≠ 0 := by decide

theorem witness_ImageDescriptorAppendsAFrame :
    State.reset.cfg.frameCap ≠ some State.reset.frames.length ∧
    ({ Config.standard with frameCap := some 1 } : Config).frameCap =
      some { State.reset with frames := [frame0] }.frames.length := by decide

theorem witness_LocalTableGoesToTheActiveFrame :
    { State.reset with frames := [frame0] }.frames = [] ++ [frame0] ∧ State.reset.frames = [] := by decide

theorem witness_TrailerEndsTheRun : (0x3B : Byte) = 0x3B ∧ (0x3A : Byte) ≠ 0x3B := by decide

/-- The payload of T10, in a buffer that it fills exactly. -/
theorem witness_ImageDataStoresThePixels :
    ∃ (s : State) (mcs : Byte) (blocks : List (List Byte)) (fs : List Frame) (f : Frame) (v : State) (rgb : List Byte),
      s.frames = fs ++ [f] ∧ (∀ cap, s.cfg.payloadCap = some cap → blocks.flatten.length ≤ cap) ∧
      State.lzwDecode { s with pos := s.pos + (1 + chainLength blocks), mcs := mcs, pay := blocks.flatten } = .ok v ∧
      materialize f.pal v.out = .ok rgb := by
  let s : State :=
    { State.reset with
      state := .imgData, frames := [frame0], cfg := { Config.standard with payloadCap := some 3 } }
  let t : State := { s with pos := s.pos + (1 + chainLength [[0x44, 2, 5]]), mcs := 2, pay := [[0x44, 2, 5]].flatten }
  have h : ∃ v, t.lzwDecode = .ok v ∧ v.out = [0, 1, 1, 0] := by
    refine ⟨{ t with
      w := 4, cc := 4, eoi := 5, prev := 0, dict := initialTable 4 ++ [[0, 1], [1, 1], [1, 0]], bitOff := 20
      out := [0, 1, 1, 0], eoiSeen := true, lzwPos := some .loop }, ?_, rfl⟩
    decide +kernel
  obtain ⟨v, hv, ho⟩ := h
  refine ⟨s, 2, [[0x44, 2, 5]], [], frame0, v, [0, 0, 0, 255, 255, 255, 255, 255, 255, 0, 0, 0], rfl, ?_, hv, ?_⟩
  · intro cap hc
    cases hc
    decide
  · rw [ho]; decide

theorem witness_LzwInitSetsUpTheDecode : 11 < (12 : Byte).toNat ∧ (11 : Byte).toNat ≤ 11 := by decide

theorem witness_FirstCodeOfThePayloadMustClear :
    4 = (codeState .start [0x44, 2, 5] 0).cc ∧ 3 ≠ (codeState .start [0x44, 2, 5] 0).cc ∧
    ((codeState .start [] 0).state = .imgData ∧ (codeState .start [] 0).lzwPos = some .start ∧
      8 * (codeState .start [] 0).pay.length < (codeState .start [] 0).bitOff + (codeState .start [] 0).w) ∧
    (codeState .start [0x44, 2, 5] 0).state = .imgData ∧ (codeState .start [0x44, 2, 5] 0).lzwPos = some .start ∧
    readCode (codeState .start [0x44, 2, 5] 0).pay (codeState .start [0x44, 2, 5] 0).bitOff
      (codeState .start [0x44, 2, 5] 0).w = .ok (4, 3) := by decide +kernel

/-- A state with an output buffer of a finite size. -/
def withPixelCap (n : Nat) (s : State) : State := { s with cfg := { Config.standard with pixelCap := some n } }

/-- A code whose entry just fits, one that is one too many for the buffer, the first code without an entry, and a payload
that ends two bits into a code. -/
theorem witness_CodeAfterAClearCodeIsEmitted :
    ((withPixelCap 1 (codeState .first [0x44] 3)).dict[3]? = some [3] ∧
      ∀ cap, (withPixelCap 1 (codeState .first [0x44] 3)).cfg.pixelCap = some cap →
        (withPixelCap 1 (codeState .first [0x44] 3)).out.length + [3].length ≤ cap) ∧
    (codeState .first [0x44] 3).dict.length ≤ 6 ∧
    ((withPixelCap 0 (codeState .first [0x44] 3)).dict[3]? = some [3] ∧
      (withPixelCap 0 (codeState .first [0x44] 3)).cfg.pixelCap = some 0 ∧
      0 < (withPixelCap 0 (codeState .first [0x44] 3)).out.length + [3].length) ∧
    (8 * (codeState .first [0x44] 6).pay.length < (codeState .first [0x44] 6).bitOff + (codeState .first [0x44] 6).w ∧
      (codeState .first [0x44] 6).state = .imgData) ∧
    (codeState .first [0x44] 3).lzwPos = some .first ∧
    readCode (codeState .first [0x44] 3).pay (codeState .first [0x44] 3).bitOff (codeState .first [0x44] 3).w
      = .ok (0, 6) := by
  refine ⟨⟨by decide, fun cap hc => by cases hc; decide⟩, by decide, by decide, by decide, rfl, by decide⟩

/-- T12 and T25: the code after the Clear Code is there, or the payload ends. -/
theorem witness_ClearCodeResetsAndTakesTheNextCode :
    readCode [0x44, 0x18, 0x14] (9 + 3) ((2 : Byte).toNat + 1) = .ok (1, 15) ∧ (initialTable 4)[1]? = some [1] ∧
    8 * ([0x80, 0x00, 0x80] : List Byte).length < 16 + 8 + ((7 : Byte).toNat + 1) := by decide

theorem witness_KnownCodeEmitsAndAppends :
    (withPixelCap 2 loopState).dict[1]? = some [1] ∧ (withPixelCap 2 loopState).dict[loopState.prev]? = some [0] ∧
    (∀ cap, (withPixelCap 2 loopState).cfg.pixelCap = some cap → (withPixelCap 2 loopState).out.length + (0 + 1) ≤ cap) ∧
    ((withPixelCap 1 loopState).cfg.pixelCap = some 1 ∧ 1 < (withPixelCap 1 loopState).out.length + (0 + 1)) :=
  ⟨by decide, by decide, fun cap hc => by cases hc; decide, by decide⟩

theorem witness_KwKwKBuildsTheEntryItNames :
    (withPixelCap 3 loopState).dict[loopState.prev]? = some [0] ∧
    (∀ cap, (withPixelCap 3 loopState).cfg.pixelCap = some cap → (withPixelCap 3 loopState).out.length + (0 + 2) ≤ cap) ∧
    { loopState with prev := 4 }.dict[{ loopState with prev := 4 }.prev]? = some [] ∧
    ((withPixelCap 2 loopState).dict[loopState.prev]? = some [0] ∧ (withPixelCap 2 loopState).cfg.pixelCap = some 2 ∧
      2 < (withPixelCap 2 loopState).out.length + ([0].length + 1)) :=
  ⟨by decide, fun cap hc => by cases hc; decide, by decide, by decide⟩

/-- A code in the loop, fewer bits than the width, no bit at all, and a decode that met its End-of-Information Code. -/
theorem witness_LoopCodesAreClassedInOrder :
    (loopState.state = .imgData ∧ loopState.lzwPos = some .loop ∧ loopState.bitOff < 8 * loopState.pay.length ∧
      loopState.eoiSeen = false ∧ readCode loopState.pay loopState.bitOff loopState.w = .ok (1, 9)) ∧
    (22 < 8 * loopState.pay.length ∧ 8 * loopState.pay.length < 22 + loopState.w) ∧
    8 * loopState.pay.length ≤ { loopState with bitOff := 24 }.bitOff ∧
    { loopState with eoiSeen := true }.eoiSeen = true := by decide +kernel

theorem witness_handlers :
    (streamState .header []).state = .header ∧ (streamState .lsd []).state = .lsd ∧ (streamState .gct []).state = .gct ∧
    (streamState .content []).state = .content ∧ (streamState .ext []).state = .ext ∧
    (streamState .imgDesc []).state = .imgDesc ∧ (streamState .lct []).state = .lct ∧
    (streamState .gce []).state = .gce ∧ (streamState .trailer []).state = .trailer ∧
    (streamState .ptae []).state = .ptae ∧ (streamState .comment []).state = .comment := by decide

theorem witness_ImageDataStepIsTheHandler :
    (streamState .imgData []).state = .imgData ∧ (streamState .imgData []).lzwPos = none := by decide

theorem witness_StreamReadsAreAllOrNothing :
    (streamState .lsd []).unread = [] ∧ (streamState .lsd [7, 8]).unread = [7, 8] ∧
    1 < (streamState .lsd [7, 8]).avail ∧ 0 + 2 ≤ (streamState .lsd [7, 8]).inLen ∧ (streamState .lsd [7, 8]).inLen < 1 + 2 ∧
    2 ≤ (streamState .lsd [7, 8]).unread.length ∧ (streamState .lsd [7, 8]).unread.length < 3 := by decide +kernel

theorem witness_ColorTableReaderReadsExactly :
    3 * 2 ^ ((0 : BitVec 3).toNat + 1) ≤ (streamState .gct [1, 2, 3, 4, 5, 6]).unread.length ∧
    (streamState .gct [1, 2, 3, 4, 5]).unread.length < 3 * 2 ^ ((0 : BitVec 3).toNat + 1) := by decide +kernel

theorem witness_MaterialisationMapsEveryIndex :
    (∀ i ∈ [0, 1], i < frame0.pal.length) ∧
    ([0, 2, 7] = [0] ++ 2 :: [7] ∧ (∀ k ∈ [0], k < frame0.pal.length) ∧ frame0.pal.length ≤ 2 ∧
      { loopState with frames := [frame0], out := [0, 2, 7] }.frames = [] ++ [frame0] ∧
      { loopState with frames := [frame0], out := [0, 2, 7] }.out = [0, 2, 7]) := by decide

/-- For the rules about every step: a step that goes on, one that faults, and one that takes code by code. -/
theorem witness_every_step :
    nextIs (step (streamState .content [0x21])) (fun t => t.state == .ext) ∧
    nextIs (step (streamState .lsd [])) (fun t => t.state == .fault) ∧
    nextIs (step loopState) (fun t => t.state == .imgData) ∧
    (streamState .content []).flag .wEos = false ∧
    nextIs (step (streamState .content [])) (fun t => t.flag .wEos) := by decide +kernel

/-- An end state, a state that needs no frame and has none, and one that needs a frame and has it. -/
theorem witness_OnlyTheEndStatesHaveNoStep :
    (streamState .done []).state = .done ∧
    ((streamState .gct []).state ≠ .done ∧ (streamState .gct []).state ≠ .fault ∧
      ((streamState .gct []).state = .lct ∨ (streamState .gct []).state = .imgData → (streamState .gct []).frames ≠ [])) ∧
    ((streamState .lct []).state ≠ .done ∧ (streamState .lct []).state ≠ .fault ∧
      { streamState .lct [] with frames := [frame0] }.frames ≠ []) := by decide

theorem witness_TheCoreNeverWritesItsInput :
    exec .ext State.reset = .next { State.reset with state := .ext } := rfl

theorem witness_StepsKeepTheStreamInvariant : StreamOk (streamState .content [0x21]) :=
  ⟨by decide +kernel, by decide +kernel, by decide, by decide⟩

/-- The frame store while a local table is awaited: the state that the invariant says most about. -/
theorem witness_StepsKeepTheFrameStoreInvariant :
    FrameStoreOk { streamState .lct [1, 2, 3, 4, 5, 6] with
      pendLct := true, frames := [{ frame0 with hasLct := true, palValid := false, pal := [] }] } where
  records := by
    intro f hf
    simp only [List.mem_singleton] at hf
    subst hf
    exact ⟨rfl, .inl rfl, fun _ => ⟨rfl, rfl, rfl⟩, fun _ => ⟨rfl, rfl⟩⟩
  earlier := by simp
  complete := by simp [streamState, ParserState.betweenBlocks]
  faulted := by simp [streamState]
  awaitsLct := fun _ => ⟨_, rfl, rfl, rfl, rfl⟩
  awaitsPix := by simp [streamState]
  pending := by
    intro f hf
    simp only [State.active, List.getLast?_singleton, Option.some.injEq] at hf
    subst hf
    rfl
  global := .inl rfl
  prologue := by simp [streamState, ParserState.inPrologue]

/-- A frame that is finished, and after it one whose image data is in the stream. -/
def secondImage : State :=
  { streamState .imgData [2, 3, 0x44, 2, 5, 0] with
    frames := [{ frame0 with pix := [1, 2, 3], npix := 1, pixValid := true }, frame0] }

theorem witness_FinishedFramesAreImmutable :
    FrameStoreOk secondImage ∧ nextIs (step secondImage) (fun t => t.frames[1]? != secondImage.frames[1]?) ∧
    ∃ f, secondImage.frames[0]? = some f ∧ f.pixValid = true ∧ f.palValid = true := by
  refine ⟨?_, by decide +kernel, _, rfl, rfl, rfl⟩
  constructor
  case records =>
    intro f hf
    simp only [secondImage, List.mem_cons, List.not_mem_nil, or_false] at hf
    rcases hf with rfl | rfl <;> exact ⟨rfl, .inr (by decide), by decide, by decide⟩
  case earlier => simp [secondImage, frame0]
  case complete => simp [secondImage, streamState, ParserState.betweenBlocks]
  case faulted => simp [secondImage, streamState]
  case awaitsLct => simp [secondImage, streamState]
  case awaitsPix => exact fun _ => ⟨frame0, rfl, rfl, rfl⟩
  case pending =>
    intro f hf
    cases hf
    rfl
  case global => exact .inl rfl
  case prologue => simp [secondImage, streamState, ParserState.inPrologue]

theorem witness_StepsKeepTheEndInvariant : EndOk (streamState .content [0x21]) where
  cause := by decide
  reserved := by decide
  location := by decide
  ended := by decide
  running := fun _ => by decide

/-- The set-up of `MCS = 2`, and a state of the loop whose table has grown. -/
theorem witness_CodesKeepTheLzwInvariant :
    (∃ t, State.lzwInit { State.reset with state := .imgData, mcs := 2 } = .ok t) ∧ LzwOk loopState .loop := by
  refine ⟨⟨_, rfl⟩, ?_⟩
  refine ⟨rfl, by decide, rfl, rfl, by decide, by decide, by decide, by decide, ?_, by decide, by decide, by decide, by decide,
    by decide⟩
  intro i e hi he
  have : loopState.dict.length = 6 := rfl
  have h6 : i < loopState.dict.length := (List.getElem?_eq_some_iff.mp he).1
  have h5 : loopState.eoi = 5 := rfl
  omega

theorem witness_EveryRunEnds :
    (streamState .imgData []).lzwPos = none ∧ { streamState .imgData [] with frames := [frame0] }.frames ≠ [] ∧
    launch Config.standard [0x47] = .next { streamState .header [0x47] with cfg := Config.standard } :=
  ⟨by decide, by decide, rfl⟩

theorem witness_CodeByCodeIsTheWholeImageStep :
    ∃ (s g u : State), s.state = .imgData ∧ gather 2 [[0x44, 2, 5]] s = .ok g ∧ g.lzwInit = .ok u :=
  ⟨{ State.reset with state := .imgData, frames := [frame0] }, _, _, rfl, rfl, rfl⟩

/-- The codes of T10 without and with the first Clear Code: data `[0, 1, 1, 0]` in codes 0, 1, 1, 0; and the End-of-Information
Code is written. -/
theorem witness_WhatAConformingEncoderWritesDecodes :
    Writes 4 [4, 0, 1, 1, 0] [] [0, 1, 1, 0] ∧ packBits (payloadBits 2 true [4, 0, 1, 1, 0]) = [0x44, 0x02, 0x05] ∧
    2 ≤ (2 : Byte).toNat ∧ (2 : Byte).toNat ≤ 11 ∧ State.reset.cfg.pixelCap = none ∧
    (payloadBits 2 false [4, 0, 1, 1, 0, 0]).length % 8 ≠ 0 := by
  refine ⟨?_, by decide +kernel, by decide, by decide, rfl, by decide⟩
  refine ⟨⟨0, [1, 1, 0], rfl, by decide⟩, ?_⟩
  refine ⟨[0], [1, 1, 0], rfl, by decide, rfl, ?_⟩
  refine ⟨[1], [1, 0], rfl, by decide, rfl, ?_⟩
  refine ⟨[1], [0], rfl, by decide, rfl, ?_⟩
  exact ⟨[0], [], rfl, by decide, rfl, rfl⟩

theorem witness_WorkingRegistersCannotBeObserved : (streamState .imgData [2, 0]).lzwPos = none := by decide

/-- A payload of three bytes that fills its buffer exactly. -/
theorem witness_SubBlockBoundariesDoNotMatter :
    let s : State :=
      { State.reset with state := .imgData, frames := [frame0], cfg := { Config.standard with payloadCap := some 3 } }
    (∀ cap, s.cfg.payloadCap = some cap → ([[0x44, 2, 5]] : List (List Byte)).flatten.length ≤ cap) ∧
    [[0x44, 2, 5]].flatten = ([[0x44], [2, 5]] : List (List Byte)).flatten ∧
    nextIs (exec (.idata 2 [[0x44, 2, 5]]) s) (fun t => t.state == .content) :=
  ⟨fun cap hc => by cases hc; decide, by decide, by decide +kernel⟩

theorem witness_FlipMirrorsRowsAndUndoesItself :
    ([1, 2, 3, 4, 5, 6] : List Byte).length = 3 * 1 * 2 ∧ ([] : List Byte).length ≠ 3 * 1 * 1 ∧
    1 < 2 ∧ 0 < 1 ∧ 2 < 3 ∧ (frame0.pix.length = 3 * frame0.npix ∧ frame0.npix ≠ frame0.w.toNat * frame0.h.toNat) ∧
    { streamState .done [] with frames := [frame0] }.ended = true ∧
    { streamState .done [] with frames := [frame0] }.frames[0]? = some frame0 := by
  decide

/-- R236's example, under the parameter of a load: the frame of the right size is mirrored, the other is refused (R235). -/
theorem test_load_flip :
    State.loadPixels true
      { streamState .done [] with
        frames := [{ frame0 with w := 1, h := 2, pix := [1, 2, 3, 4, 5, 6], npix := 2, pixValid := true }, frame0] }
      = .ok [.ok [4, 5, 6, 1, 2, 3], .error .flipLength] := rfl

/-- The elapsed time equal to the delay, and one more. -/
theorem witness_AnimatorAdvancesWhenTheDelayIsExceeded :
    [frame0][(Animator.start 0).cur]? = some frame0 ∧ 100 - (Animator.start 0).last ≤ frame0.delayMs.toNat ∧
    frame0.delayMs.toNat < 101 - (Animator.start 0).last := by decide

end Sys2Proof.Tests
end

section
/-! PROOFS. Reset (10_state.md R46): every register of the table at its value, whatever the state before. -/

namespace Sys2Proof.Machine

/-- What the host can read after reset does not depend on the parameters fixed when the hardware was built. -/
theorem State.view_resetWith (cfg : Config) : (State.resetWith cfg).view = State.reset.view := rfl

/-- Settles O1: reset is `resetWith` of the state's own parameters, and each register of R46 is a field of it. -/
theorem resetGivesTheTableOfResetValues : Obligations.ResetGivesTheTableOfResetValues := by
  intro s
  rw [State.hostReset, State.view_resetWith]
  and_intros <;> rfl

end Sys2Proof.Machine
end

section
/-! PROOFS. The working registers cannot be observed (10_state.md R40). Two runs of an image block are compared part by part:
the payload is gathered anew, so from there on the two states differ at most in the LZW registers; `LzwInit` writes all of
those but `PREV`; and the first code writes `PREV` before any code of the main loop reads it. No other handler looks at a
working register. -/

namespace Sys2Proof.Machine

/-! ### Two parts of a handler that end alike -/

/-- The two states show the host the same registers. -/
def SameView (s t : State) : Prop := s.view = t.view

/-- Two parts end in the same way: both go on, from states that `R` relates; both raised, and the host sees the same; or both
stand where no run leads, for the same reason. -/
inductive Flow.Agree (R : State → State → Prop) : Flow → Flow → Prop
  | ok {s t : State} : R s t → Agree R (.ok s) (.ok t)
  | raised {s t : State} : SameView s t → Agree R (.raised s) (.raised t)
  | stuck (r : Fault) : Agree R (.stuck r) (.stuck r)

theorem Flow.Agree.refl {R : State → State → Prop} (hR : ∀ s, R s s) (x : Flow) : x.Agree R x := by
  cases x with
  | ok s => exact .ok (hR s)
  | raised s => exact .raised rfl
  | stuck r => exact .stuck r

theorem Flow.Agree.bind {R Q : State → State → Prop} {x y : Flow} {f g : State → Flow} (h : x.Agree R y)
    (hfg : ∀ s t, R s t → (f s).Agree Q (g t)) : (x.bind f).Agree Q (y.bind g) := by
  cases h with
  | ok h => exact hfg _ _ h
  | raised h => exact .raised h
  | stuck r => exact .stuck r

/-- Two parts that branch on one test. -/
theorem Flow.Agree.ite {R : State → State → Prop} {c : Prop} [Decidable c] {x x' y y' : Flow} (h : x.Agree R y)
    (h' : x'.Agree R y') : (if c then x else x').Agree R (if c then y else y') := by
  split
  · exact h
  · exact h'

theorem Flow.Agree.visible_outcome {x y : Flow} (h : x.Agree SameView y) : visible x.outcome = visible y.outcome := by
  cases h with
  | ok h => exact congrArg Host.Outcome.next h
  | raised h => exact congrArg Host.Outcome.next h
  | stuck r => rfl

theorem SameView.raise {s t : State} (h : SameView s t) (c : Cause) (sub : BitVec 4) (val : Nat) :
    SameView (s.raise c sub val) (t.raise c sub val) := by
  have hview (u : State) : (u.raise c sub val).view =
      { u.view with
        state := ParserState.fault.code, cause := c.code, finfo := sub, fval := BitVec.ofNat 16 val
        fstate := u.view.state, fpos := u.view.pos } := rfl
  rw [SameView, hview, hview, h]

theorem SameView.goto {s t : State} (h : SameView s t) (p : ParserState) : SameView (s.goto p) (t.goto p) := by
  have hview (u : State) : (u.goto p).view = { u.view with state := p.code } := rfl
  rw [SameView, hview, hview, h]

theorem SameView.warnIf {s t : State} (h : SameView s t) (c : Bool) (f : StatusFlag) :
    SameView (s.warnIf c f) (t.warnIf c f) := by
  have hview (u : State) : (u.warn f).view = { u.view with status := u.view.status ||| (1 <<< f.bit) } := rfl
  cases c with
  | false => exact h
  | true =>
    show (s.warn f).view = (t.warn f).view
    rw [hview, hview, h]

/-! ### Gathering: the LZW registers are not looked at -/

theorem LzwOnly.sameView {s t : State} (h : LzwOnly s t) : SameView s t := by rw [h]; rfl

theorem LzwOnly.advance {s t : State} (h : LzwOnly s t) (n : Nat) : LzwOnly (s.advance n) (t.advance n) := by
  rw [h]; rfl

theorem LzwOnly.streamFailure {s t : State} (h : LzwOnly s t) : s.streamFailure.Agree SameView t.streamFailure :=
  .raised (h.sameView.raise .readFailure 1 0)

theorem LzwOnly.openBlock {s t : State} (h : LzwOnly s t) (n : Nat) : (s.openBlock n).Agree LzwOnly (t.openBlock n) := by
  simp only [State.openBlock, State.advance_cfg, State.payLen_eq, State.advance_pay, h.cfg, h.pay]
  exact .ite (.raised ((h.advance 1).sameView.raise ..)) (.ok (h.advance 1))

theorem LzwOnly.gatherBlocks {s t : State} (h : LzwOnly s t) (blocks : List (List Byte)) :
    (gatherBlocks blocks s).Agree LzwOnly (gatherBlocks blocks t) := by
  induction blocks generalizing s t with
  | nil => exact .ok h
  | cons b bs ih =>
    refine Flow.Agree.bind (h.openBlock b.length) fun u v huv => ih ?_
    rw [huv]; rfl

/-- `MCS` and `PAY` are written before the first sub-block. -/
theorem beginPayload_lzwOnly (s other : State) (mcs : Byte) :
    LzwOnly (s.beginPayload mcs) ((s.withWorking other).beginPayload mcs) := rfl

theorem gather_agree (mcs : Byte) (blocks : List (List Byte)) (s other : State) :
    (gather mcs blocks s).Agree LzwOnly (gather mcs blocks (s.withWorking other)) :=
  ((beginPayload_lzwOnly s other mcs).gatherBlocks blocks).bind fun _ _ huv => .ok (huv.advance 1)

/-! ### Decoding: `PREV` is written before it is read -/

/-- The two states differ at most in `PREV`, and not at all in the main loop, where it is read. -/
structure PrevUnread (s t : State) : Prop where
  same : t = { s with prev := t.prev }
  loop : s.lzwPos = some .loop → t = s

theorem PrevUnread.refl (s : State) : PrevUnread s s := ⟨rfl, fun _ => rfl⟩

theorem LzwOnly.lzwInit {s t : State} (h : LzwOnly s t) : s.lzwInit.Agree PrevUnread t.lzwInit := by
  simp only [State.lzwInit, h.mcs]
  refine .ite (.raised (h.sameView.raise ..)) (.ok ⟨?_, fun hloop => by simp [State.dictInit] at hloop⟩)
  rw [h]; rfl

theorem startEffect_agree (c : Nat) (s : State) (v : Nat) :
    (startEffect c s).Agree PrevUnread (startEffect c { s with prev := v }) :=
  .ite (.raised rfl) (.ok ⟨rfl, fun hloop => by simp at hloop⟩)

/-- The first code writes `PREV`, so the two states are one after it. -/
theorem firstEffect_agree (c : Nat) (s : State) (v : Nat) :
    (firstEffect c s).Agree PrevUnread (firstEffect c { s with prev := v }) := by
  have hemit : (s.emit (s.entry c)).Agree (fun t u => u = { t with prev := v })
      (State.emit { s with prev := v } (s.entry c)) := .ite (.raised rfl) (.ok rfl)
  refine .ite (.raised rfl) (hemit.bind fun t u htu => .ok ?_)
  rw [htu]
  exact PrevUnread.refl _

/-- Before the main loop a tick does not read `PREV`. -/
theorem lzwTick_agree {p : CodePos} (hp : p ≠ .loop) (s : State) (v : Nat) :
    (lzwTick p s).Agree PrevUnread (lzwTick p { s with prev := v }) := by
  cases hr : Sys2Proof.readCode s.pay s.bitOff s.w with
  | error r =>
    rcases readCode_error hr with ⟨rfl, -⟩ | ⟨c, rfl, -, -⟩ <;> simp only [lzwTick, State.readCode, hr] <;>
      exact .raised rfl
  | ok found =>
    obtain ⟨c, off⟩ := found
    rw [lzwTick_of_ok hr, lzwTick_of_ok (s := { s with prev := v }) hr]
    cases p with
    | start => exact startEffect_agree c (s.advanceBits s.w) v
    | first => exact firstEffect_agree c (s.advanceBits s.w) v
    | loop => exact absurd rfl hp

theorem PrevUnread.lzwRun {s t : State} (h : PrevUnread s t) (n : Nat) : (lzwRun n s).Agree PrevUnread (lzwRun n t) := by
  induction n generalizing s t with
  | zero => exact .ok h
  | succ n ih =>
    have early (p : CodePos) (hp : p ≠ .loop) :
        ((lzwTick p s).bind (Machine.lzwRun n)).Agree PrevUnread ((lzwTick p t).bind (Machine.lzwRun n)) := by
      rw [h.same]
      exact (lzwTick_agree hp s t.prev).bind fun _ _ huv => ih huv
    have hpos : t.lzwPos = s.lzwPos := by rw [h.same]
    cases hs : s.lzwPos with
    | none => simpa only [Machine.lzwRun, hpos, hs] using Flow.Agree.ok h
    | some p =>
      cases p with
      | start => simpa only [Machine.lzwRun, hpos, hs] using early .start (by decide)
      | first => simpa only [Machine.lzwRun, hpos, hs] using early .first (by decide)
      | loop =>
        rw [h.loop hs]
        exact Flow.Agree.refl PrevUnread.refl _

theorem LzwOnly.lzwDecode {s t : State} (h : LzwOnly s t) : s.lzwDecode.Agree PrevUnread t.lzwDecode := by
  refine h.lzwInit.bind fun u v huv => ?_
  have hpay : v.payLen = u.payLen := by rw [huv.same]; rfl
  rw [hpay]
  exact huv.lzwRun _

/-! ### The end of the image block: `PREV` is not looked at -/

theorem SameView.imageWarnings {s t : State} (h : SameView s t) (heoi : t.eoiSeen = s.eoiSeen) (hout : t.out = s.out)
    (f : Frame) : SameView (s.imageWarnings f) (t.imageWarnings f) := by
  simp only [State.imageWarnings, heoi, hout]
  exact ((h.warnIf ..).warnIf ..).warnIf ..

theorem sameView_withImage (s : State) (v : Nat) (f : Frame) (rgb : List Byte) :
    SameView (s.withImage f rgb) (State.withImage { s with prev := v } f rgb) :=
  (SameView.imageWarnings (s := s.updateActive _) (t := State.updateActive { s with prev := v } _) rfl rfl rfl f).goto
    .content

theorem finishImage_agree (s : State) (v : Nat) :
    s.finishImage.Agree SameView (State.finishImage { s with prev := v }) := by
  have hactive : State.active { s with prev := v } = s.active := rfl
  unfold State.finishImage
  rw [hactive]
  cases s.active with
  | none => exact .stuck .noActiveFrame
  | some f =>
    cases hm : materialize f.pal s.out with
    | error i => simp only [hm]; exact .raised rfl
    | ok rgb =>
      simp only [hm]
      exact .ok (sameView_withImage s v f rgb)

/-! ### A whole step -/

/-- Two meanings that branch on one test. -/
theorem visible_ite {c : Prop} [Decidable c] {x x' y y' : Host.Outcome State Fault Refusal} (h : visible x = visible y)
    (h' : visible x' = visible y') : visible (if c then x else x') = visible (if c then y else y') := by
  split
  · exact h
  · exact h'

theorem execIdata_visible (mcs : Byte) (blocks : List (List Byte)) (s other : State) :
    visible (execIdata mcs blocks s) = visible (execIdata mcs blocks (s.withWorking other)) := by
  refine Flow.Agree.visible_outcome (((gather_agree mcs blocks s other).bind fun _ _ h => h.lzwDecode).bind ?_)
  intro u v huv
  rw [huv.same]
  exact finishImage_agree u v.prev

/-- No container token has a meaning that lets the host see a working register. -/
theorem exec_visible {i : Instr} (hi : i.isCode = false) (s other : State) :
    visible (exec i s) = visible (exec i (s.withWorking other)) := by
  cases i with
  | idata mcs blocks => exact execIdata_visible mcs blocks s other
  | lct entries =>
    have hactive : (s.withWorking other).active = s.active := rfl
    simp only [exec, execLct, hactive]
    split <;> rfl
  | gceBody _ _ _ _ _ => exact visible_ite rfl rfl
  | imgDesc _ _ _ _ _ _ => exact visible_ite rfl rfl
  | trlByte _ =>
    have hseen : SameView ((s.advance 1).warn .trailerSeen) (((s.withWorking other).advance 1).warn .trailerSeen) := rfl
    exact visible_ite rfl (congrArg Host.Outcome.next ((hseen.warnIf ..).goto .done))
  | lzwStart _ _ | lzwFirst _ _ | lzwClear _ _ | lzwEoi _ _ | lzwKnown _ _ | lzwKwkwk _ _ | lzwIllegal _ _ =>
    simp [Instr.isCode] at hi
  | hdr87 | hdr89 | lsd _ _ _ _ _ | gct _ | ext | img | trl | gce _ | pte _ | app _ | cmt _ _ | subchain _ => rfl

theorem answerReject_visible (r : Reject) (s other : State) :
    visible (answerReject r s).outcome = visible (answerReject r (s.withWorking other)).outcome := by
  cases r with
  | shortIdata mcs blocks len =>
    have hblocks : (gatherBlocks blocks (s.beginPayload mcs)).Agree LzwOnly
        (gatherBlocks blocks ((s.withWorking other).beginPayload mcs)) :=
      (beginPayload_lzwOnly s other mcs).gatherBlocks blocks
    cases len with
    | none => exact (hblocks.bind fun _ _ h => h.streamFailure).visible_outcome
    | some len =>
      exact ((hblocks.bind fun _ _ h => h.openBlock len.toNat).bind fun _ _ h => h.streamFailure).visible_outcome
  | shortChain _ len => cases len <;> rfl
  | endOfStream | badSignature | badIntroducer _ | short _ | shortTerminator _ | shortPayload | codeTooLarge _ => rfl

/-- A slot of the container never reads a code of the payload. -/
theorem decodeBlock_isCode {sl : Slot} {bs : List Byte} {i : Instr} (h : decodeBlock sl bs = .ok i) : i.isCode = false := by
  cases sl with
  | sig => rcases decodeSig_cases bs with ⟨-, e | e | e⟩ | ⟨-, e⟩ <;> cases e.symm.trans h <;> rfl
  | lsd =>
    rcases decodeLsd_cases bs with ⟨-, _, _, _, _, _, e⟩ | ⟨-, e⟩ <;> cases e.symm.trans h
    rfl
  | gct res | lct res =>
    rcases decodeTable_cases res bs with ⟨_, -, -, e⟩ | ⟨-, e⟩ <;> cases (congrArg (Except.map _) e).symm.trans h
    rfl
  | intro => rcases decodeIntro_cases bs with ⟨-, e | e | e | ⟨_, e⟩⟩ | ⟨-, e⟩ <;> cases e.symm.trans h <;> rfl
  | extHdr => rcases decodeExtHdr_cases bs with ⟨-, _, _, e | e | e | e⟩ | ⟨-, e⟩ <;> cases e.symm.trans h <;> rfl
  | gceBody =>
    rcases decodeGceBody_cases bs with ⟨-, _, _, _, _, _, e⟩ | ⟨-, _, e⟩ | ⟨-, -, e⟩ | ⟨-, e⟩ <;> cases e.symm.trans h
    rfl
  | imgDesc =>
    rcases decodeImgDesc_cases bs with ⟨-, _, _, _, _, _, _, e⟩ | ⟨-, e⟩ <;> cases e.symm.trans h
    rfl
  | idata =>
    rcases decodeIdata_cases bs with ⟨_, _, -, -, e⟩ | ⟨_, _, -, e⟩ | ⟨_, _, _, -, e⟩ | ⟨-, e⟩ <;> cases e.symm.trans h
    rfl
  | subchain =>
    rcases decodeSubchain_cases bs with ⟨_, -, -, e⟩ | ⟨_, -, e⟩ | ⟨_, _, -, e⟩ <;> cases e.symm.trans h
    rfl
  | trl =>
    rcases decodeTrl_cases bs with ⟨-, _, e⟩ | ⟨-, e⟩ <;> cases e.symm.trans h
    rfl

/-- With no decode under way the step is at a structure of the container, or nowhere. -/
theorem place_of_no_decode {s : State} (h : s.lzwPos = none) :
    (∃ sl, s.place = .block sl) ∨ ∃ r, s.place = .nowhere r := by
  simp only [State.place, State.imagePlace, h]
  cases s.state with
  | lct => cases s.active <;> simp
  | _ => simp

/-- Where the step is does not depend on the working registers then. -/
theorem place_withWorking {s : State} (h : s.lzwPos = none) (other : State) : (s.withWorking other).place = s.place := by
  have hpos : (s.withWorking other).lzwPos = none := h
  have himage : (s.withWorking other).imagePlace = s.imagePlace := by simp only [State.imagePlace, hpos, h]
  have hstate : (s.withWorking other).state = s.state := rfl
  simp only [State.place, himage, hstate]
  rfl

/-- Settles O56: the step is at the same place and finds the same there, and neither a token of the container nor a rejected
one lets the host see what the working registers held. -/
theorem workingRegistersCannotBeObserved : Obligations.WorkingRegistersCannotBeObserved := by
  intro s other h
  have hplace := place_withWorking h other
  rcases place_of_no_decode h with ⟨sl, hsl⟩ | ⟨r, hr⟩
  · have hunread : (s.withWorking other).unread = s.unread := rfl
    simp only [step, State.fetch, hplace, hsl, hunread]
    cases hd : decodeBlock sl s.unread with
    | ok i => exact (exec_visible (decodeBlock_isCode hd) s other).symm
    | error r => exact (answerReject_visible r s other).symm
  · simp only [step, State.fetch, hplace, hr]

end Sys2Proof.Machine
end

section
/-! PROOFS. The stream primitives (20_memory.md R61 to R64): every read is told by the bytes that are still unread. -/

namespace Sys2Proof.Machine

/-! ### `MemRead` (R61) -/

theorem State.memRead_inside (s : State) (addr n : Nat) (h : addr + n ≤ s.inLen) :
    s.memRead addr n = some (Memory.bytes s.mem addr n) := if_pos h

theorem State.memRead_outside (s : State) (addr n : Nat) (h : s.inLen < addr + n) : s.memRead addr n = none :=
  if_neg (by omega)

/-! ### `ReadBytes` and `SkipBytes` (R64), each side of the test -/

theorem State.readBytes_enough (s : State) (n : Nat) (h : n ≤ s.unread.length) :
    s.readBytes n = .got (s.unread.take n) (s.advance n) := by
  rw [State.readBytes_eq, if_neg (by omega)]

theorem State.readBytes_short (s : State) (n : Nat) (h : s.unread.length < n) :
    s.readBytes n = .raised (s.raise .readFailure 1 0) := by
  rw [State.readBytes_eq, if_pos h]

theorem State.skipBytes_enough (s : State) (n : Nat) (h : n ≤ s.unread.length) : s.skipBytes n = .ok (s.advance n) := by
  rw [State.skipBytes, State.readBytes_enough s n h, Read.got_andThen]

theorem State.skipBytes_short (s : State) (n : Nat) (h : s.unread.length < n) :
    s.skipBytes n = .raised (s.raise .readFailure 1 0) := by
  rw [State.skipBytes, State.readBytes_short s n h, Read.raised_andThen]

/-- Settles O39: each primitive by its law over the unread bytes; a read that completes is `advance`, and one that finds too
little is `raise`, which leaves `POS` where it was. -/
theorem streamReadsAreAllOrNothing : Obligations.StreamReadsAreAllOrNothing := by
  intro s
  refine ⟨⟨s.avail_eq, s.length_unread, s.getElem?_unread⟩, fun addr n => ⟨fun h => ?inside, s.memRead_outside addr n⟩,
    fun h => ⟨?peekNone, s.readByte_nil h⟩, fun b bs h => ⟨?peekSome, s.readByte_cons b bs h⟩,
    fun n h => ⟨s.readBytes_enough n h, s.skipBytes_enough n h⟩,
    fun n h => ⟨s.readBytes_short n h, s.skipBytes_short n h⟩⟩
  case inside =>
    exact ⟨_, s.memRead_inside addr n h, Memory.length_bytes .., fun k hk => Memory.getElem?_bytes _ _ _ _ hk⟩
  case peekNone => rw [State.peek_eq, h, List.head?_nil]
  case peekSome => rw [State.peek_eq, h, List.head?_cons]

end Sys2Proof.Machine
end

section
/-! PROOFS. The Bit Cursor (40_bitcursor.md R130 to R132): the three answers of `ReadCode`, each under its condition. -/

namespace Sys2Proof.Machine

/-! ### The faults of the cursor -/

theorem readCode_of_short {pay : List Byte} {off w : Nat} (h : 8 * pay.length < off + w) :
    readCode pay off w = .error .shortPayload := if_pos h

theorem readCode_of_tooLarge {pay : List Byte} {off w : Nat} (h : off + w ≤ 8 * pay.length)
    (hv : maxCode < codeValue pay off w) : readCode pay off w = .error (.codeTooLarge (codeValue pay off w)) := by
  rw [readCode, if_neg (Nat.not_lt.mpr h), if_pos hv]

/-- `ReadCode` where the code is there and above the 12-bit guard. -/
theorem State.readCode_of_tooLarge {s : State} {v : Nat}
    (h : Sys2Proof.readCode s.pay s.bitOff s.w = .error (.codeTooLarge v)) :
    s.readCode = .raised (s.raise .codeOutOfRange 2 v) := by
  rw [State.readCode, h]

/-! ### The statement -/

/-- Settles O8: the code is `codeValue`, whose bits are those of the payload, and the two tests, for an underrun and then for
a code above 4095, decide which of the three answers is given. -/
theorem readCodeAssemblesTheCode : Obligations.ReadCodeAssemblesTheCode := by
  intro s
  refine ⟨fun hshort => ⟨readCode_of_short hshort, State.readCode_of_short hshort⟩, fun hfits => ?_⟩
  refine ⟨codeValue s.pay s.bitOff s.w, codeValue_lt .., fun k hk => ?bits, fun hle => ?inRange, fun hgt => ?tooLarge⟩
  case bits => rw [testBit_codeValue, decide_eq_true hk, Bool.true_and]
  case inRange =>
    have hcode := readCode_ok.mpr ⟨hfits, rfl, hle, rfl⟩
    exact ⟨hcode, State.readCode_of_ok hcode⟩
  case tooLarge =>
    have hcode := readCode_of_tooLarge hfits hgt
    exact ⟨hcode, State.readCode_of_tooLarge hcode⟩

end Sys2Proof.Machine
end

section
/-! PROOFS. The LZW unit code by code (41_lzw.md). Each class is first described by what its effect is under each condition;
then each statement about a row puts those cases together, and each statement about a step adds where the code stands. -/

namespace Sys2Proof.Machine

/-! ### From the effect of a class to its row -/

/-- A row is the effect of its class, from behind the code's bits. -/
theorem exec_codeClass (k : CodeClass) (w c : Nat) (s : State) :
    exec (k.instr w c) s = (classEffect k c (s.advanceBits w)).outcome := by
  cases k <;> rfl

/-- A row completes where the effect of its class goes on. -/
theorem exec_of_ok {k : CodeClass} {w c : Nat} {s t : State} (h : classEffect k c (s.advanceBits w) = .ok t) :
    exec (k.instr w c) s = .next t := by
  rw [exec_codeClass, h, Flow.ok_outcome]

/-- A `raise` is fault entry from any state that differs from the one it was met in by working registers alone. -/
theorem Flow.entersFault_of_raised {x : Flow} {s u : State} {cause : Cause} {sub : BitVec 4} {val : Nat}
    (h : x = .raised (u.raise cause sub val)) (hu : u.withWorking s = s) :
    EntersFault x.outcome s cause sub (BitVec.ofNat 16 val) := by
  subst h
  exact ⟨_, rfl, congrArg (fun v => v.raise cause sub val) hu⟩

/-- A row faults where the effect of its class raises. -/
theorem exec_of_raised {k : CodeClass} {w c : Nat} {s u : State} {cause : Cause} {sub : BitVec 4} {val : Nat}
    (h : classEffect k c (s.advanceBits w) = .raised (u.raise cause sub val)) (hu : u.withWorking s = s) :
    EntersFault (exec (k.instr w c) s) s cause sub (BitVec.ofNat 16 val) := by
  rw [exec_codeClass]
  exact Flow.entersFault_of_raised h hu

/-! ### A step at a code of the payload -/

section
variable {s : State} {p : CodePos}

/-- The step is at a code where a decode stands at one; in the main loop unread bits have to remain. -/
theorem place_code (hs : s.state = .imgData) (hp : s.lzwPos = some p) (hmore : p = .loop → s.moreCodes = true) :
    s.place = .code p := by
  rcases place_of_lzwPos hs hp with hplace | ⟨hloop, hend, -⟩
  · exact hplace
  · rw [hmore hloop] at hend
    cases hend

/-- A code that can be read is run as the token of its class. -/
theorem step_of_code {c off : Nat} (hplace : s.place = .code p)
    (hr : Sys2Proof.readCode s.pay s.bitOff s.w = .ok (c, off)) :
    step s = exec (((s.codeSlot p).classOf c).instr s.w c) s ∧ off = s.bitOff + s.w := by
  obtain ⟨-, -, -, hoff⟩ := readCode_ok.mp hr
  exact ⟨by rw [step_eq_tick hplace, lzwTick_of_ok hr, exec_codeClass], hoff⟩

/-- With fewer bits than the width left, the step is the fault of an underrun. -/
theorem step_of_shortCode (hplace : s.place = .code p) (hshort : 8 * s.pay.length < s.bitOff + s.w) :
    EntersFault (step s) s .readFailure 2 0 := by
  rw [step_eq_tick hplace]
  refine Flow.entersFault_of_raised (u := s) ?_ rfl
  rw [lzwTick, State.readCode_of_short hshort, Read.raised_andThen]

/-- Where the loop of R144 has ended, the step is the rest of the image step. -/
theorem step_of_loopEnd (hs : s.state = .imgData) (hp : s.lzwPos = some .loop) (hend : s.moreCodes = false) :
    step s = s.finishImage.outcome := by
  have hplace : s.place = .imageEnd := by simp [State.place, hs, State.imagePlace, hp, hend]
  simp only [step, State.fetch, hplace]

end

/-! ### `LzwInit` (R140, R141) -/

theorem length_initialTable (cc : Nat) : (initialTable cc).length = cc + 2 := by simp [initialTable]

theorem initialTable_literal {cc i : Nat} (h : i < cc) : (initialTable cc)[i]? = some [i] := by
  rw [initialTable, List.getElem?_append_left (by simpa using h)]
  simp [h]

/-- The entries of the two reserved codes are empty. -/
theorem initialTable_reserved (cc : Nat) :
    (initialTable cc)[cc]? = some [] ∧ (initialTable cc)[cc + 1]? = some [] := by
  simp [initialTable]

theorem State.lzwInit_of_large {s : State} (h : maxMcs < s.mcs.toNat) :
    s.lzwInit = .raised (s.raise .codeOutOfRange 1 s.mcs.toNat) := if_pos h

theorem State.lzwInit_of_le {s : State} (h : s.mcs.toNat ≤ maxMcs) :
    s.lzwInit = .ok
      { s with
        w := s.mcs.toNat + 1, cc := 2 ^ s.mcs.toNat, eoi := 2 ^ s.mcs.toNat + 1, bitOff := 0, out := []
        eoiSeen := false, dict := initialTable (2 ^ s.mcs.toNat), lzwPos := some .start } := by
  rw [State.lzwInit, if_neg (Nat.not_lt.mpr h), Nat.one_shiftLeft]
  rfl

/-- Settles O24: the test on `MCS` decides, and the table that is set up is `initialTable`. -/
theorem lzwInitSetsUpTheDecode : Obligations.LzwInitSetsUpTheDecode := by
  intro s
  refine ⟨fun hlarge => ?_, fun hle => ?_⟩
  · rw [← BitVec.ofNat_toNat]
    exact Flow.entersFault_of_raised (State.lzwInit_of_large hlarge) rfl
  · exact ⟨_, State.lzwInit_of_le hle, length_initialTable _, fun _ hi => initialTable_literal hi,
      initialTable_reserved _⟩

/-! ### `LZW.START` (R142) -/

theorem startEffect_of_clear {c : Nat} {s : State} (h : c = s.cc) :
    startEffect c s = .ok { s with lzwPos := some .first } := if_neg (not_not_intro h)

theorem startEffect_of_other {c : Nat} {s : State} (h : c ≠ s.cc) :
    startEffect c s = .raised (s.raise .invalidLzwStream 1 c) := if_pos h

/-- Settles O25: the comparison with `CC` decides the row; a decode at its start has a code next, or too few bits for one. -/
theorem firstCodeOfThePayloadMustClear : Obligations.FirstCodeOfThePayloadMustClear := by
  intro s w c
  refine ⟨fun hclear => ?complete, fun hother => ⟨?fault, ?nothingEmitted⟩, fun hs hp hshort => ?short,
    fun v off hs hp hr => ?step⟩
  case complete => exact exec_of_ok (k := .start) (startEffect_of_clear hclear)
  case fault => exact exec_of_raised (k := .start) (startEffect_of_other hother) rfl
  case nothingEmitted =>
    intro t ht
    have hrow := exec_codeClass .start w c s
    rw [classEffect, startEffect_of_other (s := s.advanceBits w) hother] at hrow
    cases hrow.symm.trans ht
    rfl
  case short => exact step_of_shortCode (place_code hs hp (by simp)) hshort
  case step => exact step_of_code (place_code hs hp (by simp)) hr

/-! ### `LZW.FIRST` (R143) -/

section
variable {s : State} {c : Nat} {e : List Nat}

theorem firstEffect_of_noEntry (h : s.dict.length ≤ c) : firstEffect c s = .raised (s.raise .codeOutOfRange 3 c) :=
  if_pos h

/-- With an entry, the code is emitted, unless the output buffer is full. -/
theorem firstEffect_of_entry (he : s.dict[c]? = some e) :
    firstEffect c s = (s.emit e).bind fun t => .ok { t with prev := c, lzwPos := some .loop } := by
  obtain ⟨hlt, -⟩ := List.getElem?_eq_some_iff.mp he
  rw [firstEffect, State.tsize_eq, if_neg (Nat.not_le.mpr hlt), State.entry_of_getElem? he]

theorem firstEffect_of_room (he : s.dict[c]? = some e)
    (hroom : ∀ cap, s.cfg.pixelCap = some cap → s.out.length + e.length ≤ cap) :
    firstEffect c s = .ok { s with out := s.out ++ e, prev := c, lzwPos := some .loop } := by
  rw [firstEffect_of_entry he, State.emit_of_room s e hroom, Flow.ok_bind]

theorem firstEffect_of_full {cap : Nat} (he : s.dict[c]? = some e) (hcap : s.cfg.pixelCap = some cap)
    (hfull : cap < s.out.length + e.length) : firstEffect c s = .raised (s.raise .capacityExceeded 3 0) := by
  rw [firstEffect_of_entry he, State.emit_of_full s e cap hcap hfull, Flow.raised_bind]

end

/-- Settles O26: whether the code has an entry, and whether the buffer has room for it, decide the row; no reserved code is
looked for at its place. -/
theorem codeAfterAClearCodeIsEmitted : Obligations.CodeAfterAClearCodeIsEmitted := by
  intro s w c
  refine ⟨fun e he hroom => ?complete, fun habsent => ?noEntry, fun e cap he hcap hfull => ?full,
    fun hs hp hshort => ?short, fun v off hs hp hr => ?step⟩
  case complete => exact exec_of_ok (k := .first) (firstEffect_of_room (s := s.advanceBits w) he hroom)
  case noEntry => exact exec_of_raised (k := .first) (firstEffect_of_noEntry (s := s.advanceBits w) habsent) rfl
  case full => exact exec_of_raised (k := .first) (firstEffect_of_full (s := s.advanceBits w) he hcap hfull) rfl
  case short => exact step_of_shortCode (place_code hs hp (by simp)) hshort
  case step => exact step_of_code (place_code hs hp (by simp)) hr

/-! ### `LZW.CLEAR` (R150) -/

/-- A payload that ends before the code that the Clear Code takes along. -/
theorem clearEffect_of_short {s : State} (h : 8 * s.pay.length < s.bitOff + (s.mcs.toNat + 1)) :
    clearEffect s = .raised (State.raise { s.dictInit with w := s.mcs.toNat + 1 } .readFailure 2 0) := by
  have hread := State.readCode_of_short (s := { s.dictInit with w := s.mcs.toNat + 1 }) h
  rw [clearEffect, hread, Read.raised_andThen]

/-- Settles O27: the code taken along is read behind the Clear Code, and what follows is `LZW.FIRST` on the initial table. -/
theorem clearCodeResetsAndTakesTheNextCode : Obligations.ClearCodeResetsAndTakesTheNextCode := by
  intro s w c
  refine ⟨fun v off e hr he hroom => ?complete, fun v off hr => ?first, fun hshort => ?short⟩
  case complete =>
    refine exec_of_ok (k := .clear) ((clearEffect_of_ok (s := s.advanceBits w) hr).trans ?_)
    exact firstEffect_of_room he hroom
  case first =>
    obtain ⟨-, -, -, rfl⟩ := readCode_ok.mp hr
    exact (exec_codeClass .clear w c s).trans (congrArg Flow.outcome (clearEffect_of_ok (s := s.advanceBits w) hr))
  case short => exact exec_of_raised (k := .clear) (clearEffect_of_short (s := s.advanceBits w) hshort) rfl

/-! ### `LZW.EOI` (R149) -/

/-- Settles O28: the loop condition tests `EOI_SEEN`, so with it set the loop has ended. -/
theorem endOfInformationStopsTheDecode : Obligations.EndOfInformationStopsTheDecode := by
  intro s w c
  refine ⟨exec_of_ok (k := .eoi) rfl, fun hs hp => step_of_loopEnd hs hp ?_⟩
  exact Bool.and_false _

/-! ### `LZW.KNOWN` (R151) -/

section
variable {s : State} {c : Nat} {e : List Nat}

theorem knownEffect_of_room (he : s.dict[c]? = some e)
    (hroom : ∀ cap, s.cfg.pixelCap = some cap → s.out.length + e.length ≤ cap) :
    knownEffect c s = .ok
      { s with out := s.out ++ e, prev := c, dict := s.appended (s.entry s.prev ++ firstOf e), w := s.grown } := by
  have hentry : s.entry c = e := State.entry_of_getElem? he
  rw [knownEffect, hentry, State.emit_of_room s e hroom, Flow.ok_bind, State.append_eq, ← hentry]
  rfl

theorem knownEffect_of_full {cap : Nat} (he : s.dict[c]? = some e) (hcap : s.cfg.pixelCap = some cap)
    (hfull : cap < s.out.length + e.length) : knownEffect c s = .raised (s.raise .capacityExceeded 3 0) := by
  rw [knownEffect, State.entry_of_getElem? he, State.emit_of_full s e cap hcap hfull, Flow.raised_bind]

end

/-- Settles O29: the room in the output buffer decides the row; what is appended, and the width after it, are those of
`State.append_eq`. -/
theorem knownCodeEmitsAndAppends : Obligations.KnownCodeEmitsAndAppends := by
  intro s w c x e p hc hp
  refine ⟨fun hroom => ?complete, fun cap hcap hfull => ?full⟩
  case complete =>
    have heffect := knownEffect_of_room (s := s.advanceBits w) hc hroom
    have hprev : (s.advanceBits w).entry (s.advanceBits w).prev = p := State.entry_of_getElem? hp
    rw [hprev, firstOf_cons] at heffect
    exact exec_of_ok (k := .known) heffect
  case full => exact exec_of_raised (k := .known) (knownEffect_of_full (s := s.advanceBits w) hc hcap hfull) rfl

/-! ### `LZW.KWKWK` (R152) -/

section
variable {s : State} {c x : Nat} {p : List Nat}

theorem kwkwkEffect_of_empty (hp : s.dict[s.prev]? = some []) :
    kwkwkEffect c s = .raised (s.raise .invalidLzwStream 2 c) :=
  if_pos (by rw [State.entry_of_getElem? hp, List.length_nil])

/-- With a previous entry, the new one is appended and then emitted, unless the output buffer is full. -/
theorem kwkwkEffect_of_entry (hp : s.dict[s.prev]? = some (x :: p)) :
    kwkwkEffect c s =
      ((s.append (x :: p ++ [x])).emit (x :: p ++ [x])).bind fun t => .ok { t with prev := c } := by
  rw [kwkwkEffect, State.entry_of_getElem? hp, firstOf_cons, if_neg (by simp)]

theorem kwkwkEffect_of_room (hp : s.dict[s.prev]? = some (x :: p))
    (hroom : ∀ cap, s.cfg.pixelCap = some cap → s.out.length + (p.length + 2) ≤ cap) :
    kwkwkEffect c s = .ok
      { s with out := s.out ++ (x :: p ++ [x]), prev := c, dict := s.appended (x :: p ++ [x]), w := s.grown } := by
  rw [kwkwkEffect_of_entry hp, State.emit_of_room _ _ (by simpa using hroom), Flow.ok_bind, State.append_eq]

/-- The fault of the full buffer is met after the append, so table and width may have grown. -/
theorem kwkwkEffect_of_full {cap : Nat} (hp : s.dict[s.prev]? = some (x :: p)) (hcap : s.cfg.pixelCap = some cap)
    (hfull : cap < s.out.length + (p.length + 2)) :
    kwkwkEffect c s = .raised ((s.append (x :: p ++ [x])).raise .capacityExceeded 3 0) := by
  rw [kwkwkEffect_of_entry hp, State.emit_of_full (s.append _) _ cap (by simpa using hcap) (by simpa using hfull),
    Flow.raised_bind]

end

/-- Settles O30: whether the previous entry is empty, and whether the buffer has room for the new one, decide the row. -/
theorem kwKwKBuildsTheEntryItNames : Obligations.KwKwKBuildsTheEntryItNames := by
  intro s w c
  refine ⟨fun x p hp hroom => ?complete, fun hempty => ?empty, fun p cap hp hne hcap hfull => ?full⟩
  case complete => exact exec_of_ok (k := .kwkwk) (kwkwkEffect_of_room (s := s.advanceBits w) hp hroom)
  case empty => exact exec_of_raised (k := .kwkwk) (kwkwkEffect_of_empty (s := s.advanceBits w) hempty) rfl
  case full =>
    obtain ⟨x, q, rfl⟩ := List.exists_cons_of_ne_nil hne
    refine exec_of_raised (k := .kwkwk) (kwkwkEffect_of_full (s := s.advanceBits w) hp hcap hfull) ?_
    rw [State.append_eq]
    rfl

/-! ### `LZW.ILLEGAL` (R153) -/

/-- Settles O31: the effect of the class is a `raise`, which writes neither `OUT` nor `DICT`. -/
theorem illegalCodeFaults : Obligations.IllegalCodeFaults := by
  intro s w c
  refine ⟨exec_of_raised (k := .illegal) rfl rfl, fun t ht => ?_⟩
  cases (exec_codeClass .illegal w c s).symm.trans ht
  exact ⟨rfl, rfl⟩

/-! ### The main loop (R144) -/

/-- The token of a code of the loop, by the tests in their order. -/
theorem exec_classify (cc eoi tsize w c : Nat) (s : State) :
    exec ((classify cc eoi tsize c).instr w c) s =
      if c = cc then exec (.lzwClear w c) s
      else if c = eoi then exec (.lzwEoi w c) s
      else if c < tsize then exec (.lzwKnown w c) s
      else if c = tsize then exec (.lzwKwkwk w c) s
      else exec (.lzwIllegal w c) s := by
  unfold classify
  split_ifs <;> rfl

/-- A tick that goes on moves the offset on, inside the payload, where the width is not 0. -/
theorem lzwTick_progress {p : CodePos} {s t : State} (hw : 1 ≤ s.w) (h : lzwTick p s = .ok t) :
    s.bitOff < t.bitOff ∧ t.bitOff ≤ 8 * t.pay.length := by
  obtain ⟨hin, hway⟩ := lzwTick_cases h
  have hone : s.bitOff < s.bitOff + s.w := Nat.lt_add_of_pos_right hw
  cases hway with
  | start _ | first _ _ _ _ | eoi _ | known _ _ _ _ _ _ | kwkwk _ _ _ _ _ _ _ => exact ⟨hone, hin⟩
  | clear _ _ _ hin2 _ => exact ⟨Nat.lt_add_right _ hone, hin2⟩

/-- The rest of the image step leaves `IMGDATA`. -/
theorem finishImage_leaves {s t : State} (h : s.finishImage.outcome = .next t) : t.state ≠ .imgData := by
  rcases finishImage_cases s with ⟨-, hx⟩ | ⟨f, i, -, hx⟩ | ⟨f, rgb, -, -, hx⟩ <;> rw [hx] at h <;> cases h
  · simp
  · simp [State.withImage]

/-- A tick that raised has left `IMGDATA`. -/
theorem lzwTick_raised_state {p : CodePos} {s t : State} (h : lzwTick p s = .raised t) : t.state = .fault := by
  have hkeeps := lzwTick_keeps p s
  rw [h] at hkeeps
  obtain ⟨u, _, _, _, -, -, -, rfl⟩ := hkeeps
  rfl

/-- A step of the loop that stays in `IMGDATA` is a tick that went on. -/
theorem lzwTick_of_step {s t : State} (hs : s.state = .imgData) (hp : s.lzwPos = some .loop) (h : step s = .next t)
    (ht : t.state = .imgData) : lzwTick .loop s = .ok t := by
  rcases place_of_lzwPos hs hp with hplace | ⟨-, hend, -⟩
  · rw [step_eq_tick hplace] at h
    rcases Flow.outcome_next h with hok | hraised
    · exact hok
    · rw [lzwTick_raised_state hraised] at ht
      cases ht
  · rw [step_of_loopEnd hs hp hend] at h
    exact absurd ht (finishImage_leaves h)

/-- Settles O32: the loop condition says whether a code stands next; `classify` is the tests in their order, and a step that
stays in the loop is a tick that goes on. -/
theorem loopCodesAreClassedInOrder : Obligations.LoopCodesAreClassedInOrder := by
  intro s hs hp
  have hplace (hbits : s.bitOff < 8 * s.pay.length) (hseen : s.eoiSeen = false) : s.place = .code .loop :=
    place_code hs hp fun _ => s.moreCodes_iff.mpr ⟨hbits, hseen⟩
  refine ⟨fun hbits hseen c off hr => ?code, fun hbits hseen hshort => ?short, fun hend => ?ended,
    fun hw t hstep ht => ?progress⟩
  case code =>
    obtain ⟨hstep, hoff⟩ := step_of_code (hplace hbits hseen) hr
    exact ⟨hoff, hstep.trans (exec_classify s.cc s.eoi s.dict.length s.w c s)⟩
  case short => exact step_of_shortCode (hplace hbits hseen) hshort
  case ended =>
    refine step_of_loopEnd hs hp (Bool.eq_false_iff.mpr fun hmore => ?_)
    obtain ⟨hbits, hseen⟩ := s.moreCodes_iff.mp hmore
    rcases hend with hend | hend
    · omega
    · rw [hseen] at hend
      cases hend
  case progress => exact lzwTick_progress hw (lzwTick_of_step hs hp hstep ht)

end Sys2Proof.Machine
end

section
/-! PROOFS. The Color Table Reader (42_colortable.md R170 to R172): its loop reads what `takeTriples` finds in the unread
bytes, or stops where fewer than three are left. -/

namespace Sys2Proof.Machine

@[simp] theorem State.advance_zero (s : State) : s.advance 0 = s := rfl

theorem State.advance_advance (s : State) (m n : Nat) : (s.advance m).advance n = s.advance (m + n) := by
  simp only [State.advance, Nat.add_assoc]

/-! ### One round of the loop (R170) -/

theorem readTriples_succ_of_triple {s : State} {r g b : Byte} {rest : List Byte} (h : s.unread = r :: g :: b :: rest)
    (n : Nat) (p : List Color) : readTriples (n + 1) p s = readTriples n (p ++ [⟨r, g, b⟩]) (s.advance 3) := by
  rw [readTriples, State.readBytes_enough s 3 (by simp [h]), h]
  rfl

theorem readTriples_succ_of_short {s : State} (h : s.unread.length < 3) (n : Nat) (p : List Color) :
    readTriples (n + 1) p s = .raised (s.raise .readFailure 1 0) := by
  rw [readTriples, State.readBytes_short s 3 h]

theorem exists_triple_of_length {bs : List Byte} (h : 3 ≤ bs.length) : ∃ r g b rest, bs = r :: g :: b :: rest := by
  match bs, h with
  | r :: g :: b :: rest, _ => exact ⟨r, g, b, rest, rfl⟩
  | [], h | [_], h | [_, _], h => simp at h

theorem unread_advance_of_triple {s : State} {r g b : Byte} {rest : List Byte} (h : s.unread = r :: g :: b :: rest) :
    (s.advance 3).unread = rest := by
  rw [State.unread_advance, h]
  rfl

/-! ### The whole loop -/

/-- The loop puts the Colors that `takeTriples` finds behind the palette it has. -/
theorem readTriples_of_takeTriples {n : Nat} {cs : List Color} {s : State} (h : takeTriples n s.unread = some cs)
    (p : List Color) : readTriples n p s = .got (p ++ cs) (s.advance (3 * n)) := by
  induction n generalizing s cs p with
  | zero =>
    cases h
    rw [List.append_nil]
    rfl
  | succ n ih =>
    match hbytes : s.unread, h with
    | r :: g :: b :: rest, h =>
      rw [takeTriples] at h
      split at h
      next cs' hrest =>
        cases h
        rw [← unread_advance_of_triple hbytes] at hrest
        rw [readTriples_succ_of_triple hbytes, ih hrest, State.advance_advance, List.append_assoc, Nat.mul_succ,
          Nat.add_comm]
        rfl
      next => cases h

/-- With too few bytes the loop consumes the whole triples and faults where the next one is cut (R171). -/
theorem readTriples_of_short {n : Nat} {s : State} (h : s.unread.length < 3 * n) (p : List Color) :
    readTriples n p s = .raised ((s.advance (3 * (s.unread.length / 3))).raise .readFailure 1 0) := by
  induction n generalizing s p with
  | zero => omega
  | succ n ih =>
    by_cases hcut : s.unread.length < 3
    · rw [readTriples_succ_of_short hcut, Nat.div_eq_of_lt hcut, Nat.mul_zero, State.advance_zero]
    · obtain ⟨r, g, b, rest, hbytes⟩ := exists_triple_of_length (Nat.not_lt.mp hcut)
      have hlen : s.unread.length = rest.length + 3 := by rw [hbytes]; rfl
      have hwhole : 3 + 3 * (rest.length / 3) = 3 * (s.unread.length / 3) := by omega
      have hrest := unread_advance_of_triple hbytes
      rw [readTriples_succ_of_triple hbytes, ih (by rw [hrest]; omega), State.advance_advance, hrest, hwhole]

/-! ### `ReadColorTable` -/

/-- Settles O40: the loop of `2^(N+1)` rounds from the empty palette, on each side of the test on the bytes left. -/
theorem colorTableReaderReadsExactly : Obligations.ColorTableReaderReadsExactly := by
  intro s res
  refine ⟨fun henough => ?enough, fun hshort => readTriples_of_short hshort []⟩
  case enough =>
    cases htake : takeTriples (tableEntries res) s.unread with
    | none => exact absurd ((takeTriples_none _ _).mp htake) (Nat.not_lt.mpr henough)
    | some cs =>
      obtain ⟨hlen, hprefix⟩ := takeTriples_some htake
      refine ⟨cs, readTriples_of_takeTriples htake [], hlen, ?_⟩
      have hbytes := List.prefix_iff_eq_take.mp hprefix
      rw [length_encodeTable, hlen] at hbytes
      exact hbytes

end Sys2Proof.Machine
end

section
/-! PROOFS. The step is the handler of the rules (43_container.md sections 2 to 6). The step decodes the whole structure and
runs its token; a handler reads part by part. Both are compared over the unread bytes: where a handler's read completes the
decoder finds the same bytes, and where it faults the decoder's reject is answered with the same reads done. -/

namespace Sys2Proof.Machine

/-! ### A step at a structure of the container -/

section
variable {s : State} {sl : Slot}

/-- A structure that decodes is run as its token. -/
theorem step_of_decoded {i : Instr} (hplace : s.place = .block sl) (h : decodeBlock sl s.unread = .ok i) :
    step s = exec i s :=
  step_of_token (by simp only [State.fetch, hplace, h, Fetched.ofDecode])

/-- A structure that does not decode is answered as its reject. -/
theorem step_of_undecoded {r : Reject} (hplace : s.place = .block sl) (h : decodeBlock sl s.unread = .error r) :
    step s = (answerReject r s).outcome :=
  step_of_reject (by simp only [State.fetch, hplace, h, Fetched.ofDecode])

end

/-- `ReadBytes` either finds too few bytes or gets the first ones of those unread. -/
theorem State.readBytes_cases (s : State) (n : Nat) :
    (s.unread.length < n ∧ s.readBytes n = .raised (s.raise .readFailure 1 0)) ∨
    ∃ b rest, b.length = n ∧ s.unread = b ++ rest ∧ s.readBytes n = .got b (s.advance n) := by
  rcases Nat.lt_or_ge s.unread.length n with hshort | henough
  · exact .inl ⟨hshort, s.readBytes_short n hshort⟩
  · exact .inr ⟨s.unread.take n, s.unread.drop n, List.length_take_of_le henough, (List.take_append_drop ..).symm,
      s.readBytes_enough n henough⟩

/-! ### Reads whose bytes are known -/

section
variable {s : State} {len : Byte} {bs b rest : List Byte}

theorem unread_advance_append (h : s.unread = b ++ rest) : (s.advance b.length).unread = rest := by
  rw [State.unread_advance, h, List.drop_left]

theorem unread_advance_one (h : s.unread = len :: bs) : (s.advance 1).unread = bs :=
  unread_advance_append (b := [len]) h

theorem readBytes_append (h : s.unread = b ++ rest) : s.readBytes b.length = .got b (s.advance b.length) := by
  rw [s.readBytes_enough _ (by simp [h]), h, List.take_left]

end

/-! ### The fixed structures, cut short -/

section
variable {bs : List Byte}

theorem decodeSig_of_short (h : bs.length < 6) : decodeSig bs = .error (.short 0) :=
  (decodeSig_cases bs).elim (fun hlong => absurd hlong.1 (Nat.not_le.mpr h)) And.right

theorem decodeLsd_of_short (h : bs.length < 7) : decodeLsd bs = .error (.short 0) :=
  (decodeLsd_cases bs).elim (fun hlong => absurd hlong.1 (Nat.not_le.mpr h)) And.right

theorem decodeImgDesc_of_short (h : bs.length < 10) : decodeImgDesc bs = .error (.short 0) :=
  (decodeImgDesc_cases bs).elim (fun hlong => absurd hlong.1 (Nat.not_le.mpr h)) And.right

theorem decodeExtHdr_of_short (h : bs.length < 2) : decodeExtHdr bs = .error (.short 0) :=
  (decodeExtHdr_cases bs).elim (fun hlong => absurd hlong.1 (Nat.not_le.mpr h)) And.right

/-- A control body whose first byte is there and whose next four are not all there. -/
theorem decodeGceBody_of_short {b0 : Byte} (h : bs.length < 4) : decodeGceBody (b0 :: bs) = .error (.short 1) := by
  have hlen : (b0 :: bs).length = bs.length + 1 := rfl
  rcases decodeGceBody_cases (b0 :: bs) with ⟨hlong, -⟩ | ⟨hlong, -⟩ | ⟨-, -, hdecode⟩ | ⟨hnil, -⟩
  · omega
  · omega
  · exact hdecode
  · cases hnil

end

/-! ### HEADER and LSD (R182, R183) -/

section
variable {s : State}

theorem step_header (hs : s.state = .header) : step s = (handleHeader s).outcome := by
  have hplace : s.place = .block .sig := by simp only [State.place, hs]
  rcases s.readBytes_cases 6 with ⟨hshort, hread⟩ | ⟨b, rest, hlen, hbytes, hread⟩ <;>
    rw [handleHeader, hread]
  · exact step_of_undecoded hplace (decodeSig_of_short hshort)
  · match b, hlen with
    | [b0, b1, b2, b3, b4, b5], _ =>
      rw [Read.got_andThen]
      have hdecode : decodeBlock .sig s.unread =
          if [b0, b1, b2, b3, b4, b5] = [0x47, 0x49, 0x46, 0x38, 0x37, 0x61] then .ok .hdr87
          else if [b0, b1, b2, b3, b4, b5] = [0x47, 0x49, 0x46, 0x38, 0x39, 0x61] then .ok .hdr89
          else .error .badSignature := by
        rw [hbytes]; rfl
      by_cases h87 : [b0, b1, b2, b3, b4, b5] = [0x47, 0x49, 0x46, 0x38, 0x37, 0x61]
      · rw [if_neg fun h => h.1 h87]
        exact step_of_decoded hplace (hdecode.trans (if_pos h87))
      · rw [if_neg h87] at hdecode
        by_cases h89 : [b0, b1, b2, b3, b4, b5] = [0x47, 0x49, 0x46, 0x38, 0x39, 0x61]
        · rw [if_neg fun h => h.2 h89]
          exact step_of_decoded hplace (hdecode.trans (if_pos h89))
        · rw [if_pos ⟨h87, h89⟩]
          exact step_of_undecoded hplace (hdecode.trans (if_neg h89))

theorem step_lsd (hs : s.state = .lsd) : step s = (handleLsd s).outcome := by
  have hplace : s.place = .block .lsd := by simp only [State.place, hs]
  rcases s.readBytes_cases 7 with ⟨hshort, hread⟩ | ⟨b, rest, hlen, hbytes, hread⟩ <;> rw [handleLsd, hread]
  · exact step_of_undecoded hplace (decodeLsd_of_short hshort)
  · match b, hlen with
    | [b0, b1, b2, b3, b4, b5, b6], _ =>
      exact step_of_decoded (i := .lsd (u16le b0 b1) (u16le b2 b3) b4 b5 b6) hplace (by rw [hbytes]; rfl)

/-! ### The color tables (R184, R192) -/

/-- The reader's loop and the decoder find the same table, or stop at the same place (42_colortable.md R170, R171). -/
theorem readColorTable_decodeTable (s : State) (res : BitVec 3) :
    (∃ cs, decodeTable res s.unread = .ok cs ∧ s.readColorTable res = .got cs (s.advance (3 * cs.length))) ∨
    ∃ k, decodeTable res s.unread = .error (.short k) ∧
      s.readColorTable res = .raised ((s.advance k).raise .readFailure 1 0) := by
  unfold decodeTable
  cases htake : takeTriples (tableEntries res) s.unread with
  | some cs =>
    obtain ⟨hlen, -⟩ := takeTriples_some htake
    refine .inl ⟨cs, rfl, ?_⟩
    rw [hlen]
    exact readTriples_of_takeTriples htake []
  | none => exact .inr ⟨_, rfl, readTriples_of_short ((takeTriples_none _ _).mp htake) []⟩

theorem step_gct (hs : s.state = .gct) : step s = (handleGct s).outcome := by
  have hplace : s.place = .block (.gct s.gctRes) := by simp only [State.place, hs]
  rcases readColorTable_decodeTable s s.gctRes with ⟨cs, hdecode, hread⟩ | ⟨k, hdecode, hread⟩ <;>
    rw [handleGct, hread]
  · exact step_of_decoded hplace (congrArg (Except.map Instr.gct) hdecode)
  · exact step_of_undecoded hplace (congrArg (Except.map Instr.gct) hdecode)

/-- With no frame record there is no handler either (log 9). -/
theorem step_lct (hs : s.state = .lct) : step s = (handleLct s).outcome := by
  cases hactive : s.active with
  | none => simp only [step, State.fetch, State.place, handleLct, hs, hactive, Flow.stuck_outcome]
  | some f =>
    have hplace : s.place = .block (.lct f.res) := by simp only [State.place, hs, hactive]
    rcases readColorTable_decodeTable s f.res with ⟨cs, hdecode, hread⟩ | ⟨k, hdecode, hread⟩ <;>
      simp only [handleLct, hactive, hread]
    · rw [step_of_decoded hplace (congrArg (Except.map Instr.lct) hdecode)]
      simp only [exec, execLct, hactive]
      rfl
    · exact step_of_undecoded hplace (congrArg (Except.map Instr.lct) hdecode)

/-! ### CONTENT, EXT and IMGDESC (R185, R186, R198, R190) -/

theorem step_content (hs : s.state = .content) : step s = (handleContent s).outcome := by
  have hplace : s.place = .block .intro := by simp only [State.place, hs]
  rw [handleContent, State.peek_eq]
  cases hbytes : s.unread with
  | nil => exact step_of_undecoded hplace (congrArg decodeIntro hbytes)
  | cons b rest =>
    have hdecode : decodeBlock .intro s.unread =
        if b = introExt then .ok .ext
        else if b = introImg then .ok .img
        else if b = introTrl then .ok .trl
        else .error (.badIntroducer b) := congrArg decodeIntro hbytes
    simp only [List.head?_cons]
    split_ifs at hdecode ⊢
    · exact step_of_decoded hplace hdecode
    · exact step_of_decoded hplace hdecode
    · exact step_of_decoded hplace hdecode
    · exact step_of_undecoded hplace hdecode

theorem step_ext (hs : s.state = .ext) : step s = (handleExt s).outcome := by
  have hplace : s.place = .block .extHdr := by simp only [State.place, hs]
  rcases s.readBytes_cases 2 with ⟨hshort, hread⟩ | ⟨b, rest, hlen, hbytes, hread⟩ <;> rw [handleExt, hread]
  · exact step_of_undecoded hplace (decodeExtHdr_of_short hshort)
  · match b, hlen with
    | [b0, b1], _ =>
      have hdecode : decodeBlock .extHdr s.unread =
          if b1 = labelGce then .ok (.gce b0)
          else if b1 = labelPte then .ok (.pte b0)
          else if b1 = labelApp then .ok (.app b0)
          else .ok (.cmt b0 b1) := by
        rw [hbytes]; rfl
      have hlabel : [b0, b1].getD 1 0 = b1 := rfl
      rw [Read.got_andThen, hlabel]
      by_cases hgce : b1 = labelGce
      · rw [if_pos hgce] at hdecode ⊢
        exact step_of_decoded hplace hdecode
      · rw [if_neg hgce] at hdecode ⊢
        by_cases hpte : b1 = labelPte
        · rw [if_pos (.inl hpte)]
          exact step_of_decoded hplace (hdecode.trans (if_pos hpte))
        · rw [if_neg hpte] at hdecode
          by_cases happ : b1 = labelApp
          · rw [if_pos (.inr happ)]
            exact step_of_decoded hplace (hdecode.trans (if_pos happ))
          · rw [if_neg (not_or.mpr ⟨hpte, happ⟩)]
            exact step_of_decoded hplace (hdecode.trans (if_neg happ))

theorem step_imgDesc (hs : s.state = .imgDesc) : step s = (handleImgDesc s).outcome := by
  have hplace : s.place = .block .imgDesc := by simp only [State.place, hs]
  rcases s.readBytes_cases 10 with ⟨hshort, hread⟩ | ⟨b, rest, hlen, hbytes, hread⟩ <;> rw [handleImgDesc, hread]
  · exact step_of_undecoded hplace (decodeImgDesc_of_short hshort)
  · match b, hlen with
    | [b0, b1, b2, b3, b4, b5, b6, b7, b8, b9], _ =>
      rw [step_of_decoded (i := .imgDesc b0 (u16le b1 b2) (u16le b3 b4) (u16le b5 b6) (u16le b7 b8) b9) hplace
        (by rw [hbytes]; rfl), Read.got_andThen, apply_ite Flow.outcome]
      rfl

/-! ### GCE and TRAILER (R199, R203) -/

/-- `n` bytes consumed and the delay field of a control body stored: where the terminator is read. -/
def State.withDelay (s : State) (n : Nat) (delay : BitVec 16) : State :=
  { s.advance n with pendDelay := scaledDelay delay }

theorem unread_withDelay (s : State) (n : Nat) (delay : BitVec 16) :
    (s.withDelay n delay).unread = (s.advance n).unread := rfl

theorem step_gce (hs : s.state = .gce) : step s = (handleGce s).outcome := by
  have hplace : s.place = .block .gceBody := by simp only [State.place, hs]
  rw [handleGce]
  cases hbytes : s.unread with
  | nil =>
    rw [s.skipBytes_short 1 (by simp [hbytes])]
    exact step_of_undecoded hplace (congrArg decodeGceBody hbytes)
  | cons b0 bs =>
    have hrest := unread_advance_one hbytes
    rw [s.skipBytes_enough 1 (by simp [hbytes]), Flow.ok_bind]
    rcases (s.advance 1).readBytes_cases 4 with ⟨hshort, hread⟩ | ⟨d, bs', hlen, hbody, hread⟩ <;> rw [hread]
    · rw [hrest] at hshort
      exact step_of_undecoded hplace ((congrArg decodeGceBody hbytes).trans (decodeGceBody_of_short hshort))
    · match d, hlen with
      | [d0, d1, d2, d3], _ =>
        rw [hrest] at hbody
        rw [hbody] at hbytes
        have hunread : (s.withDelay 5 (u16le d1 d2)).unread = bs' := by
          rw [unread_withDelay, State.unread_advance, hbytes]
          rfl
        show step s = ((s.withDelay 5 (u16le d1 d2)).readByte.andThen _).outcome
        cases bs' with
        | nil =>
          rw [State.readByte_nil _ hunread]
          exact step_of_undecoded hplace (congrArg decodeGceBody hbytes)
        | cons t rest =>
          rw [State.readByte_cons _ t rest hunread, Read.got_andThen, apply_ite Flow.outcome]
          exact step_of_decoded (i := .gceBody b0 d0 (u16le d1 d2) d3 t) hplace (congrArg decodeGceBody hbytes)

theorem step_trailer (hs : s.state = .trailer) : step s = (handleTrailer s).outcome := by
  have hplace : s.place = .block .trl := by simp only [State.place, hs]
  rw [handleTrailer]
  cases hbytes : s.unread with
  | nil =>
    rw [s.readByte_nil hbytes]
    exact step_of_undecoded hplace (congrArg decodeTrl hbytes)
  | cons b rest =>
    rw [s.readByte_cons b rest hbytes, Read.got_andThen, apply_ite Flow.outcome]
    exact step_of_decoded (i := .trlByte b) hplace (congrArg decodeTrl hbytes)

end

/-! ### Chains of sub-blocks (R202, R193)

A handler's loop and the decoder's walk meet the same length bytes. What each loop makes of what the walk found is a function
of its own below, and a sub-block in front of the walk is one round of the loop. -/

/-- How the walk over a chain goes: the bytes end before a length byte, it is 0, its sub-block is cut, or a whole sub-block
stands in front of a walk with one round fewer. -/
theorem readChain_induction {P : Nat → List Byte → ChainRead → Prop}
    (ended : ∀ n, P n [] (.cut [] none))
    (closed : ∀ n bs, P n (0 :: bs) (.full []))
    (cut : ∀ n len bs, len ≠ 0 → bs.length < len.toNat → P n (len :: bs) (.cut [] (some len)))
    (block : ∀ n len b rest c, len ≠ 0 → b.length = len.toNat → P n rest c →
      P (n + 1) (len :: (b ++ rest)) (c.push b))
    {n : Nat} {bs : List Byte} (hn : bs.length ≤ n) : P n bs (readChain n bs) := by
  fun_induction readChain n bs with
  | case1 bs =>
    rw [List.eq_nil_of_length_eq_zero (Nat.le_zero.mp hn)]
    exact ended 0
  | case2 n => exact ended (n + 1)
  | case3 n bs => exact closed (n + 1) bs
  | case4 n len bs hlen hcut => exact cut (n + 1) len bs hlen hcut
  | case5 n len bs hlen hwhole ih =>
    have hdrop : (bs.drop len.toNat).length ≤ n :=
      (List.drop_sublist ..).length_le.trans (Nat.le_of_succ_le_succ hn)
    have hround := block n len _ _ _ hlen (List.length_take_of_le (Nat.le_of_not_lt hwhole)) (ih hdrop)
    rwa [List.take_append_drop] at hround

/-- What `SkipSubBlocks` makes of what the walk found. -/
def skipFound (s : State) : ChainRead → Flow
  | .full blocks => .ok (s.advance (chainLength blocks))
  | .cut blocks len => answerReject (.shortChain blocks len) s

theorem skipFound_push (s : State) (b : List Byte) (c : ChainRead) :
    skipFound s (c.push b) = skipFound ((s.advance 1).advance b.length) c := by
  have hassoc (n : Nat) : s.advance (1 + b.length + n) = ((s.advance 1).advance b.length).advance n := by
    rw [State.advance_advance, State.advance_advance, Nat.add_assoc]
  cases c with
  | full blocks => exact congrArg Flow.ok (hassoc (chainLength blocks))
  | cut blocks len =>
    cases len with
    | none => exact congrArg State.streamFailure (hassoc (blocksLength blocks))
    | some len => exact congrArg State.streamFailure (hassoc (blocksLength blocks + 1))

/-- The loop of `SkipSubBlocks` does what the walk found. -/
theorem skipLoop_eq_skipFound {n : Nat} {bs : List Byte} {s : State} (h : s.unread = bs) (hn : bs.length ≤ n) :
    skipLoop (n + 1) s = skipFound s (readChain n bs) := by
  refine readChain_induction (P := fun n bs c => ∀ s : State, s.unread = bs → skipLoop (n + 1) s = skipFound s c)
    (fun n s h => ?ended) (fun n bs s h => ?closed) (fun n len bs hlen hcut s h => ?cut)
    (fun n len b rest c hlen hb ih s h => ?block) hn s h
  case ended =>
    rw [skipLoop, s.readByte_nil h]
    rfl
  case closed =>
    rw [skipLoop, s.readByte_cons 0 bs h]
    rfl
  case cut =>
    rw [skipLoop, s.readByte_cons len bs h, Read.got_andThen, if_neg hlen,
      State.skipBytes_short _ _ (by rwa [unread_advance_one h])]
    rfl
  case block =>
    have hfront := unread_advance_one h
    rw [skipLoop, s.readByte_cons len _ h, Read.got_andThen, if_neg hlen, ← hb, State.skipBytes, readBytes_append hfront,
      skipFound_push]
    exact ih _ (unread_advance_append hfront)

/-- What the gathering of a payload makes of what the walk found. -/
def gatherFound (s : State) : ChainRead → Flow
  | .full blocks => (gatherBlocks blocks s).bind fun t => .ok (t.advance 1)
  | .cut blocks none => (gatherBlocks blocks s).bind State.streamFailure
  | .cut blocks (some len) => ((gatherBlocks blocks s).bind fun t => t.openBlock len.toNat).bind State.streamFailure

theorem gatherFound_push (s : State) (b : List Byte) (c : ChainRead) :
    gatherFound s (c.push b) =
      (s.openBlock b.length).bind fun t => gatherFound { t.advance b.length with pay := t.pay ++ b } c := by
  cases c with
  | full blocks => exact Flow.bind_assoc ..
  | cut blocks len =>
    cases len with
    | none => exact Flow.bind_assoc ..
    | some len => simp only [ChainRead.push, gatherFound, gatherBlocks, Flow.bind_assoc]

/-- A round of the gathering loop whose length byte `len` is not 0: `openBlock`, then the bytes of the sub-block. -/
theorem gatherLoop_round {s : State} {len : Byte} {bs : List Byte} (h : s.unread = len :: bs) (hlen : len ≠ 0) (n : Nat) :
    gatherLoop (n + 1) s = (s.openBlock len.toNat).bind fun t =>
      (t.readBytes len.toNat).andThen fun b u => gatherLoop n { u with pay := u.pay ++ b } := by
  rw [gatherLoop, s.readByte_cons len bs h, Read.got_andThen, if_neg hlen]
  simp only [State.openBlock]
  split <;> rfl

/-- `openBlock` goes on from behind the length byte, or raises. -/
theorem openBlock_bind_congr {s : State} {n : Nat} {f g : State → Flow} (h : f (s.advance 1) = g (s.advance 1)) :
    (s.openBlock n).bind f = (s.openBlock n).bind g := by
  rcases openBlock_cases n s with hopen | hopen <;> rw [hopen]
  · rfl
  · exact h

/-- The loop of R193 does what the walk found, the capacity test of each sub-block before its bytes included. -/
theorem gatherLoop_eq_gatherFound {n : Nat} {bs : List Byte} {s : State} (h : s.unread = bs) (hn : bs.length ≤ n) :
    gatherLoop (n + 1) s = gatherFound s (readChain n bs) := by
  refine readChain_induction (P := fun n bs c => ∀ s : State, s.unread = bs → gatherLoop (n + 1) s = gatherFound s c)
    (fun n s h => ?ended) (fun n bs s h => ?closed) (fun n len bs hlen hcut s h => ?cut)
    (fun n len b rest c hlen hb ih s h => ?block) hn s h
  case ended =>
    rw [gatherLoop, s.readByte_nil h]
    rfl
  case closed =>
    rw [gatherLoop, s.readByte_cons 0 bs h]
    rfl
  case cut =>
    rw [gatherLoop_round h hlen]
    refine openBlock_bind_congr ?_
    rw [State.readBytes_short _ _ (by rwa [unread_advance_one h])]
    rfl
  case block =>
    have hfront := unread_advance_one h
    rw [gatherLoop_round h hlen, gatherFound_push, ← hb]
    refine openBlock_bind_congr ?_
    rw [readBytes_append hfront]
    exact ih _ (unread_advance_append hfront)

/-! ### PTAE and COMMENT (R200, R201) -/

section
variable {s : State}

theorem step_skip (hs : s.state = .ptae ∨ s.state = .comment) : step s = (handleSkip s).outcome := by
  have hplace : s.place = .block .subchain := by rcases hs with hs | hs <;> simp only [State.place, hs]
  rw [handleSkip, ← State.length_unread, skipLoop_eq_skipFound rfl (Nat.le_refl _)]
  cases hwalk : readChain s.unread.length s.unread with
  | full blocks =>
    exact step_of_decoded (i := .subchain blocks) hplace (by rw [decodeBlock, decodeSubchain, hwalk])
  | cut blocks len =>
    rw [step_of_undecoded (r := .shortChain blocks len) hplace (by rw [decodeBlock, decodeSubchain, hwalk])]
    cases len <;> rfl

/-! ### IMGDATA (R193, R194) -/

/-- Nothing is done after a `raise`. -/
theorem bind_streamFailure_bind (x : Flow) (f : State → Flow) :
    (x.bind State.streamFailure).bind f = x.bind State.streamFailure := by
  cases x <;> rfl

theorem step_imgData (hs : s.state = .imgData) (hidle : s.lzwPos = none) : step s = (handleImgData s).outcome := by
  have hplace : s.place = .block .idata := by simp only [State.place, hs, State.imagePlace, hidle]
  rw [handleImgData]
  cases hbytes : s.unread with
  | nil =>
    rw [s.readByte_nil hbytes]
    exact step_of_undecoded hplace (congrArg decodeIdata hbytes)
  | cons mcs bs =>
    have hrest : (s.beginPayload mcs).unread = bs := unread_advance_one hbytes
    have havail : (s.advance 1).avail = bs.length := by rw [← State.length_unread, unread_advance_one hbytes]
    have hloop := gatherLoop_eq_gatherFound hrest (Nat.le_refl _)
    rw [s.readByte_cons mcs bs hbytes, Read.got_andThen, havail]
    show step s = (((gatherLoop (bs.length + 1) (s.beginPayload mcs)).bind State.lzwDecode).bind State.finishImage).outcome
    rw [hloop]
    cases hwalk : readChain bs.length bs with
    | full blocks =>
      exact step_of_decoded (i := .idata mcs blocks) hplace (by rw [hbytes, decodeBlock, decodeIdata, hwalk])
    | cut blocks len =>
      rw [step_of_undecoded (r := .shortIdata mcs blocks len) hplace (by rw [hbytes, decodeBlock, decodeIdata, hwalk])]
      cases len <;> simp only [gatherFound, bind_streamFailure_bind, answerReject]

end

/-! ### A step in the end states, and in the others -/

/-- Settles O43: `step_goes` lists the steps that do not go on, and what they take. -/
theorem onlyTheEndStatesHaveNoStep : Obligations.OnlyTheEndStatesHaveNoStep := by
  intro s
  refine ⟨fun hend => ?_, fun hdone hfault hframes => ?_⟩
  · rcases hend with hs | hs <;> simp only [step, State.fetch, State.place, hs]
  · rcases step_goes s with ⟨t, ht, -⟩ | ⟨-, hend⟩ | ⟨-, hempty, hneeds⟩
    · exact ⟨t, ht⟩
    · exact absurd hend (not_or.mpr ⟨hdone, hfault⟩)
    · exact absurd hempty (hframes hneeds)

/-! ### The handlers -/

/-- Settles O33: the signature, the screen descriptor and the global table, each read at once. -/
theorem prologueStepsAreTheHandlers : Obligations.PrologueStepsAreTheHandlers :=
  fun _ => ⟨step_header, step_lsd, step_gct⟩

/-- Settles O34: the lookahead by its byte, and the two bytes of an extension by its label. -/
theorem dispatchStepsAreTheHandlers : Obligations.DispatchStepsAreTheHandlers :=
  fun _ => ⟨step_content, step_ext⟩

/-- Settles O35: the descriptor read at once, and the local table of the active frame where there is one. -/
theorem imageHeaderStepsAreTheHandlers : Obligations.ImageHeaderStepsAreTheHandlers :=
  fun _ => ⟨step_imgDesc, step_lct⟩

/-- Settles O36: the gathering loop by induction over the walk; what follows it is the same on both sides. -/
theorem imageDataStepIsTheHandler : Obligations.ImageDataStepIsTheHandler :=
  fun _ => step_imgData

/-- Settles O37: the control body in its three reads, and the marker. -/
theorem controlAndTrailerStepsAreTheHandlers : Obligations.ControlAndTrailerStepsAreTheHandlers :=
  fun _ => ⟨step_gce, step_trailer⟩

/-- Settles O38: the skipping loop by induction over the walk. -/
theorem skippedExtensionStepsAreTheHandlers : Obligations.SkippedExtensionStepsAreTheHandlers :=
  fun _ => step_skip

end Sys2Proof.Machine
end

section
/-! PROOFS. The Animator (44_framestore.md R223 and R225): what the update of a query does to `CUR` and `LAST` on either side of
the comparison, and the pixels the query then gives. -/

namespace Sys2Proof.Machine

/-! ### The update -/

section
variable {a : Animator} {frames : List Frame} {f : Frame} {now : Nat}

theorem Animator.advance_of_elapsed_le (hcur : frames[a.cur]? = some f) (hwait : now - a.last ≤ f.delayMs.toNat) :
    a.advance frames now = a := by
  simp only [Animator.advance, hcur, if_neg (Nat.not_lt.mpr hwait)]

theorem Animator.advance_of_delay_lt (hcur : frames[a.cur]? = some f) (hdue : f.delayMs.toNat < now - a.last) :
    a.advance frames now = { cur := (a.cur + 1) % frames.length, last := now } := by
  simp only [Animator.advance, hcur, if_pos hdue]

/-! ### The answer -/

@[simp] theorem Animator.query_nil (a : Animator) (now : Nat) : a.query [] now = .error .noFrameToShow := rfl

/-- The query answers with the updated Animator and the pixels of the frame that is then current. -/
theorem Animator.query_of_advance {b : Animator} (hupdate : a.advance frames now = b) (hcur : frames[b.cur]? = some f) :
    a.query frames now = .ok (b, f.pix) := by
  simp only [Animator.query, hupdate, hcur]

/-- `CUR` stays a frame number: where some frame is current, the next one, or the first after the last, exists. -/
theorem exists_next_frame {i : Nat} (hcur : frames[i]? = some f) : ∃ g, frames[(i + 1) % frames.length]? = some g := by
  have hi : i < frames.length := (List.getElem?_eq_some_iff.mp hcur).1
  have hnext : (i + 1) % frames.length < frames.length := Nat.mod_lt _ (Nat.zero_lt_of_lt hi)
  exact ⟨_, List.getElem?_eq_getElem hnext⟩

end

/-! ### The query -/

/-- Settles O59: no frame is refused; else the update is told by the strict comparison, and the frame it leaves current exists. -/
theorem animatorAdvancesWhenTheDelayIsExceeded : Obligations.AnimatorAdvancesWhenTheDelayIsExceeded := by
  intro a frames now
  refine ⟨?noFrame, fun f hcur hwait => ?stays, fun f hcur hdue => ?moves⟩
  case noFrame =>
    rintro rfl
    exact a.query_nil now
  case stays => exact Animator.query_of_advance (Animator.advance_of_elapsed_le hcur hwait) hcur
  case moves =>
    obtain ⟨g, hnext⟩ := exists_next_frame hcur
    exact ⟨g, hnext, Animator.query_of_advance (Animator.advance_of_delay_lt hcur hdue) hnext⟩

end Sys2Proof.Machine
end

section
/-! PROOFS. Materialisation (45_pixelpost.md R230 to R232): the look-up of one index in front of the others, inside the palette
and outside it, and the three bytes each index gives. -/

namespace Sys2Proof.Machine

section
variable {pal : List Color} {i : Nat} {idx : List Nat} {c : Color} {rgb : List Byte}

@[simp] theorem length_colorBytes (c : Color) : (colorBytes c).length = 3 := rfl

/-! ### One index in front of the others -/

theorem materialize_cons_of_outside (hi : pal.length ≤ i) (idx : List Nat) : materialize pal (i :: idx) = .error i := by
  rw [materialize, List.getElem?_eq_none hi]

/-- Behind an index that has its Color, the first fault is that of the rest. -/
theorem materialize_cons_of_error {j : Nat} (hc : pal[i]? = some c) (hrest : materialize pal idx = .error j) :
    materialize pal (i :: idx) = .error j := by
  simp only [materialize, hc, hrest]

/-- What completes found the Color of the first index, and its three bytes stand in front. -/
theorem materialize_cons_ok (h : materialize pal (i :: idx) = .ok rgb) :
    ∃ c rest, pal[i]? = some c ∧ materialize pal idx = .ok rest ∧ rgb = colorBytes c ++ rest := by
  rw [materialize] at h
  cases hc : pal[i]? with
  | none => simp [hc] at h
  | some c =>
    cases hrest : materialize pal idx with
    | error j => simp [hc, hrest] at h
    | ok rest => exact ⟨c, rest, rfl, rfl, by simpa [hc, hrest] using h.symm⟩

/-! ### The whole sequence -/

/-- Channel `ch` of the pixel of index `j` stands at `3 × j + ch`. -/
theorem getElem?_materialize (h : materialize pal idx = .ok rgb) {j : Nat} (hj : idx[j]? = some i) (hc : pal[i]? = some c)
    {ch : Nat} (hch : ch < 3) : rgb[3 * j + ch]? = (colorBytes c)[ch]? := by
  induction idx generalizing j rgb with
  | nil => simp at hj
  | cons k idx ih =>
    obtain ⟨d, rest, hd, hrest, rfl⟩ := materialize_cons_ok h
    cases j with
    | zero =>
      obtain rfl : k = i := by simpa using hj
      obtain rfl : d = c := Option.some.inj (hd.symm.trans hc)
      rw [Nat.mul_zero, Nat.zero_add, List.getElem?_append_left hch]
    | succ j =>
      rw [List.getElem?_cons_succ] at hj
      have hskip : 3 * (j + 1) + ch = (colorBytes d).length + (3 * j + ch) := by rw [length_colorBytes]; omega
      rw [hskip, List.getElem?_append_right (Nat.le_add_right ..), Nat.add_sub_cancel_left]
      exact ih hrest hj

/-- The indices before the first one outside are looked up, and then it is the fault. -/
theorem materialize_append_of_outside {pre : List Nat} (hpre : ∀ k ∈ pre, k < pal.length) (hi : pal.length ≤ i)
    (post : List Nat) : materialize pal (pre ++ i :: post) = .error i := by
  induction pre with
  | nil => exact materialize_cons_of_outside hi post
  | cons k pre ih =>
    obtain ⟨hk, hrest⟩ := List.forall_mem_cons.mp hpre
    exact materialize_cons_of_error (List.getElem?_eq_getElem hk) (ih hrest)

/-- The end of an image block at an index outside: `raise` before anything of the frame is written. -/
theorem finishImage_of_outside {s : State} {f : Frame} (hactive : s.active = some f)
    (h : materialize f.pal s.out = .error i) : s.finishImage = .raised (s.raise .paletteIndexOutOfRange 0 i) := by
  simp only [State.finishImage, hactive, h]

end

/-- Settles O41: inside the palette by the bytes of each index, with an index outside by the look-ups before it. -/
theorem materialisationMapsEveryIndex : Obligations.MaterialisationMapsEveryIndex := by
  intro pal idx
  refine ⟨fun hinside => ?inside, ?outside⟩
  case inside =>
    obtain ⟨rgb, hrgb⟩ := materialize_of_inside pal idx hinside
    refine ⟨rgb, hrgb, length_materialize hrgb, fun j i c hj hc => ⟨?red, ?green, ?blue⟩⟩
    case red => exact getElem?_materialize hrgb hj hc (ch := 0) (by decide)
    case green => exact getElem?_materialize hrgb hj hc (ch := 1) (by decide)
    case blue => exact getElem?_materialize hrgb hj hc (ch := 2) (by decide)
  case outside =>
    rintro pre i post rfl hpre hi
    have hfault := materialize_append_of_outside hpre hi post
    refine ⟨hfault, ?_⟩
    rintro s fs f hframes rfl hout
    have hraised := finishImage_of_outside (State.active_eq_some.mpr ⟨fs, hframes⟩) (hout ▸ hfault)
    exact Flow.entersFault_of_raised hraised rfl

end Sys2Proof.Machine
end

section
/-! PROOFS. The flip (45_pixelpost.md R235 and R236). A position of a buffer is a place in a row; the flip reads the same place
of the mirrored row, and the mirror of the mirrored row is the row. -/

namespace Sys2Proof.Machine

section
variable {w h r k : Nat} {buf : List Byte}

/-! ### Rows and places -/

theorem exists_row_place {j : Nat} (hj : j < 3 * w * h) : ∃ r k, r < h ∧ k < 3 * w ∧ j = r * (3 * w) + k := by
  have hplaces : 0 < 3 * w := Nat.pos_of_mul_pos_right (Nat.zero_lt_of_lt hj)
  exact ⟨j / (3 * w), j % (3 * w), Nat.div_lt_of_lt_mul hj, Nat.mod_lt _ hplaces, (Nat.div_add_mod' ..).symm⟩

theorem row_place_lt (hr : r < h) (hk : k < 3 * w) : r * (3 * w) + k < 3 * w * h := by
  calc r * (3 * w) + k < r * (3 * w) + 3 * w := Nat.add_lt_add_left hk _
    _ = (r + 1) * (3 * w) := (Nat.succ_mul ..).symm
    _ ≤ h * (3 * w) := Nat.mul_le_mul_right _ hr
    _ = 3 * w * h := Nat.mul_comm ..

/-- Channel `ch` of column `col` is the place `3 × col + ch` of its row. -/
theorem row_place_of_channel (row col ch : Nat) : (row * w + col) * 3 + ch = row * (3 * w) + (3 * col + ch) := by ring

theorem mirror_lt (hr : r < h) : h - 1 - r < h := by omega

theorem mirror_mirror (hr : r < h) : h - 1 - (h - 1 - r) = r := by omega

/-- The source of a position: the same place in the mirrored row. -/
theorem flipSource_row_place (hk : k < 3 * w) : flipSource w h (r * (3 * w) + k) = (h - 1 - r) * (3 * w) + k := by
  have hrow : (r * (3 * w) + k) / (3 * w) = r := by
    rw [Nat.mul_comm, Nat.mul_add_div (Nat.zero_lt_of_lt hk), Nat.div_eq_of_lt hk, Nat.add_zero]
  have hplace : (r * (3 * w) + k) % (3 * w) = k := by rw [Nat.mul_add_mod', Nat.mod_eq_of_lt hk]
  rw [flipSource, hrow, hplace]

/-! ### The flip of a buffer of the right length -/

@[simp] theorem length_flipBytes (buf : List Byte) (w h : Nat) : (flipBytes buf w h).length = 3 * w * h := by
  simp only [flipBytes, List.length_map, List.length_range]

/-- Each row of the flip is the mirrored row of the buffer. -/
theorem getElem?_flipBytes (hlen : buf.length = 3 * w * h) (hr : r < h) (hk : k < 3 * w) :
    (flipBytes buf w h)[r * (3 * w) + k]? = buf[(h - 1 - r) * (3 * w) + k]? := by
  have hsource : (h - 1 - r) * (3 * w) + k < buf.length := hlen ▸ row_place_lt (mirror_lt hr) hk
  rw [flipBytes, List.getElem?_map, List.getElem?_range (row_place_lt hr hk), Option.map_some, flipSource_row_place hk,
    List.getD_eq_getElem _ _ hsource, List.getElem?_eq_getElem hsource]

/-- Mirroring the rows twice restores every byte (R236). -/
theorem flipBytes_flipBytes (hlen : buf.length = 3 * w * h) : flipBytes (flipBytes buf w h) w h = buf := by
  refine List.ext_getElem? fun j => ?_
  by_cases hj : j < 3 * w * h
  · obtain ⟨r, k, hr, hk, rfl⟩ := exists_row_place hj
    rw [getElem?_flipBytes (length_flipBytes ..) hr hk, getElem?_flipBytes hlen (mirror_lt hr) hk, mirror_mirror hr]
  · rw [List.getElem?_eq_none (by rw [length_flipBytes]; omega), List.getElem?_eq_none (by omega)]

theorem flipBuffer_of_length (hlen : buf.length = 3 * w * h) : flipBuffer buf w h = .ok (flipBytes buf w h) := if_pos hlen

theorem flipBuffer_of_otherLength (hlen : buf.length ≠ 3 * w * h) : flipBuffer buf w h = .error .flipLength := if_neg hlen

end

/-! ### The pixels of a frame and of a load -/

/-- A frame's `npix` counts pixels of three bytes, so another count than `w × h` is another length. -/
theorem Frame.flipped_of_otherCount {f : Frame} (hpix : f.pix.length = 3 * f.npix) (hcount : f.npix ≠ f.w.toNat * f.h.toNat) :
    f.flipped = .error .flipLength := by
  refine flipBuffer_of_otherLength fun hlen => hcount ?_
  rw [hpix, Nat.mul_assoc] at hlen
  exact Nat.eq_of_mul_eq_mul_left (by decide) hlen

/-- After the end of a run a load gives the pixels of every frame. -/
theorem State.loadPixels_of_ended {s : State} (hended : s.ended = true) (flip : Bool) :
    s.loadPixels flip = .ok (s.frames.map (Frame.loaded flip)) := by
  rw [State.loadPixels, State.hostRead, if_pos hended]
  rfl

/-- Settles O58: the buffer by rows and places, the refusals by the length, and a load frame by frame. -/
theorem flipMirrorsRowsAndUndoesItself : Obligations.FlipMirrorsRowsAndUndoesItself := by
  intro buf w h
  refine ⟨fun hlen => ?flip, flipBuffer_of_otherLength, fun f => Frame.flipped_of_otherCount, fun s flip hended => ?load⟩
  case flip =>
    refine ⟨flipBytes buf w h, flipBuffer_of_length hlen, length_flipBytes .., ?twice,
      fun row col ch hrow hcol hch => ?mirrored⟩
    case twice => rw [flipBuffer_of_length (length_flipBytes ..), flipBytes_flipBytes hlen]
    case mirrored =>
      have hplace : 3 * col + ch < 3 * w := by omega
      rw [row_place_of_channel, row_place_of_channel, getElem?_flipBytes hlen (mirror_lt hrow) hplace, mirror_mirror hrow]
  case load =>
    refine ⟨_, State.loadPixels_of_ended hended flip, List.length_map _, fun i f hf => ?_⟩
    rw [List.getElem?_map, hf]
    rfl

end Sys2Proof.Machine
end

section
/-! PROOFS. Launch (70_reset_and_hazards.md R283, R284): the reset state with any stream bound to it meets the invariants of the
frame store and of the fault registers, which do not speak of the stream; the bytes bound are a canonical stream. -/

namespace Sys2Proof.Machine

section
variable (cfg : Config)

/-- Reset with a stream bound: no frame, no color table, and `STATE` in the prologue. -/
theorem frameStoreOk_resetWith (mem : Memory) (n : Nat) :
    FrameStoreOk { State.resetWith cfg with mem := mem, inLen := n } where
  records := fun _ hf => absurd hf List.not_mem_nil
  earlier := fun _ hf => absurd hf List.not_mem_nil
  complete := fun _ _ hf => absurd hf List.not_mem_nil
  faulted := fun _ _ _ _ hf => absurd hf List.not_mem_nil
  awaitsLct := nofun
  awaitsPix := nofun
  pending := nofun
  global := .inl rfl
  prologue := fun _ => ⟨rfl, rfl⟩

/-- Reset with a stream bound: no cause, no end, and no bit of `STATUS`. -/
theorem endOk_resetWith (mem : Memory) (n : Nat) : EndOk { State.resetWith cfg with mem := mem, inLen := n } where
  cause := ⟨fun _ => nofun, fun _ => rfl⟩
  reserved := nofun
  location := nofun
  ended := nofun
  running := fun _ => ⟨BitVec.getLsbD_zero, BitVec.getLsbD_zero, BitVec.getLsbD_zero⟩

section
variable {bytes : List Byte}

theorem streamOk_resetWith (hlen : bytes.length < 2 ^ 32) :
    StreamOk { State.resetWith cfg with mem := Memory.ofBytes 0 bytes, inLen := bytes.length } where
  form := Memory.wf_ofBytes 0 bytes
  inside := fun c hc => by simpa using (Memory.ofBytes_inside 0 bytes c hc).2
  pos := Nat.zero_le _
  len := hlen

theorem launch_of_tooLong (h : 2 ^ 32 ≤ bytes.length) : launch cfg bytes = .refused .streamTooLong := if_pos h

theorem launch_of_lt (h : bytes.length < 2 ^ 32) :
    launch cfg bytes = .next { State.resetWith cfg with mem := Memory.ofBytes 0 bytes, inLen := bytes.length } :=
  if_neg (Nat.not_le_of_lt h)

end
end

/-- Settles O3: the test of the length decides, and the state a launch answers is reset with the bytes bound. -/
theorem launchBindsAStreamOrRefusesIt : Obligations.LaunchBindsAStreamOrRefusesIt := by
  intro cfg bytes
  refine ⟨launch_of_tooLong cfg, fun hlen => ⟨_, launch_of_lt cfg hlen, ?unread, rfl, rfl, ?_⟩⟩
  case unread => exact Memory.bytes_ofBytes bytes
  exact ⟨streamOk_resetWith cfg hlen, frameStoreOk_resetWith cfg _ _, endOk_resetWith cfg _ _⟩

end Sys2Proof.Machine
end

section
/-! PROOFS. The boundaries of sub-blocks (70_reset_and_hazards.md R296). Gathering keeps of the chain its payload and the place
after it in the stream; and no part of the decode or of the end of the block looks at that place, which a fault alone copies.
So the whole block, moved to another place of the stream, does the same there. -/

namespace Sys2Proof.Machine

/-! ### The same state, and the same end, at another place of the stream -/

/-- The state with `POS` at `p`. -/
def State.placedAt (s : State) (p : Nat) : State := { s with pos := p }

/-- The same end of a part, reached at `p`: fault entry copies the place to `FPOS`. -/
def Flow.placedAt (p : Nat) : Flow → Flow
  | .ok s => .ok (s.placedAt p)
  | .raised s => .raised { s.placedAt p with fpos := p }
  | .stuck r => .stuck r

/-- A part that does not look at `POS`. -/
def PlaceBlind (f : State → Flow) : Prop := ∀ (s : State) (p : Nat), f (s.placedAt p) = (f s).placedAt p

theorem Flow.placedAt_bind {f : State → Flow} {p : Nat} (h : ∀ s : State, f (s.placedAt p) = (f s).placedAt p) (x : Flow) :
    (x.placedAt p).bind f = (x.bind f).placedAt p := by
  cases x with
  | ok s => exact h s
  | raised s | stuck r => rfl

theorem PlaceBlind.bind {f g : State → Flow} (hf : PlaceBlind f) (hg : PlaceBlind g) : PlaceBlind fun s => (f s).bind g := by
  intro s p
  beta_reduce
  rw [hf s p]
  exact Flow.placedAt_bind (fun t => hg t p) (f s)

/-- A test that does not look at `POS` either. -/
theorem PlaceBlind.ite {c : State → Prop} [∀ s, Decidable (c s)] {f g : State → Flow}
    (hc : ∀ (s : State) (p : Nat), c (s.placedAt p) ↔ c s) (hf : PlaceBlind f) (hg : PlaceBlind g) :
    PlaceBlind fun s => if c s then f s else g s := by
  intro s p
  by_cases h : c s
  · simp only [hc s p, h, if_true, hf s p]
  · simp only [hc s p, h, if_false, hg s p]

/-! ### The operations of the LZW unit -/

theorem readCode_placeBlind {f : Nat → State → Flow} (hf : ∀ c, PlaceBlind (f c)) :
    PlaceBlind fun s => s.readCode.andThen f := by
  intro s p
  cases hr : Sys2Proof.readCode s.pay s.bitOff s.w with
  | ok found =>
    obtain ⟨c, off⟩ := found
    beta_reduce
    rw [State.readCode_of_ok hr, State.readCode_of_ok (s := s.placedAt p) hr]
    exact hf c { s with bitOff := off } p
  | error r =>
    have hr' : Sys2Proof.readCode (s.placedAt p).pay (s.placedAt p).bitOff (s.placedAt p).w = .error r := hr
    rcases readCode_error hr with ⟨rfl, -⟩ | ⟨v, rfl, -, -⟩ <;> simp only [State.readCode, hr, hr'] <;> rfl

theorem emit_placeBlind (e : List Nat) : PlaceBlind (State.emit · e) :=
  .ite (fun _ _ => Iff.rfl) (fun _ _ => rfl) fun _ _ => rfl

theorem emitEntry_placeBlind (c : Nat) : PlaceBlind fun s => s.emit (s.entry c) :=
  fun s p => emit_placeBlind (s.entry c) s p

theorem append_placedAt (s : State) (e : List Nat) (p : Nat) : (s.placedAt p).append e = (s.append e).placedAt p := by
  rw [State.append_eq, State.append_eq]
  rfl

/-! ### The classes of a code -/

theorem startEffect_placeBlind (c : Nat) : PlaceBlind (startEffect c) :=
  .ite (fun _ _ => Iff.rfl) (fun _ _ => rfl) fun _ _ => rfl

theorem firstEffect_placeBlind (c : Nat) : PlaceBlind (firstEffect c) :=
  .ite (fun _ _ => Iff.rfl) (fun _ _ => rfl) ((emitEntry_placeBlind c).bind fun _ _ => rfl)

theorem clearEffect_placeBlind : PlaceBlind clearEffect := fun s p =>
  readCode_placeBlind firstEffect_placeBlind { s.dictInit with w := s.mcs.toNat + 1 } p

theorem knownEffect_placeBlind (c : Nat) : PlaceBlind (knownEffect c) := by
  refine (emitEntry_placeBlind c).bind fun t p => ?_
  rw [append_placedAt]
  rfl

theorem kwkwkEffect_placeBlind (c : Nat) : PlaceBlind (kwkwkEffect c) := by
  refine .ite (fun _ _ => Iff.rfl) (fun _ _ => rfl) (.bind (fun s p => ?_) fun _ _ => rfl)
  rw [append_placedAt]
  exact emit_placeBlind _ (s.append _) p

theorem classEffect_placeBlind (k : CodeClass) (c : Nat) : PlaceBlind (classEffect k c) := by
  cases k with
  | start => exact startEffect_placeBlind c
  | first => exact firstEffect_placeBlind c
  | clear => exact clearEffect_placeBlind
  | eoi => exact fun _ _ => rfl
  | known => exact knownEffect_placeBlind c
  | kwkwk => exact kwkwkEffect_placeBlind c
  | illegal => exact fun _ _ => rfl

theorem lzwTick_placeBlind (pos : CodePos) : PlaceBlind (lzwTick pos) := by
  intro s p
  have heff := fun c => classEffect_placeBlind ((s.codeSlot pos).classOf c) c
  exact readCode_placeBlind heff s p

theorem lzwRun_placeBlind (n : Nat) : PlaceBlind (lzwRun n) := by
  induction n with
  | zero => exact fun _ _ => rfl
  | succ n ih =>
    intro s p
    have hgo (pos : CodePos) : PlaceBlind fun t => (lzwTick pos t).bind (lzwRun n) := (lzwTick_placeBlind pos).bind ih
    have hmore : PlaceBlind fun t => if t.moreCodes then (lzwTick .loop t).bind (lzwRun n) else .ok t :=
      .ite (fun _ _ => Iff.rfl) (hgo .loop) fun _ _ => rfl
    have hpos : (s.placedAt p).lzwPos = s.lzwPos := rfl
    cases hs : s.lzwPos with
    | none => simp only [lzwRun, hpos, hs]; rfl
    | some pos =>
      cases pos with
      | start => simpa only [lzwRun, hpos, hs] using hgo .start s p
      | first => simpa only [lzwRun, hpos, hs] using hgo .first s p
      | loop => simpa only [lzwRun, hpos, hs] using hmore s p

theorem lzwDecode_placeBlind : PlaceBlind State.lzwDecode := by
  have hinit : PlaceBlind State.lzwInit := .ite (fun _ _ => Iff.rfl) (fun _ _ => rfl) fun _ _ => rfl
  have hrun : PlaceBlind fun t => lzwRun (8 * t.payLen + 1) t := fun t p => lzwRun_placeBlind _ t p
  exact hinit.bind hrun

/-! ### The end of the image block -/

theorem warnIf_placedAt (s : State) (c : Bool) (f : StatusFlag) (p : Nat) :
    (s.placedAt p).warnIf c f = (s.warnIf c f).placedAt p := by cases c <;> rfl

theorem imageWarnings_placedAt (s : State) (f : Frame) (p : Nat) :
    (s.placedAt p).imageWarnings f = (s.imageWarnings f).placedAt p := by
  unfold State.imageWarnings
  rw [warnIf_placedAt, warnIf_placedAt, warnIf_placedAt]
  rfl

theorem withImage_placedAt (s : State) (f : Frame) (rgb : List Byte) (p : Nat) :
    (s.placedAt p).withImage f rgb = (s.withImage f rgb).placedAt p :=
  congrArg (fun t : State => State.goto { t with lzwPos := none } .content) (imageWarnings_placedAt (s.updateActive _) f p)

theorem finishImage_placeBlind : PlaceBlind State.finishImage := by
  intro s p
  have hactive : (s.placedAt p).active = s.active := rfl
  have hout : (s.placedAt p).out = s.out := rfl
  unfold State.finishImage
  rw [hactive, hout]
  cases s.active with
  | none => rfl
  | some f =>
    cases hm : materialize f.pal s.out with
    | error i => simp only [hm]; rfl
    | ok rgb =>
      simp only [hm]
      exact congrArg Flow.ok (withImage_placedAt s f rgb p)

/-! ### The whole block -/

/-- What an image block comes to, gathered at any place. -/
theorem execIdata_of_room {mcs : Byte} {blocks : List (List Byte)} {s : State}
    (h : ∀ cap, s.cfg.payloadCap = some cap → blocks.flatten.length ≤ cap) :
    execIdata mcs blocks s =
      ((State.lzwDecode { s with mcs := mcs, pay := blocks.flatten }).bind State.finishImage
        |>.placedAt (s.pos + (1 + chainLength blocks))).outcome := by
  rw [execIdata, gather_of_room mcs blocks s h, Flow.ok_bind]
  exact congrArg Flow.outcome
    (lzwDecode_placeBlind.bind finishImage_placeBlind { s with mcs := mcs, pay := blocks.flatten } _)

theorem outcome_placedAt {x : Flow} {p : Nat} {t : State} (h : (x.placedAt p).outcome = .next t) (q : Nat) :
    ∃ t', (x.placedAt q).outcome = .next t' ∧ t' = { t with pos := t'.pos, fpos := t'.fpos } ∧ t'.pos = q := by
  cases x with
  | ok s | raised s => cases h; exact ⟨_, rfl, rfl, rfl⟩
  | stuck r => cases h

/-- Settles O57: both blocks come to the same end of the same decode, each at the place after its own chain. -/
theorem subBlockBoundariesDoNotMatter : Obligations.SubBlockBoundariesDoNotMatter := by
  intro s t mcs blocks blocks' hroom hsame h
  have hroom' : ∀ cap, s.cfg.payloadCap = some cap → blocks'.flatten.length ≤ cap := hsame ▸ hroom
  have h : execIdata mcs blocks s = .next t := h
  rw [execIdata_of_room hroom, hsame] at h
  obtain ⟨t', ht', hdiffer, hpos⟩ := outcome_placedAt h (s.pos + (1 + chainLength blocks'))
  exact ⟨t', (execIdata_of_room hroom').trans ht', hdiffer, hpos⟩

end Sys2Proof.Machine
end

section
/-! PROOFS. The encodings (30_encoding.md). For the container each format is taken alone: what it decodes from an encoding, and
what stood in front where it decoded something. For the codes both directions are the bits of `codeValue`. -/

namespace Sys2Proof

/-! ### From the encoding to the token -/

theorem decodeTable_encodeTable {res : BitVec 3} {cs : List Color} (h : cs.length = tableEntries res) (rest : List Byte) :
    decodeTable res (encodeTable cs ++ rest) = .ok cs := by
  rw [decodeTable, ← h, takeTriples_encodeTable]

/-- The walk over a chain, with all the bytes ahead as its bound. -/
theorem readChain_length_encodeChain {blocks : List (List Byte)} (hok : blocks.all blockOk = true) (rest : List Byte) :
    readChain (encodeChain blocks ++ rest).length (encodeChain blocks ++ rest) = .full blocks := by
  refine readChain_encodeChain _ blocks rest hok ?_
  have := length_le_blocksLength blocks
  simp only [List.length_append, length_encodeChain, chainLength]
  omega

theorem decodeIdata_encodeChain {blocks : List (List Byte)} (hok : blocks.all blockOk = true) (mcs : Byte)
    (rest : List Byte) : decodeIdata (mcs :: (encodeChain blocks ++ rest)) = .ok (.idata mcs blocks) := by
  rw [decodeIdata, readChain_length_encodeChain hok]

theorem decodeSubchain_encodeChain {blocks : List (List Byte)} (hok : blocks.all blockOk = true) (rest : List Byte) :
    decodeSubchain (encodeChain blocks ++ rest) = .ok (.subchain blocks) := by
  rw [decodeSubchain, readChain_length_encodeChain hok]

/-- A label that is none of the three named ones is the label of `CMT`. -/
theorem decodeExtHdr_of_otherLabel {label : Byte}
    (h : (label != labelGce && label != labelPte && label != labelApp) = true) (intro : Byte) (rest : List Byte) :
    decodeExtHdr (intro :: label :: rest) = .ok (.cmt intro label) := by
  simp only [Bool.and_eq_true, bne_iff_ne] at h
  obtain ⟨⟨hgce, hpte⟩, happ⟩ := h
  rw [decodeExtHdr, if_neg hgce, if_neg hpte, if_neg happ]

/-- A token that can stand in a slot is read there from its encoding, whatever follows. -/
theorem decodeBlock_encodeBlock {sl : Slot} {i : Instr} (h : sl.takes i = true) (rest : List Byte) :
    decodeBlock sl (encodeBlock i ++ rest) = .ok i := by
  cases sl with
  | sig => cases i with
    | hdr87 | hdr89 => rfl
    | _ => cases h
  | lsd => cases i with
    | lsd w h packed background aspect => simp [encodeBlock, decodeBlock, decodeLsd]
    | _ => cases h
  | gct res => cases i with
    | gct cs => exact congrArg (Except.map Instr.gct) (decodeTable_encodeTable (eq_of_beq h) rest)
    | _ => cases h
  | lct res => cases i with
    | lct cs => exact congrArg (Except.map Instr.lct) (decodeTable_encodeTable (eq_of_beq h) rest)
    | _ => cases h
  | intro => cases i with
    | ext | img | trl => rfl
    | _ => cases h
  | extHdr => cases i with
    | gce _ | pte _ | app _ => rfl
    | cmt intro label => exact decodeExtHdr_of_otherLabel h intro rest
    | _ => cases h
  | gceBody => cases i with
    | gceBody skipped flags delay transparent terminator => simp [encodeBlock, decodeBlock, decodeGceBody]
    | _ => cases h
  | imgDesc => cases i with
    | imgDesc intro left top w h packed => simp [encodeBlock, decodeBlock, decodeImgDesc]
    | _ => cases h
  | idata => cases i with
    | idata mcs blocks => exact decodeIdata_encodeChain h mcs rest
    | _ => cases h
  | subchain => cases i with
    | subchain blocks => exact decodeSubchain_encodeChain h rest
    | _ => cases h
  | trl => cases i with
    | trlByte marker => rfl
    | _ => cases h

/-- Every well-formed container token stands in some slot. -/
theorem exists_slot_of_wf {i : Instr} (hcode : i.isCode = false) (hwf : i.wf = true) : ∃ sl : Slot, sl.takes i = true := by
  cases i with
  | hdr87 | hdr89 => exact ⟨.sig, rfl⟩
  | lsd _ _ _ _ _ => exact ⟨.lsd, rfl⟩
  | gct cs =>
    obtain ⟨res, hres⟩ := exists_res_of_mem_tableLengths (List.contains_iff_mem.mp hwf)
    exact ⟨.gct res, beq_of_eq hres.symm⟩
  | lct cs =>
    obtain ⟨res, hres⟩ := exists_res_of_mem_tableLengths (List.contains_iff_mem.mp hwf)
    exact ⟨.lct res, beq_of_eq hres.symm⟩
  | ext | img | trl => exact ⟨.intro, rfl⟩
  | gce _ | pte _ | app _ => exact ⟨.extHdr, rfl⟩
  | cmt intro label =>
    refine ⟨.extHdr, ?_⟩
    simp only [Instr.wf, Bool.and_assoc, Bool.and_eq_true] at hwf
    simpa only [Slot.takes, Bool.and_assoc, Bool.and_eq_true] using hwf.2
  | gceBody _ _ _ _ _ => exact ⟨.gceBody, rfl⟩
  | imgDesc _ _ _ _ _ _ => exact ⟨.imgDesc, rfl⟩
  | idata _ _ => exact ⟨.idata, hwf⟩
  | subchain _ => exact ⟨.subchain, hwf⟩
  | trlByte _ => exact ⟨.trl, rfl⟩
  | lzwStart _ _ | lzwFirst _ _ | lzwClear _ _ | lzwEoi _ _ | lzwKnown _ _ | lzwKwkwk _ _ | lzwIllegal _ _ => cases hcode

/-- Settles O5: each slot's format reads its own encoding, and each well-formed container token names its slot. -/
theorem decodingAnEncodedTokenGivesItBack : Obligations.DecodingAnEncodedTokenGivesItBack :=
  ⟨fun _ _ rest h => decodeBlock_encodeBlock h rest, fun _ => exists_slot_of_wf⟩

/-! ### From the bytes to the token -/

/-- The token can stand in the slot, and its encoding stands in front of the bytes. -/
def ReadFrom (sl : Slot) (bs : List Byte) (i : Instr) : Prop := sl.takes i = true ∧ encodeBlock i <+: bs

section
variable {bs : List Byte} {i : Instr}

theorem decodeSig_ok (h : decodeSig bs = .ok i) : ReadFrom .sig bs i := by
  unfold decodeSig at h
  split at h
  next b0 b1 b2 b3 b4 b5 rest =>
    split_ifs at h with h87 h89 <;> cases h
    · exact ⟨rfl, rest, congrArg (· ++ rest) h87.symm⟩
    · exact ⟨rfl, rest, congrArg (· ++ rest) h89.symm⟩
  next => cases h

theorem decodeLsd_ok (h : decodeLsd bs = .ok i) : ReadFrom .lsd bs i := by
  unfold decodeLsd at h
  split at h
  next => cases h; exact ⟨rfl, by simp [encodeBlock]⟩
  next => cases h

theorem decodeTable_ok {res : BitVec 3} {cs : List Color} (h : decodeTable res bs = .ok cs) :
    cs.length = tableEntries res ∧ encodeTable cs <+: bs := by
  unfold decodeTable at h
  split at h
  next htake => cases h; exact takeTriples_some htake
  next => cases h

theorem decodeIntro_ok (h : decodeIntro bs = .ok i) : ReadFrom .intro bs i := by
  unfold decodeIntro at h
  split at h
  next b rest =>
    have hfront : [b] <+: b :: rest := ⟨rest, rfl⟩
    split_ifs at h with hext himg htrl <;> cases h
    · exact ⟨rfl, hext ▸ hfront⟩
    · exact ⟨rfl, himg ▸ hfront⟩
    · exact ⟨rfl, htrl ▸ hfront⟩
  next => cases h

theorem decodeExtHdr_ok (h : decodeExtHdr bs = .ok i) : ReadFrom .extHdr bs i := by
  unfold decodeExtHdr at h
  split at h
  next b0 b1 rest =>
    have hfront : [b0, b1] <+: b0 :: b1 :: rest := ⟨rest, rfl⟩
    split_ifs at h with hgce hpte happ <;> cases h
    · exact ⟨rfl, hgce ▸ hfront⟩
    · exact ⟨rfl, hpte ▸ hfront⟩
    · exact ⟨rfl, happ ▸ hfront⟩
    · refine ⟨?_, hfront⟩
      simp only [Slot.takes, Bool.and_eq_true, bne_iff_ne]
      exact ⟨⟨hgce, hpte⟩, happ⟩
  next => cases h

theorem decodeGceBody_ok (h : decodeGceBody bs = .ok i) : ReadFrom .gceBody bs i := by
  unfold decodeGceBody at h
  split at h
  next => cases h; exact ⟨rfl, by simp [encodeBlock]⟩
  all_goals cases h

theorem decodeImgDesc_ok (h : decodeImgDesc bs = .ok i) : ReadFrom .imgDesc bs i := by
  unfold decodeImgDesc at h
  split at h
  next => cases h; exact ⟨rfl, by simp [encodeBlock]⟩
  next => cases h

theorem decodeIdata_ok (h : decodeIdata bs = .ok i) : ReadFrom .idata bs i := by
  unfold decodeIdata at h
  split at h
  next mcs bs =>
    split at h
    next blocks hchain =>
      cases h
      obtain ⟨hok, hfront⟩ := readChain_full hchain
      exact ⟨hok, List.cons_prefix_cons.mpr ⟨rfl, hfront⟩⟩
    next => cases h
  next => cases h

theorem decodeSubchain_ok (h : decodeSubchain bs = .ok i) : ReadFrom .subchain bs i := by
  unfold decodeSubchain at h
  split at h
  next blocks hchain => cases h; exact readChain_full hchain
  next => cases h

theorem decodeTrl_ok (h : decodeTrl bs = .ok i) : ReadFrom .trl bs i := by
  unfold decodeTrl at h
  split at h
  next b rest => cases h; exact ⟨rfl, rest, rfl⟩
  next => cases h

end

/-- A mapped answer that is a token was mapped from one. -/
theorem exists_of_map_ok {α β : Type} {f : α → β} {x : Except Reject α} {b : β} (h : x.map f = .ok b) :
    ∃ a, x = .ok a ∧ f a = b := by
  cases x with
  | ok a => exact ⟨a, rfl, Except.ok.inj h⟩
  | error r => cases h

theorem decodeBlock_ok {sl : Slot} {bs : List Byte} {i : Instr} (h : decodeBlock sl bs = .ok i) : ReadFrom sl bs i := by
  cases sl with
  | sig => exact decodeSig_ok h
  | lsd => exact decodeLsd_ok h
  | gct res =>
    obtain ⟨cs, htable, rfl⟩ := exists_of_map_ok h
    exact ⟨beq_of_eq (decodeTable_ok htable).1, (decodeTable_ok htable).2⟩
  | lct res =>
    obtain ⟨cs, htable, rfl⟩ := exists_of_map_ok h
    exact ⟨beq_of_eq (decodeTable_ok htable).1, (decodeTable_ok htable).2⟩
  | intro => exact decodeIntro_ok h
  | extHdr => exact decodeExtHdr_ok h
  | gceBody => exact decodeGceBody_ok h
  | imgDesc => exact decodeImgDesc_ok h
  | idata => exact decodeIdata_ok h
  | subchain => exact decodeSubchain_ok h
  | trl => exact decodeTrl_ok h

/-- Outside the lookahead the encoding of a container token is as long as the token. -/
theorem length_encodeBlock {i : Instr} (h : Slot.intro.takes i = false) : (encodeBlock i).length = i.length := by
  cases i with
  | gct cs | lct cs => exact length_encodeTable cs
  | idata mcs blocks =>
    rw [encodeBlock, List.length_cons, length_encodeChain, Nat.add_comm]
    rfl
  | subchain blocks => exact length_encodeChain blocks
  | ext | img | trl => cases h
  | _ => rfl

/-- A lookahead looks at one byte and consumes none. -/
theorem length_of_lookahead {i : Instr} (h : Slot.intro.takes i = true) : (encodeBlock i).length = 1 ∧ i.length = 0 := by
  cases i with
  | ext | img | trl => exact ⟨rfl, rfl⟩
  | _ => cases h

/-- No other slot takes a lookahead. -/
theorem intro_takes_of_takes {sl : Slot} {i : Instr} (h : sl.takes i = true) (hsl : sl ≠ .intro) :
    Slot.intro.takes i = false := by
  cases i with
  | ext | img | trl => cases sl <;> simp [Slot.takes] at h hsl
  | _ => rfl

/-- Settles O6: what a slot read stands in front as its encoding; the lengths go by whether the slot is the lookahead. -/
theorem aDecodedTokenEncodesToTheBytesRead : Obligations.ADecodedTokenEncodesToTheBytesRead := by
  intro sl bs i h
  obtain ⟨htakes, hfront⟩ := decodeBlock_ok h
  refine ⟨htakes, hfront, ?_⟩
  by_cases hsl : sl = .intro
  · subst hsl
    obtain ⟨hone, hnone⟩ := length_of_lookahead htakes
    exact ⟨by rw [if_pos rfl, hone], fun _ => hnone⟩
  · rw [if_neg hsl]
    exact ⟨length_encodeBlock (intro_takes_of_takes htakes hsl), fun h => absurd h hsl⟩

/-- Bytes behind what a token was read from do not change it. -/
theorem decodeBlock_append {sl : Slot} {bs : List Byte} {i : Instr} (h : decodeBlock sl bs = .ok i) (rest : List Byte) :
    decodeBlock sl (bs ++ rest) = .ok i := by
  obtain ⟨htakes, tail, rfl⟩ := decodeBlock_ok h
  rw [List.append_assoc]
  exact decodeBlock_encodeBlock htakes _

/-! ### Codes -/

section
variable {sl : CodeSlot} {pay : List Byte}

/-- A code that the cursor returns is read as the token of its class. -/
theorem decodeCode_of_ok {c off : Nat} (h : readCode pay sl.off sl.w = .ok (c, off)) :
    decodeCode sl pay = .ok ((sl.classOf c).instr sl.w c) := by
  simp only [decodeCode, decodeClass, h]

/-- A token that was read is that of a code the cursor returned. -/
theorem decodeCode_ok {i : Instr} (h : decodeCode sl pay = .ok i) :
    i = (sl.classOf (codeValue pay sl.off sl.w)).instr sl.w (codeValue pay sl.off sl.w) := by
  cases hread : readCode pay sl.off sl.w with
  | error r =>
    simp only [decodeCode, decodeClass, hread] at h
    cases h
  | ok found =>
    obtain ⟨c, off⟩ := found
    obtain ⟨-, rfl, -, -⟩ := readCode_ok.mp hread
    exact Except.ok.inj (h.symm.trans (decodeCode_of_ok hread))

end

theorem encodeBits_instr (k : CodeClass) (w c : Nat) : encodeBits (k.instr w c) = codeBits w c := by cases k <;> rfl

theorem isCode_instr (k : CodeClass) (w c : Nat) : (k.instr w c).isCode = true := by cases k <;> rfl

/-- A code of at most 12 bits passes the guard of R131. -/
theorem le_maxCode_of_lt {w c : Nat} (hw : w ≤ maxWidth) (hc : c < 2 ^ w) : c ≤ maxCode :=
  Nat.le_of_lt_succ (Nat.lt_of_lt_of_le hc (Nat.pow_le_pow_right Nat.two_pos hw))

/-- The cursor returns the code whose bits stand at its offset. -/
theorem readCode_of_bits {pay : List Byte} {off w c : Nat} (hw : w ≤ maxWidth) (hc : c < 2 ^ w)
    (hfits : off + w ≤ 8 * pay.length) (hbits : codeBits w c = (List.range w).map fun k => payBit pay (off + k)) :
    readCode pay off w = .ok (c, off + w) :=
  readCode_ok.mpr ⟨hfits, (codeValue_of_bits hc hbits).symm, le_maxCode_of_lt hw hc, rfl⟩

/-- Settles O7: the bits that stand at a place and those of `codeValue` are the same bits. -/
theorem codesDecodeAndEncodeAlike : Obligations.CodesDecodeAndEncodeAlike := by
  intro sl pay
  refine ⟨fun c _ hw hc hfits hbits => decodeCode_of_ok (readCode_of_bits hw hc hfits hbits), fun i h => ?_⟩
  rw [decodeCode_ok h, encodeBits_instr, isCode_instr]
  exact ⟨codeBits_codeValue pay sl.off sl.w, rfl⟩

/-! ### Byte order and bit order -/

theorem toNat_u16le (lo hi : Byte) : (u16le lo hi).toNat = lo.toNat ||| (hi.toNat <<< 8) := by
  have hlo : lo.toNat < 2 ^ 16 := Nat.lt_trans lo.isLt (by decide)
  have hhi : hi.toNat < 2 ^ 16 := Nat.lt_trans hi.isLt (by decide)
  have hshift : hi.toNat <<< 8 < 2 ^ 16 := by
    rw [Nat.shiftLeft_eq]
    have := hi.isLt
    omega
  rw [u16le, BitVec.toNat_or, BitVec.toNat_shiftLeft, BitVec.toNat_setWidth, BitVec.toNat_setWidth,
    Nat.mod_eq_of_lt hlo, Nat.mod_eq_of_lt hhi, Nat.mod_eq_of_lt hshift]

theorem toNat_payBit {pay : List Byte} {i : Nat} {b : Byte} (h : pay[i / 8]? = some b) :
    (payBit pay i).toNat = (b.toNat >>> (i % 8)) &&& 1 := by
  have hbyte : pay.getD (i / 8) 0 = b := by rw [List.getD_eq_getElem?_getD, h, Option.getD_some]
  rw [payBit, hbyte, BitVec.getLsbD, Nat.toNat_testBit, Nat.and_one_is_mod, Nat.shiftRight_eq_div_pow]

/-- Settles O9: both fit their widths, so the operations on words are those on numbers. -/
theorem bytesAreLittleEndianAndBitsCountFromTheLow : Obligations.BytesAreLittleEndianAndBitsCountFromTheLow :=
  ⟨toNat_u16le, fun _ _ _ => toNat_payBit⟩

/-- Settles O4: the decoder run on twelve words written out from the formats. -/
theorem handWrittenWordsDecode : Obligations.HandWrittenWordsDecode := by
  unfold Obligations.HandWrittenWordsDecode
  decide

end Sys2Proof
end

section
/-! PROOFS. The step runs what is decoded (43_container.md section 1): the token at the place that STATE selects, the token
whose bytes stand there, and a table word that was placed there. -/

namespace Sys2Proof.Machine

theorem fetch_code {s : State} {p : CodePos} (hplace : s.place = .code p) : s.fetch = .ofDecode (decodeCode (s.codeSlot p) s.pay) := by
  simp only [State.fetch, hplace]

/-- Settles O10: the step by what was fetched, and what was fetched by the place. -/
theorem aStepRunsTheDecodedToken : Obligations.AStepRunsTheDecodedToken := by
  intro s
  refine ⟨fun sl i => step_of_decoded, fun p i hplace hdecode => ?code, fun sl r => step_of_undecoded,
    fun p r hplace hdecode => ?noCode, fun hplace => ?imageEnd, fun r hplace => ?nowhere⟩
  case code => exact step_of_token (by rw [fetch_code hplace, hdecode, Fetched.ofDecode])
  case noCode => exact step_of_reject (by rw [fetch_code hplace, hdecode, Fetched.ofDecode])
  case imageEnd => simp only [step, State.fetch, hplace]
  case nowhere => simp only [step, State.fetch, hplace]

/-! ### Bytes that stand at `POS` -/

/-- Bytes that the memory holds from `POS` on, inside `IN_LEN`, are the first ones of those unread. -/
theorem prefix_unread {s : State} {bs : List Byte} (hfits : s.pos + bs.length ≤ s.inLen)
    (hbytes : ∀ k b, bs[k]? = some b → Memory.read s.mem (s.pos + k) = b) : bs <+: s.unread := by
  refine List.prefix_iff_getElem?.mpr fun k hk => ?_
  have havail : k < s.avail := by rw [State.avail_eq]; omega
  rw [s.getElem?_unread k havail, hbytes k _ (List.getElem?_eq_getElem hk)]

/-- Settles O11: the bytes ahead begin with the encoding, so the slot reads the token from them. -/
theorem aStepRunsTheTokenWhoseBytesStandAtPos : Obligations.AStepRunsTheTokenWhoseBytesStandAtPos := by
  intro s sl i hplace htakes hfits hbytes
  obtain ⟨rest, hrest⟩ := prefix_unread hfits hbytes
  exact step_of_decoded hplace (hrest ▸ decodeBlock_encodeBlock htakes rest)

/-! ### A table word (log 15) -/

/-- The memory in which `bs` was placed at `pos` reads as `bs` there and as zeros behind it. -/
theorem read_placed {m : Memory} (hm : Memory.wf m = true) (pos : Nat) (bs : List Byte) {k : Nat} {b : Byte}
    (h : (bs ++ List.replicate zerosAfter 0)[k]? = some b) :
    Memory.read (Memory.writeAll
      (m.filter fun c => decide (c.1 < pos) || decide (pos + bs.length + zerosAfter ≤ c.1)) pos bs) (pos + k) = b := by
  rcases Nat.lt_or_ge k bs.length with hk | hk
  · rw [Memory.read_writeAll _ _ _ _ (Memory.wf_filter m _ hm) hk]
    rw [List.getElem?_append_left hk] at h
    rw [List.getD_eq_getElem?_getD, h, Option.getD_some]
  · rw [List.getElem?_append_right hk] at h
    obtain ⟨hlt, rfl⟩ := List.getElem?_eq_some_iff.mp h
    rw [List.length_replicate] at hlt
    rw [Memory.read_writeAll_other _ _ _ _ (.inr (by omega)), List.getElem_replicate]
    refine Memory.read_of_absent _ _ fun c hc heq => ?_
    have hout := (List.mem_filter.mp hc).2
    simp only [heq, Bool.or_eq_true, decide_eq_true_eq] at hout
    omega

/-- Preparing the registers of a slot leaves the stream alone. -/
theorem unread_prepareSlot (sl : Slot) (s : State) : (prepareSlot sl s).unread = s.unread := by
  cases sl with
  | lct res | idata => cases hactive : s.active <;> simp only [prepareSlot, hactive] <;> rfl
  | _ => rfl

theorem unread_placeBlock {s : State} (hm : Memory.wf s.mem = true) (sl : Slot) (bs : List Byte) :
    bs ++ List.replicate zerosAfter 0 <+: (s.placeBlock sl bs).unread := by
  rw [State.placeBlock, unread_prepareSlot]
  refine prefix_unread ?_ fun k b h => read_placed hm s.pos bs h
  simp only [List.length_append, List.length_replicate]
  omega

theorem active_updateActive {s : State} {f : Frame} (h : s.active = some f) (g : Frame → Frame) :
    (s.updateActive g).active = some (g f) := by
  obtain ⟨fs, hfs⟩ := State.active_eq_some.mp h
  exact State.active_eq_some.mpr ⟨fs, State.frames_updateActive hfs g⟩

theorem place_of_lct {s : State} {f : Frame} (hs : s.state = .lct) (hactive : s.active = some f) :
    s.place = .block (.lct f.res) := by
  simp only [State.place, hs, hactive]

/-- With the registers of a slot prepared, its parser state is at the slot. -/
theorem place_prepareSlot {sl : Slot} {s : State} (hs : s.state = slotState sl) (hidle : s.lzwPos = none) :
    (prepareSlot sl s).place = .block sl := by
  cases sl with
  | lct res =>
    cases hactive : s.active with
    | none =>
      simp only [prepareSlot, hactive]
      exact place_of_lct (f := blankFrame res) hs rfl
    | some f =>
      simp only [prepareSlot, hactive]
      exact place_of_lct (s := s.updateActive _) hs (active_updateActive hactive _)
  | idata =>
    have hstate : s.state = .imgData := hs
    cases hactive : s.active <;> simp only [prepareSlot, hactive, State.place, hstate, State.imagePlace, hidle]
  | _ => simp only [prepareSlot, State.place, hs, slotState]

/-- A table word that decodes has a slot, and the slot reads the word with zeros behind it. -/
theorem exists_slot_of_decodeTableWord {nbits w : Nat} {i : Instr} (h : decodeTableWord nbits w = some i) :
    ∃ sl, tableSlot (wordBytes (nbits / 8) w) = some sl ∧
      decodeBlock sl (wordBytes (nbits / 8) w ++ List.replicate zerosAfter 0) = .ok i := by
  unfold decodeTableWord at h
  split at h
  next => cases h
  next sl hslot =>
    split at h
    next hdecode => cases h; exact ⟨sl, hslot, hdecode⟩
    next => cases h

/-- Settles O12: the placed word stands where the step is, with the zeros it was decoded with, and what follows those does
not matter. -/
theorem aPlacedTableWordRunsNext : Obligations.APlacedTableWordRunsNext := by
  intro s nbits w i hm h
  obtain ⟨sl, hslot, hdecode⟩ := exists_slot_of_decodeTableWord h
  have hplaced : s.withFetchWord nbits w = s.placeBlock sl (wordBytes (nbits / 8) w) := by
    rw [State.withFetchWord, State.placeTableWord, hslot]
  rw [hplaced]
  obtain ⟨rest, hrest⟩ := unread_placeBlock hm sl (wordBytes (nbits / 8) w)
  exact step_of_decoded (place_prepareSlot rfl rfl) (hrest ▸ decodeBlock_append hdecode rest)

end Sys2Proof.Machine
end

section
/-! PROOFS. What each container token does (43_container.md sections 2 to 6): the next state written out field by field, or
the state at the `raise` where the token faults. -/

namespace Sys2Proof.Machine

/-! ### Tokens that complete in every state -/

/-- Settles O13: both signatures are `signatureOk`. -/
theorem signaturesLeadToTheScreenDescriptor : Obligations.SignaturesLeadToTheScreenDescriptor :=
  fun _ => ⟨rfl, rfl⟩

theorem lsdResolution_eq (cfg : Config) (packed : Byte) :
    lsdResolution cfg packed =
      match cfg.lsdRes with
      | .bits2to0 => packed.extractLsb' 0 3
      | .bits6to4 => packed.extractLsb' 4 3 := by
  unfold lsdResolution
  cases cfg.lsdRes <;> rfl

/-- Settles O14: the flag and the resolution are bits of the packed byte, the latter where `LSD_RES_LSB` says. -/
theorem screenDescriptorWritesItsRegisters : Obligations.ScreenDescriptorWritesItsRegisters := by
  intro s w h packed bg aspect
  simp only [exec, execLsd, lsdResolution_eq]
  rfl

/-- Settles O15: the entries are stored as they were read. -/
theorem globalTableIsStored : Obligations.GlobalTableIsStored := fun _ _ => rfl

/-- Settles O16: a lookahead is `goto` and nothing else. -/
theorem lookaheadConsumesNothing : Obligations.LookaheadConsumesNothing := fun _ => ⟨rfl, rfl, rfl⟩

/-- Settles O17: the label chose the token, so its byte is not looked at again. -/
theorem extensionHeadersRouteByLabel : Obligations.ExtensionHeadersRouteByLabel := fun _ _ _ => ⟨rfl, rfl, rfl, rfl⟩

theorem blocksLength_eq_sum (blocks : List (List Byte)) : blocksLength blocks = (blocks.map fun b => 1 + b.length).sum := by
  induction blocks with
  | nil => rfl
  | cons b bs ih => rw [blocksLength, ih, List.map_cons, List.sum_cons]

theorem chainLength_eq_sum (blocks : List (List Byte)) :
    chainLength blocks = (blocks.map fun b => 1 + b.length).sum + 1 := by
  rw [chainLength, blocksLength_eq_sum]

/-- Settles O19: the chain is as long as its length bytes and its sub-blocks. -/
theorem subBlocksAreSkipped : Obligations.SubBlocksAreSkipped := by
  intro s blocks
  rw [← chainLength_eq_sum]
  rfl

/-! ### Tokens that test a byte or a capacity -/

/-- A `raise` from `s` is fault entry from `s`. -/
theorem entersFault_raise (s : State) (c : Cause) (sub : BitVec 4) (val : Nat) :
    EntersFault (.next (s.raise c sub val)) s c sub (BitVec.ofNat 16 val) := ⟨_, rfl, rfl⟩

/-- A byte as the value of a fault is extended with zeros. -/
theorem ofNat_toNat_byte (b : Byte) : BitVec.ofNat 16 b.toNat = b.setWidth 16 := BitVec.ofNat_toNat 16 b

/-- Ten times a 16-bit field fits 20 bits (30_encoding.md R107). -/
theorem toNat_scaledDelay (delay : BitVec 16) : (scaledDelay delay).toNat = delay.toNat * 10 := by
  have hfits : delay.toNat * 10 < 2 ^ 20 := by
    have := delay.isLt
    omega
  exact Nat.mod_eq_of_lt hfits

/-- Settles O18: the test of the terminator decides, with the delay written on both sides of it. -/
theorem controlBodySetsThePendingDelay : Obligations.ControlBodySetsThePendingDelay := by
  intro s skipped flags transparent terminator delay
  refine ⟨fun hzero => if_neg (not_not_intro hzero), fun hother => ?_, toNat_scaledDelay delay⟩
  rw [← ofNat_toNat_byte, exec, execGceBody, if_pos hother]
  exact entersFault_raise (s.withDelay 6 delay) ..

/-- Settles O20: the test of the frame store decides, after the read and before the record. -/
theorem imageDescriptorAppendsAFrame : Obligations.ImageDescriptorAppendsAFrame := by
  intro s intro packed left top w h
  refine ⟨fun hroom => if_neg hroom, fun hfull => ?_⟩
  have hraise : exec (.imgDesc intro left top w h packed) s = .next ((s.advance 10).raise .capacityExceeded 1 0) :=
    if_pos hfull
  rw [hraise]
  exact entersFault_raise (s.advance 10) ..

/-- Settles O21: the active frame is the last record, and writing it leaves the others. -/
theorem localTableGoesToTheActiveFrame : Obligations.LocalTableGoesToTheActiveFrame := by
  intro s entries
  refine ⟨fun fs f hframes => ?_, fun hnone => ?_⟩
  · simp only [exec, execLct, State.active_eq_some.mpr ⟨fs, hframes⟩, State.updateActive, State.advance_frames, hframes,
      updateLast_append]
    rfl
  · simp only [exec, execLct, State.active_eq_none.mpr hnone]

/-- The end of a run at its trailer, with or without stray bytes behind it. -/
def State.trailed (s : State) (stray : Bool) : State :=
  (((s.advance 1).warn .trailerSeen).warnIf stray .wStray).goto .done

/-- Settles O22: the marker decides; stray bytes are those that are still unread behind it. -/
theorem trailerEndsTheRun : Obligations.TrailerEndsTheRun := by
  intro s b
  refine ⟨fun hmarker => ?_, fun hother => ?_⟩
  · have hstray : 0 < (s.advance 1).avail ↔ s.pos + 1 < s.inLen := Nat.sub_pos_iff_lt
    have hcomplete : exec (.trlByte b) s = .next (s.trailed (decide (0 < (s.advance 1).avail))) :=
      if_neg (not_not_intro hmarker)
    rw [hcomplete]
    by_cases hbytes : s.pos + 1 < s.inLen
    · rw [decide_eq_true (hstray.mpr hbytes), if_pos hbytes]
      rfl
    · rw [decide_eq_false (mt hstray.mp hbytes), if_neg hbytes]
      rfl
  · rw [← ofNat_toNat_byte, exec, execTrlByte, if_pos hother]
    exact entersFault_raise (s.advance 1) ..

/-! ### IDATA -/

theorem State.warnIf_eq (s : State) (c : Bool) (f : StatusFlag) :
    s.warnIf c f = { s with status := (s.warnIf c f).status } := by cases c <;> rfl

/-- The three warnings write `STATUS` alone. -/
theorem State.imageWarnings_eq (s : State) (f : Frame) :
    s.imageWarnings f = { s with status := (s.imageWarnings f).status } := by
  unfold State.imageWarnings
  rw [State.warnIf_eq, State.warnIf_eq (s.warnIf _ _), State.warnIf_eq s]

theorem State.status_warnIf (s : State) (c : Bool) (f : StatusFlag) :
    (s.warnIf c f).status = s.status ||| (if c then (1 : BitVec 6) <<< f.bit else 0) := by
  cases c with
  | true => rfl
  | false => exact BitVec.or_zero.symm

/-- The bits of R194, each under its condition. -/
theorem State.status_imageWarnings (s : State) (f : Frame) :
    (s.imageWarnings f).status = s.status ||| (if s.eoiSeen then 0 else 0b010000)
      ||| (if s.out.length = f.w.toNat * f.h.toNat then 0 else 0b001000) ||| (if f.interlace then 0b000100 else 0) := by
  simp only [State.imageWarnings, State.status_warnIf, decide_eq_true_eq, ite_not, Bool.not_eq_true', ← Bool.not_eq_true]
  rfl

/-- What the end of an image block writes. -/
theorem State.withImage_eq (s : State) (f : Frame) (rgb : List Byte) :
    s.withImage f rgb =
      { s with
        frames := updateLast (fun g => { g with pix := rgb, npix := s.out.length, pixValid := true }) s.frames
        status := (s.imageWarnings f).status, lzwPos := none, state := .content } := by
  rw [State.withImage, State.imageWarnings_eq, State.status_imageWarnings, State.status_imageWarnings]
  rfl

theorem finishImage_of_materialize {s : State} {f : Frame} {rgb : List Byte} (hactive : s.active = some f)
    (hm : materialize f.pal s.out = .ok rgb) : s.finishImage = .ok (s.withImage f rgb) := by
  simp only [State.finishImage, hactive, hm]
  rfl

/-- Settles O23: the payload fits, so gathering and decoding go on to `v`, which differs from the gathered state in the LZW
registers alone. -/
theorem imageDataStoresThePixels : Obligations.ImageDataStoresThePixels := by
  intro s mcs blocks fs f v rgb hframes hroom hdecode hm
  have honly := State.lzwDecode_keeps { s with pos := s.pos + (1 + chainLength blocks), mcs := mcs, pay := blocks.flatten }
  rw [hdecode] at honly
  have hv : LzwOnly { s with pos := s.pos + (1 + chainLength blocks), mcs := mcs, pay := blocks.flatten } v := honly
  have hvframes : v.frames = fs ++ [f] := hv.frames.trans hframes
  have hvstatus : v.status = s.status := hv.status
  have hfinish := finishImage_of_materialize (State.active_eq_some.mpr ⟨fs, hvframes⟩) hm
  refine ⟨v.withImage f rgb, ?_, ?_⟩
  · rw [exec, execIdata, gather_of_room mcs blocks s hroom, Flow.ok_bind, hdecode, Flow.ok_bind, hfinish]
    rfl
  · rw [State.withImage_eq, State.status_imageWarnings, hvstatus, hvframes, updateLast_append, hv]
    rfl

end Sys2Proof.Machine
end

section
/-! PROOFS. The rules about every step. `Way` lists what a step can do; where a rule speaks of the frames, of `STATUS` or of the
fault registers, the shorter list `Kind` is enough, in which all steps between two blocks are one. -/

namespace Sys2Proof.Machine

/-! ### The input (20_memory.md R66) -/

/-- The stream, its length and the parameters of the hardware are the same. -/
structure SameInput (s t : State) : Prop where
  mem : t.mem = s.mem
  inLen : t.inLen = s.inLen
  cfg : t.cfg = s.cfg

theorem SameInput.trans {s t u : State} (h : SameInput s t) (h' : SameInput t u) : SameInput s u :=
  ⟨h'.mem.trans h.mem, h'.inLen.trans h.inLen, h'.cfg.trans h.cfg⟩

theorem Worked.sameInput {e : Nat} {s t : State} (h : Worked e s t) : SameInput s t := ⟨h.mem, h.inLen, h.cfg⟩

theorem LzwOnly.sameInput {s t : State} (h : LzwOnly s t) : SameInput s t := ⟨h.mem, h.inLen, h.cfg⟩

theorem warnIf_sameInput (s : State) (c : Bool) (f : StatusFlag) : SameInput s (s.warnIf c f) := by
  rw [State.warnIf_eq]
  exact ⟨rfl, rfl, rfl⟩

theorem withImage_sameInput (s : State) (f : Frame) (rgb : List Byte) : SameInput s (s.withImage f rgb) := by
  rw [State.withImage_eq]
  exact ⟨rfl, rfl, rfl⟩

theorem finishImage_sameInput {s t : State} (h : s.finishImage.outcome = .next t) : SameInput s t := by
  rcases finishImage_cases s with ⟨-, hx⟩ | ⟨f, i, -, hx⟩ | ⟨f, rgb, -, -, hx⟩ <;> rw [hx] at h <;> cases h
  · exact ⟨rfl, rfl, rfl⟩
  · exact withImage_sameInput s f rgb

/-- A part that keeps to the input keeps it where it faults too. -/
theorem Flow.Keeps.sameInput {x : Flow} {s t : State} (hx : x.Keeps SameInput s) (h : x.outcome = .next t) :
    SameInput s t := by
  rcases Flow.outcome_next h with rfl | rfl
  · exact hx
  · obtain ⟨u, c, sub, val, hu, -, -, rfl⟩ := hx
    exact ⟨hu.mem, hu.inLen, hu.cfg⟩

theorem execIdata_sameInput {mcs : Byte} {blocks : List (List Byte)} {s t : State}
    (h : execIdata mcs blocks s = .next t) : SameInput s t := by
  have hkeeps : ((gather mcs blocks s).bind State.lzwDecode).Keeps SameInput s :=
    (gather_decode_keeps _ mcs blocks s (Nat.le_refl _)).mono fun _ hw => hw.sameInput
  rw [execIdata] at h
  cases hx : (gather mcs blocks s).bind State.lzwDecode with
  | ok u =>
    rw [hx] at hkeeps h
    exact hkeeps.trans (finishImage_sameInput h)
  | raised u =>
    rw [hx] at hkeeps h
    exact Flow.Keeps.sameInput (x := .raised u) hkeeps h
  | stuck r =>
    rw [hx] at hkeeps
    exact hkeeps.elim

theorem exec_codeClass_sameInput (k : CodeClass) {w c : Nat} {s t : State} (h : exec (k.instr w c) s = .next t) :
    SameInput s t := by
  rw [exec_codeClass] at h
  have hkeeps : (classEffect k c (s.advanceBits w)).Keeps SameInput (s.advanceBits w) :=
    (classEffect_keeps k c _).mono fun _ hw => hw.sameInput
  obtain ⟨hmem, hlen, hcfg⟩ := hkeeps.sameInput h
  exact ⟨hmem, hlen, hcfg⟩

/-- A token that tests something keeps the input on both sides of the test. -/
theorem ite_sameInput {c : Prop} [Decidable c] {s u v t : State}
    (h : (if c then Host.Outcome.next u else .next v : Host.Outcome State Fault Refusal) = .next t) (hu : SameInput s u)
    (hv : SameInput s v) : SameInput s t := by
  split at h <;> cases h
  · exact hu
  · exact hv

theorem exec_sameInput {i : Instr} {s t : State} (h : exec i s = .next t) : SameInput s t := by
  cases i with
  | lct entries =>
    simp only [exec, execLct] at h
    split at h <;> cases h
    exact ⟨rfl, rfl, rfl⟩
  | idata mcs blocks => exact execIdata_sameInput h
  | gceBody _ _ _ _ _ => exact ite_sameInput h ⟨rfl, rfl, rfl⟩ ⟨rfl, rfl, rfl⟩
  | imgDesc _ _ _ _ _ _ => exact ite_sameInput h ⟨rfl, rfl, rfl⟩ ⟨rfl, rfl, rfl⟩
  | trlByte _ =>
    refine ite_sameInput h ⟨rfl, rfl, rfl⟩ ?_
    have hwarn := warnIf_sameInput ((s.advance 1).warn .trailerSeen) (decide (0 < (s.advance 1).avail)) .wStray
    exact ⟨hwarn.mem, hwarn.inLen, hwarn.cfg⟩
  | lzwStart _ _ => exact exec_codeClass_sameInput .start h
  | lzwFirst _ _ => exact exec_codeClass_sameInput .first h
  | lzwClear _ _ => exact exec_codeClass_sameInput .clear h
  | lzwEoi _ _ => exact exec_codeClass_sameInput .eoi h
  | lzwKnown _ _ => exact exec_codeClass_sameInput .known h
  | lzwKwkwk _ _ => exact exec_codeClass_sameInput .kwkwk h
  | lzwIllegal _ _ => exact exec_codeClass_sameInput .illegal h
  | hdr87 | hdr89 | lsd _ _ _ _ _ | gct _ | ext | img | trl | gce _ | pte _ | app _ | cmt _ _ | subchain _ =>
    cases h
    exact ⟨rfl, rfl, rfl⟩

/-- Every way of a step keeps the input, moves forward in the stream, and not beyond its end. -/
theorem Way.input {s t : State} (h : Way s t) : SameInput s t ∧ s.pos ≤ t.pos ∧ (s.pos ≤ s.inLen → t.pos ≤ s.inLen) := by
  have consumed (n : Nat) (hn : n ≤ s.avail) : s.pos ≤ s.pos + n ∧ (s.pos ≤ s.inLen → s.pos + n ≤ s.inLen) := by
    rw [State.avail_eq] at hn
    omega
  cases h with
  | signature _ hn | screen _ _ _ _ hn | globalTable _ _ _ hn | extension _ _ hn _ | control _ _ hn
  | skipped _ _ _ hn | descriptor _ _ _ _ hn _ | localTable _ _ _ _ _ hn | controlFaulted _ _ _ _ _ _ hn _ _ =>
    exact ⟨⟨rfl, rfl, rfl⟩, consumed _ hn⟩
  | lookahead _ _ _ _ | endOfStream _ _ => exact ⟨⟨rfl, rfl, rfl⟩, Nat.le_refl _, id⟩
  | trailer _ hn =>
    rw [State.warnIf_eq]
    exact ⟨⟨rfl, rfl, rfl⟩, consumed 1 hn⟩
  | code _ _ _ _ _ honly => exact ⟨honly.sameInput, Nat.le_of_eq honly.pos.symm, fun hpos => honly.pos ▸ hpos⟩
  | image u f rgb _ hu _ _ _ =>
    rw [State.withImage_eq]
    exact ⟨⟨hu.mem, hu.inLen, hu.cfg⟩, hu.forward, hu.within⟩
  | faulted u _ _ _ _ _ hu _ _ => exact ⟨⟨hu.mem, hu.inLen, hu.cfg⟩, hu.forward, hu.within⟩

/-- Settles O47: token by token, and for a step by the ways it can go on. -/
theorem theCoreNeverWritesItsInput : Obligations.TheCoreNeverWritesItsInput := by
  refine ⟨fun i s t h => ?_, fun s t h => ?_⟩
  · obtain ⟨hmem, hlen, hcfg⟩ := exec_sameInput h
    exact ⟨fun a => by rw [hmem], hmem, hlen, hcfg⟩
  · obtain ⟨⟨hmem, hlen, hcfg⟩, -⟩ := (step_cases h).input
    exact ⟨hmem, hlen, hcfg⟩

/-- Settles O49: the stream is the same, and the place in it moves forward inside. -/
theorem stepsKeepTheStreamInvariant : Obligations.StepsKeepTheStreamInvariant := by
  intro s t hok h
  obtain ⟨⟨hmem, hlen, -⟩, hforward, hwithin⟩ := (step_cases h).input
  refine ⟨⟨?_, ?_, ?_, ?_⟩, hforward⟩
  · rw [hmem]; exact hok.form
  · rw [hmem, hlen]; exact hok.inside
  · rw [hlen]; exact hwithin hok.pos
  · rw [hlen]; exact hok.len

/-! ### Transitions (43_container.md R181) -/

theorem transition_fault {p : ParserState} (hdone : p ≠ .done) (hfault : p ≠ .fault) : transition p .fault = true := by
  cases p with
  | done => exact absurd rfl hdone
  | fault => exact absurd rfl hfault
  | _ => rfl

/-- Settles O44: each way of a whole handler is a row of the table. -/
theorem transitionsAreThoseOfTheTable : Obligations.TransitionsAreThoseOfTheTable := by
  intro s t hwhole h
  cases step_cases h with
  | signature hs _ | globalTable _ hs _ _ | endOfStream hs _ | control _ hs _ | localTable _ _ hs _ _ _ | trailer hs _
  | controlFaulted _ _ _ _ _ hs _ _ _ =>
    rw [hs]
    rfl
  | screen _ _ packed hs _ => rw [hs, State.goto_state]; cases lsdGctFlag packed <;> rfl
  | descriptor _ _ packed hs _ _ => rw [hs, State.goto_state]; cases idLctFlag packed <;> rfl
  | lookahead p hs _ hp => rw [hs]; rcases hp with rfl | rfl | rfl <;> rfl
  | extension p hs _ hp => rw [hs]; rcases hp with rfl | rfl | rfl <;> rfl
  | skipped _ hs _ _ => rcases hs with hs | hs <;> rw [hs] <;> rfl
  | code p _ hs hp _ _ =>
    rw [hwhole hs] at hp
    cases hp
  | image u f rgb hs _ _ _ _ => rw [hs, State.withImage_eq]; rfl
  | faulted u _ _ _ hdone hfault _ _ _ => exact transition_fault hdone hfault

/-! ### The control registers (10_state.md R24 to R29, R42) -/

/-- The control registers and the number of frames are the same. -/
structure SameControls (s t : State) : Prop where
  screen : t.scrW = s.scrW ∧ t.scrH = s.scrH ∧ t.gctPresent = s.gctPresent ∧ t.gctRes = s.gctRes
  gct : t.gct = s.gct
  pendDelay : t.pendDelay = s.pendDelay
  frames : t.pendLct = s.pendLct ∧ t.frames.length = s.frames.length

theorem SameControls.refl (s : State) : SameControls s s := ⟨⟨rfl, rfl, rfl, rfl⟩, rfl, rfl, rfl, rfl⟩

theorem Worked.sameControls {e : Nat} {s t : State} (h : Worked e s t) : SameControls s t := by
  rw [h.same]
  exact ⟨⟨rfl, rfl, rfl, rfl⟩, rfl, rfl, rfl, rfl⟩

theorem withImage_sameControls (s : State) (f : Frame) (rgb : List Byte) : SameControls s (s.withImage f rgb) := by
  rw [State.withImage_eq]
  exact ⟨⟨rfl, rfl, rfl, rfl⟩, rfl, rfl, rfl, length_updateLast _ _⟩

theorem SameControls.trans {s t u : State} (h : SameControls s t) (h' : SameControls t u) : SameControls s u := by
  obtain ⟨⟨hw, hh, hp, hr⟩, hg, hd, hl, hf⟩ := h
  obtain ⟨⟨hw', hh', hp', hr'⟩, hg', hd', hl', hf'⟩ := h'
  exact ⟨⟨hw'.trans hw, hh'.trans hh, hp'.trans hp, hr'.trans hr⟩, hg'.trans hg, hd'.trans hd, hl'.trans hl, hf'.trans hf⟩

/-- What holds of a step that writes no control register. -/
theorem SameControls.one_writer {s t : State} (h : SameControls s t) :
    (s.state ≠ .lsd → t.scrW = s.scrW ∧ t.scrH = s.scrH ∧ t.gctPresent = s.gctPresent ∧ t.gctRes = s.gctRes) ∧
    (s.state ≠ .gct → t.gct = s.gct) ∧
    (s.state ≠ .gce → t.pendDelay = s.pendDelay) ∧
    (s.state ≠ .imgDesc → t.pendLct = s.pendLct ∧ t.frames.length = s.frames.length) :=
  ⟨fun _ => h.screen, fun _ => h.gct, fun _ => h.pendDelay, fun _ => h.frames⟩

/-- Settles O45: the four handlers that write a control register, each in its own state; every other way writes none. -/
theorem controlRegistersHaveOneWriter : Obligations.ControlRegistersHaveOneWriter := by
  intro s t h
  have same := SameControls.refl s
  cases step_cases h with
  | screen _ _ _ hs _ =>
    exact ⟨fun hne => absurd hs hne, fun _ => same.gct, fun _ => same.pendDelay, fun _ => same.frames⟩
  | globalTable _ hs _ _ =>
    exact ⟨fun _ => same.screen, fun hne => absurd hs hne, fun _ => same.pendDelay, fun _ => same.frames⟩
  | control _ hs _ | controlFaulted _ _ _ _ _ hs _ _ _ =>
    exact ⟨fun _ => same.screen, fun _ => same.gct, fun hne => absurd hs hne, fun _ => same.frames⟩
  | descriptor _ _ _ hs _ _ =>
    exact ⟨fun _ => same.screen, fun _ => same.gct, fun _ => same.pendDelay, fun hne => absurd hs hne⟩
  | signature _ _ | lookahead _ _ _ _ | endOfStream _ _ | extension _ _ _ _ | skipped _ _ _ _ => exact same.one_writer
  | localTable _ _ _ _ _ _ =>
    exact SameControls.one_writer ⟨same.screen, same.gct, same.pendDelay, rfl, length_updateLast _ _⟩
  | trailer _ _ =>
    rw [State.warnIf_eq]
    exact same.one_writer
  | code _ _ _ _ _ honly => exact (honly.worked 0).sameControls.one_writer
  | image u f rgb _ hu _ _ _ => exact (hu.sameControls.trans (withImage_sameControls u f rgb)).one_writer
  | faulted u _ _ _ _ _ hu _ _ =>
    obtain ⟨hscreen, hgct, hdelay, hframes⟩ := hu.sameControls
    exact SameControls.one_writer ⟨hscreen, hgct, hdelay, hframes⟩

/-! ### The kinds of steps -/

/-- The frames, the global table, `PEND_LCT` and `STATUS` are the same. -/
structure SameStore (s t : State) : Prop where
  frames : t.frames = s.frames
  gct : t.gct = s.gct
  pendLct : t.pendLct = s.pendLct
  status : t.status = s.status

/-- The five fault registers are the same. -/
structure SameFault (s t : State) : Prop where
  cause : t.cause = s.cause
  fstate : t.fstate = s.fstate
  fpos : t.fpos = s.fpos
  finfo : t.finfo = s.finfo
  fval : t.fval = s.fval

theorem Worked.sameStore {e : Nat} {s t : State} (h : Worked e s t) : SameStore s t := by
  rw [h.same]
  exact ⟨rfl, rfl, rfl, rfl⟩

theorem Worked.sameFault {e : Nat} {s t : State} (h : Worked e s t) : SameFault s t := by
  rw [h.same]
  exact ⟨rfl, rfl, rfl, rfl, rfl⟩

/-- A parser state in which a run goes on and no image block is open. -/
def ParserState.goesOn (p : ParserState) : Bool := p.betweenBlocks && p != .done

/-- The change from one such state to another that does not lead back to the prologue. -/
def ParserState.passesTo (p q : ParserState) : Bool := p.goesOn && q.goesOn && (p.inPrologue || !q.inPrologue)

/-- Where an image descriptor leads: its flag says whether a local table follows. -/
def ParserState.afterDescriptor (lct : Bool) : ParserState := if lct then .lct else .imgData

/-- What a step can do to the frames, to `STATUS` and to the fault registers. -/
inductive Kind (s : State) : State → Prop
  /-- between two blocks -/
  | between {t : State} : s.state.passesTo t.state = true → SameStore s t → SameFault s t → Kind s t
  /-- R184 -/
  | globalTable {t : State} : s.state = .gct → t.state = .content → t.frames = s.frames → t.pendLct = s.pendLct →
      t.status = s.status → SameFault s t → t.gct.length ∈ tableLengths → Kind s t
  /-- R186 -/
  | endOfStream : s.state = .content → Kind s ((s.warn .wEos).goto .done)
  /-- R203 -/
  | trailer (stray : Bool) : s.state = .trailer →
      Kind s (s.trailed stray)
  /-- R190 -/
  | descriptor {t : State} (w h : BitVec 16) (packed : Byte) : s.state = .imgDesc →
      t.state = .afterDescriptor (idLctFlag packed) →
      t.frames = s.frames ++ [newFrame w h packed s.pendDelay s.gct] → t.gct = s.gct → t.pendLct = idLctFlag packed →
      t.status = s.status → SameFault s t → Kind s t
  /-- R192 -/
  | localTable {t : State} (f : Frame) (cs : List Color) : s.state = .lct → t.state = .imgData → s.active = some f →
      cs.length ∈ tableLengths → SameStore (s.updateActive fun g => { g with pal := cs, palValid := true }) t →
      SameFault s t → Kind s t
  /-- R142 to R153 -/
  | code {t : State} : s.state = .imgData → t.state = .imgData → SameStore s t → SameFault s t → Kind s t
  /-- R194 -/
  | image (u : State) (f : Frame) (rgb : List Byte) : s.state = .imgData → SameStore s u → SameFault s u →
      s.active = some f → rgb.length = 3 * u.out.length → Kind s (u.withImage f rgb)
  /-- 60_exceptions.md R250 -/
  | faulted (u : State) (c : Cause) (sub : BitVec 4) (val : Nat) : s.state ≠ .done → s.state ≠ .fault →
      u.state = s.state → SameStore s u → c ≠ .none → c ≠ .unsupportedFeature → Kind s (u.raise c sub val)

theorem Way.kind {s t : State} (h : Way s t) : Kind s t := by
  cases h with
  | signature hs _ | control _ hs _ =>
    exact .between (by rw [hs]; rfl) ⟨rfl, rfl, rfl, rfl⟩ ⟨rfl, rfl, rfl, rfl, rfl⟩
  | screen _ _ packed hs _ =>
    refine .between ?_ ⟨rfl, rfl, rfl, rfl⟩ ⟨rfl, rfl, rfl, rfl, rfl⟩
    rw [hs, State.goto_state]
    cases lsdGctFlag packed <;> rfl
  | lookahead p hs _ hp =>
    refine .between ?_ ⟨rfl, rfl, rfl, rfl⟩ ⟨rfl, rfl, rfl, rfl, rfl⟩
    rw [hs]
    rcases hp with rfl | rfl | rfl <;> rfl
  | extension p hs _ hp =>
    refine .between ?_ ⟨rfl, rfl, rfl, rfl⟩ ⟨rfl, rfl, rfl, rfl, rfl⟩
    rw [hs]
    rcases hp with rfl | rfl | rfl <;> rfl
  | skipped _ hs _ _ =>
    refine .between ?_ ⟨rfl, rfl, rfl, rfl⟩ ⟨rfl, rfl, rfl, rfl, rfl⟩
    rcases hs with hs | hs <;> rw [hs] <;> rfl
  | globalTable cs hs hlen _ =>
    exact .globalTable hs rfl rfl rfl rfl ⟨rfl, rfl, rfl, rfl, rfl⟩ (hlen ▸ tableEntries_mem s.gctRes)
  | endOfStream hs _ => exact .endOfStream hs
  | trailer hs _ => exact .trailer _ hs
  | descriptor w h packed hs _ _ =>
    exact .descriptor w h packed hs rfl rfl rfl rfl rfl ⟨rfl, rfl, rfl, rfl, rfl⟩
  | localTable f cs hs hactive hlen _ =>
    exact .localTable f cs hs rfl hactive (hlen ▸ tableEntries_mem f.res) ⟨rfl, rfl, rfl, rfl⟩ ⟨rfl, rfl, rfl, rfl, rfl⟩
  | code p t hs _ _ honly =>
    have hw := honly.worked 0
    exact .code hs (honly.state.trans hs) hw.sameStore hw.sameFault
  | image u f rgb hs hu _ hactive hm => exact .image u f rgb hs hu.sameStore hu.sameFault hactive (length_materialize hm)
  | faulted u c sub val hdone hfault hu hc hn => exact .faulted u c sub val hdone hfault hu.state hu.sameStore hc hn
  | controlFaulted n d c sub val hs _ hc hn =>
    exact .faulted (s.withDelay n d) c sub val (by rw [hs]; nofun) (by rw [hs]; nofun) rfl ⟨rfl, rfl, rfl, rfl⟩ hc hn

theorem step_kind {s t : State} (h : step s = .next t) : Kind s t := (step_cases h).kind

/-! ### Where a step that goes on leads -/

theorem ParserState.goesOn_iff {p : ParserState} :
    p.goesOn = true ↔ p.betweenBlocks = true ∧ p ≠ .done ∧ p ≠ .fault ∧ p ≠ .lct ∧ p ≠ .imgData := by
  cases p <;> decide

theorem ParserState.passesTo_iff {p q : ParserState} :
    p.passesTo q = true ↔ p.goesOn = true ∧ q.goesOn = true ∧ (q.inPrologue = true → p.inPrologue = true) := by
  simp only [ParserState.passesTo, Bool.and_eq_true, Bool.or_eq_true, Bool.not_eq_true', and_assoc]
  cases p.inPrologue <;> cases q.inPrologue <;> simp

theorem ParserState.afterDescriptor_ne (lct : Bool) :
    (afterDescriptor lct).betweenBlocks = false ∧ afterDescriptor lct ≠ .done ∧ afterDescriptor lct ≠ .fault ∧
      (afterDescriptor lct).inPrologue = false := by
  cases lct <;> decide

/-! ### The fault registers (60_exceptions.md R250, R252) -/

theorem SameFault.recorded {s t : State} (h : SameFault s t) (ht : t.state ≠ .fault) :
    (t.state = .fault →
      t.fstate = s.state ∧ t.fpos = t.pos ∧ t.cause ≠ .none ∧ t.cause ≠ .unsupportedFeature ∧ t.status = s.status) ∧
    (t.state ≠ .fault →
      t.cause = s.cause ∧ t.fstate = s.fstate ∧ t.fpos = s.fpos ∧ t.finfo = s.finfo ∧ t.fval = s.fval) :=
  ⟨fun hfault => absurd hfault ht, fun _ => ⟨h.cause, h.fstate, h.fpos, h.finfo, h.fval⟩⟩

/-- Settles O42: fault entry writes the fault registers, and no other kind of step does or leads to `FAULT`. -/
theorem faultEntryRecordsTheFault : Obligations.FaultEntryRecordsTheFault := by
  intro s t h
  cases step_kind h with
  | between hpass _ hsame =>
    obtain ⟨-, ht, -⟩ := ParserState.passesTo_iff.mp hpass
    obtain ⟨-, -, hne, -, -⟩ := ParserState.goesOn_iff.mp ht
    exact hsame.recorded hne
  | globalTable _ ht _ _ _ hsame _ => exact hsame.recorded (by rw [ht]; nofun)
  | endOfStream _ => exact SameFault.recorded ⟨rfl, rfl, rfl, rfl, rfl⟩ nofun
  | trailer _ _ =>
    rw [State.trailed, State.warnIf_eq]
    exact SameFault.recorded ⟨rfl, rfl, rfl, rfl, rfl⟩ nofun
  | descriptor w _ packed _ ht _ _ _ _ hsame =>
    obtain ⟨-, -, hne, -⟩ := ParserState.afterDescriptor_ne (idLctFlag packed)
    exact hsame.recorded (ht ▸ hne)
  | localTable _ _ _ ht _ _ _ hsame => exact hsame.recorded (by rw [ht]; nofun)
  | code _ ht _ hsame => exact hsame.recorded (by rw [ht]; nofun)
  | image u f rgb _ _ hsame _ _ =>
    rw [State.withImage_eq]
    exact SameFault.recorded ⟨hsame.cause, hsame.fstate, hsame.fpos, hsame.finfo, hsame.fval⟩ nofun
  | faulted u c sub val _ _ hu hstore hc hn =>
    exact ⟨fun _ => ⟨hu, rfl, hc, hn, hstore.status⟩, fun hne => absurd rfl hne⟩

/-! ### The bits of STATUS (60_exceptions.md R260) -/

/-- A flag that a step can only set, and sets only where `P` holds. -/
theorem flag_of_or {s t : State} {f : StatusFlag} {b : Bool} {P : Prop} (h : t.flag f = (s.flag f || b))
    (hP : b = true → P) :
    (s.flag f = true → t.flag f = true) ∧ (s.flag f = false → t.flag f = true → P) := by
  rw [h]
  refine ⟨fun hs => by rw [hs, Bool.true_or], fun hs ht => hP ?_⟩
  rw [hs, Bool.false_or] at ht
  exact ht

theorem flag_of_same {s t : State} {f : StatusFlag} {P : Prop} (h : t.status = s.status) :
    (s.flag f = true → t.flag f = true) ∧ (s.flag f = false → t.flag f = true → P) :=
  flag_of_or (b := false) (by rw [Bool.or_false]; exact State.flag_congr h f) nofun

theorem flag_goto (s : State) (p : ParserState) (f : StatusFlag) : (s.goto p).flag f = s.flag f := rfl

theorem flag_withImage (s : State) (f : Frame) (rgb : List Byte) (g : StatusFlag) :
    (s.withImage f rgb).flag g = (s.flag g || (!s.eoiSeen && decide (g = .wNoeoi) ||
      decide (s.out.length ≠ f.w.toNat * f.h.toNat) && decide (g = .wPixcount) || f.interlace && decide (g = .wUnsup))) := by
  have hstatus : (s.withImage f rgb).status = (s.imageWarnings f).status := by rw [State.withImage_eq]
  rw [State.flag_congr hstatus, State.imageWarnings, State.flag_warnIf, State.flag_warnIf, State.flag_warnIf]
  simp only [Bool.or_assoc]

theorem flag_trailer (s : State) (stray : Bool) (f : StatusFlag) :
    (s.trailed stray).flag f =
      (s.flag f || (decide (f = .trailerSeen) || stray && decide (f = .wStray))) := by
  rw [State.trailed, flag_goto, State.flag_warnIf, State.flag_warn, Bool.or_assoc]
  rfl

/-- Settles O46: three kinds of steps warn, each only ever setting its own bits. -/
theorem warningsAreSticky : Obligations.WarningsAreSticky := by
  intro s t f h
  cases step_kind h with
  | between _ hstore _ | code _ _ hstore _ | faulted _ _ _ _ _ _ _ hstore _ _ | localTable _ _ _ _ _ _ hstore _ =>
    exact flag_of_same hstore.status
  | globalTable _ _ _ _ hstatus _ _ | descriptor _ _ _ _ _ _ _ _ hstatus _ => exact flag_of_same hstatus
  | endOfStream hs =>
    refine flag_of_or (State.flag_warn s .wEos f) fun hset => ?_
    rw [of_decide_eq_true hset]
    exact hs
  | trailer stray hs =>
    refine flag_of_or (flag_trailer s stray f) fun hset => ?_
    cases f with
    | wStray | trailerSeen => exact hs
    | _ => simp at hset
  | image u g rgb hs hstore _ _ _ =>
    have hflag := flag_withImage u g rgb f
    rw [State.flag_congr hstore.status] at hflag
    refine flag_of_or hflag fun hset => ?_
    cases f with
    | wUnsup | wPixcount | wNoeoi => exact hs
    | _ => simp at hset

/-! ### The frames (10_state.md R43, R44) -/

/-- Settles O48: the three kinds of steps that write the frame list. -/
theorem aStepWritesNoFrameButTheLast : Obligations.AStepWritesNoFrameButTheLast := by
  intro s t h
  cases step_kind h with
  | between _ hstore _ | code _ _ hstore _ | faulted _ _ _ _ _ _ _ hstore _ _ => exact .inl hstore.frames
  | globalTable _ _ hframes _ _ _ _ => exact .inl hframes
  | endOfStream _ => exact .inl rfl
  | trailer _ _ => exact .inl (State.warnIf_frames ..)
  | descriptor _ _ _ hs _ hframes _ _ _ _ => exact .inr (.inl ⟨hs, _, hframes, rfl, rfl, rfl⟩)
  | localTable f cs hs _ hactive _ hstore _ =>
    obtain ⟨fs, hfs⟩ := State.active_eq_some.mp hactive
    exact .inr (.inr (.inl ⟨hs, fs, f, cs, hfs, hstore.frames.trans (State.frames_updateActive hfs _)⟩))
  | image u f rgb hs hstore _ hactive _ =>
    obtain ⟨fs, hfs⟩ := State.active_eq_some.mp hactive
    refine .inr (.inr (.inr ⟨hs, fs, f, rgb, u.out.length, hfs, ?_⟩))
    rw [State.withImage_eq, hstore.frames, hfs, updateLast_append]

/-- An element of `xs ++ [a]` is one of `xs`, or the last one. -/
theorem getElem?_concat_cases {α : Type} {xs : List α} {a b : α} {i : Nat} (h : (xs ++ [a])[i]? = some b) :
    xs[i]? = some b ∨ (i = xs.length ∧ b = a) := by
  rcases Nat.lt_or_ge i xs.length with hi | hi
  · exact .inl (List.getElem?_append_left hi ▸ h)
  · rw [List.getElem?_append_right hi, List.getElem?_singleton] at h
    split at h
    · cases h
      exact .inr ⟨by omega, rfl⟩
    · cases h

theorem getElem?_concat_of_some {α : Type} {xs : List α} {b : α} {i : Nat} (h : xs[i]? = some b) (a : α) :
    (xs ++ [a])[i]? = some b := by
  obtain ⟨hlt, -⟩ := List.getElem?_eq_some_iff.mp h
  rw [List.getElem?_append_left hlt, h]

theorem frame_kept {t : State} {i : Nat} {f : Frame} (h : t.frames[i]? = some f) :
    (f.pixValid = true → t.frames[i]? = some f) ∧
    (f.palValid = true → ∃ g : Frame, t.frames[i]? = some g ∧ g.pal = f.pal ∧ g.palValid = true) :=
  ⟨fun _ => h, fun hpal => ⟨f, h, rfl, hpal⟩⟩

/-- Settles O60: the record that a step writes still awaits what is written, as the invariant says of its parser state. -/
theorem finishedFramesAreImmutable : Obligations.FinishedFramesAreImmutable := by
  intro s t hok h i f hi
  rcases aStepWritesNoFrameButTheLast s t h with
    hsame | ⟨-, g, hadded, -⟩ | ⟨hs, fs, last, pal, hfs, ht⟩ | ⟨hs, fs, last, pix, npix, hfs, ht⟩
  · exact frame_kept (hsame ▸ hi)
  · exact frame_kept (hadded ▸ getElem?_concat_of_some hi g)
  · obtain ⟨g, hactive, -, hpal, hpix⟩ := hok.awaitsLct hs
    rw [State.active_eq_some.mpr ⟨fs, hfs⟩] at hactive
    cases hactive
    rw [hfs] at hi
    rcases getElem?_concat_cases hi with hbefore | ⟨-, rfl⟩
    · exact frame_kept (ht ▸ getElem?_concat_of_some hbefore _)
    · exact ⟨fun hv => Bool.noConfusion (hpix.symm.trans hv), fun hv => Bool.noConfusion (hpal.symm.trans hv)⟩
  · obtain ⟨g, hactive, hpal, hpix⟩ := hok.awaitsPix hs
    rw [State.active_eq_some.mpr ⟨fs, hfs⟩] at hactive
    cases hactive
    rw [hfs] at hi
    rcases getElem?_concat_cases hi with hbefore | ⟨rfl, rfl⟩
    · exact frame_kept (ht ▸ getElem?_concat_of_some hbefore _)
    · have hlast := List.getElem?_concat_length (l := fs) (a := { f with pix := pix, npix := npix, pixValid := true })
      rw [← ht] at hlast
      exact ⟨fun hv => Bool.noConfusion (hpix.symm.trans hv), fun _ => ⟨_, hlast, rfl, hpal⟩⟩

end Sys2Proof.Machine
end

section
/-! PROOFS. The invariants between steps: reset meets all three, and every kind of step keeps the frame store (43_container.md
R205, 10_state.md R28, R42, R43) and the end of a run (10_state.md R31, 70_reset_and_hazards.md R286). -/

namespace Sys2Proof.Machine

/-- Settles O2: reset is what a launch binds a stream to, with none bound. -/
theorem resetMeetsTheInvariants : Obligations.ResetMeetsTheInvariants :=
  fun cfg => ⟨streamOk_resetWith cfg (bytes := []) (by decide), frameStoreOk_resetWith cfg [] 0, endOk_resetWith cfg [] 0⟩

/-! ### The frame store -/

/-- Palette and pixels of every record are stored. -/
def AllComplete (fs : List Frame) : Prop := ∀ f ∈ fs, f.palValid = true ∧ f.pixValid = true

theorem forall_mem_concat {P : Frame → Prop} {fs : List Frame} {f : Frame} (hfs : ∀ g ∈ fs, P g) (hf : P f) :
    ∀ g ∈ fs ++ [f], P g := by
  intro g hg
  rcases List.mem_append.mp hg with hg | hg
  · exact hfs g hg
  · rw [List.mem_singleton.mp hg]
    exact hf

theorem ParserState.betweenBlocks_iff {p : ParserState} :
    p.betweenBlocks = true ↔ p ≠ .lct ∧ p ≠ .imgData ∧ p ≠ .fault := by
  cases p <;> decide

theorem active_of_concat {s : State} {fs : List Frame} {f : Frame} (h : s.frames = fs ++ [f]) : s.active = some f :=
  State.active_eq_some.mpr ⟨fs, h⟩

/-- The new record of an image descriptor. -/
theorem frameOk_newFrame (w h : BitVec 16) (packed : Byte) (delay : BitVec 20) {gct : List Color}
    (hgct : gct.length = 0 ∨ gct.length ∈ tableLengths) : FrameOk (newFrame w h packed delay gct) where
  pixels := rfl
  table := by
    unfold newFrame
    cases idLctFlag packed
    · exact hgct
    · exact .inl rfl
  pending := by
    unfold newFrame
    cases idLctFlag packed
    · exact nofun
    · exact fun _ => ⟨rfl, rfl, rfl⟩
  unstored := fun _ => ⟨rfl, rfl⟩

section
variable {s t : State} (hok : FrameStoreOk s)
include hok

/-- No frame is written, and no image block is open before or after. -/
theorem FrameStoreOk.between (hs : s.state.betweenBlocks = true) (ht : t.state.betweenBlocks = true)
    (hframes : t.frames = s.frames) (hlct : t.pendLct = s.pendLct)
    (hgct : t.gct.length = 0 ∨ t.gct.length ∈ tableLengths)
    (hprologue : t.state.inPrologue = true → t.frames = [] ∧ t.gct = []) : FrameStoreOk t := by
  obtain ⟨hne, hne', hne''⟩ := ParserState.betweenBlocks_iff.mp ht
  have hactive : t.active = s.active := by rw [State.active, hframes]; rfl
  exact {
    records := hframes ▸ hok.records
    earlier := hframes ▸ hok.earlier
    complete := fun _ => hframes ▸ hok.complete hs
    faulted := fun h => absurd h hne''
    awaitsLct := fun h => absurd h hne
    awaitsPix := fun h => absurd h hne'
    pending := by rw [hactive, hlct]; exact hok.pending
    global := hgct
    prologue := hprologue }

/-- A record without pixels is added behind complete ones. -/
theorem FrameStoreOk.descriptor {w h : BitVec 16} {packed : Byte} (hs : s.state = .imgDesc)
    (ht : t.state = .afterDescriptor (idLctFlag packed))
    (hframes : t.frames = s.frames ++ [newFrame w h packed s.pendDelay s.gct]) (hgct : t.gct = s.gct)
    (hlct : t.pendLct = idLctFlag packed) : FrameStoreOk t := by
  have hall : AllComplete s.frames := hok.complete (by rw [hs]; rfl)
  have hactive := active_of_concat hframes
  obtain ⟨hblock, -, hfault, hprologue⟩ := ParserState.afterDescriptor_ne (idLctFlag packed)
  rw [← ht] at hblock hfault hprologue
  exact {
    records := hframes ▸ forall_mem_concat hok.records (frameOk_newFrame w h packed s.pendDelay hok.global)
    earlier := by rw [hframes, List.dropLast_concat]; exact hall
    complete := fun h => Bool.noConfusion (hblock.symm.trans h)
    faulted := fun h => absurd h hfault
    awaitsLct := fun h => by
      rw [ht] at h
      cases hflag : idLctFlag packed with
      | true => exact ⟨_, hactive, hflag, by rw [newFrame, hflag]; rfl, rfl⟩
      | false => rw [hflag] at h; cases h
    awaitsPix := fun h => by
      rw [ht] at h
      cases hflag : idLctFlag packed with
      | true => rw [hflag] at h; cases h
      | false => exact ⟨_, hactive, by rw [newFrame, hflag]; rfl, rfl⟩
    pending := fun f hf => by cases hactive.symm.trans hf; exact hlct
    global := hgct ▸ hok.global
    prologue := fun h => Bool.noConfusion (hprologue.symm.trans h) }

/-- The awaited palette goes to the last record. -/
theorem FrameStoreOk.localTable {f : Frame} {cs : List Color} (hs : s.state = .lct) (ht : t.state = .imgData)
    (hactive : s.active = some f) (hlen : cs.length ∈ tableLengths)
    (hstore : SameStore (s.updateActive fun g => { g with pal := cs, palValid := true }) t) : FrameStoreOk t := by
  obtain ⟨fs, hfs⟩ := State.active_eq_some.mp hactive
  have hframes := hstore.frames.trans (State.frames_updateActive hfs _)
  have htactive := active_of_concat hframes
  obtain ⟨g, hg, -, -, hpix⟩ := hok.awaitsLct hs
  cases hactive.symm.trans hg
  have hrecords := hfs ▸ hok.records
  have hf := hrecords f (by simp)
  have hearlier := hok.earlier
  rw [hfs, List.dropLast_concat] at hearlier
  exact {
    records := hframes ▸ forall_mem_concat (fun g hg => hrecords g (by simp [hg]))
      ⟨hf.pixels, .inr hlen, nofun, hf.unstored⟩
    earlier := by rw [hframes, List.dropLast_concat]; exact hearlier
    complete := by rw [ht]; nofun
    faulted := by rw [ht]; nofun
    awaitsLct := by rw [ht]; nofun
    awaitsPix := fun _ => ⟨_, htactive, rfl, hpix⟩
    pending := fun g hg => by cases htactive.symm.trans hg; exact hstore.pendLct.trans (hok.pending f hactive)
    global := hstore.gct ▸ hok.global
    prologue := by rw [ht]; nofun }

/-- A code of the payload. -/
theorem FrameStoreOk.code (hs : s.state = .imgData) (ht : t.state = .imgData) (hstore : SameStore s t) :
    FrameStoreOk t := by
  have hactive : t.active = s.active := by rw [State.active, hstore.frames]; rfl
  exact {
    records := hstore.frames ▸ hok.records
    earlier := hstore.frames ▸ hok.earlier
    complete := by rw [ht]; nofun
    faulted := by rw [ht]; nofun
    awaitsLct := by rw [ht]; nofun
    awaitsPix := fun _ => hactive ▸ hok.awaitsPix hs
    pending := by rw [hactive, hstore.pendLct]; exact hok.pending
    global := hstore.gct ▸ hok.global
    prologue := by rw [ht]; nofun }

/-- The awaited pixels go to the last record, which is complete then. -/
theorem FrameStoreOk.image {f : Frame} {rgb : List Byte} (hs : s.state = .imgData) (hstore : SameStore s t)
    (hactive : s.active = some f) (hlen : rgb.length = 3 * t.out.length) : FrameStoreOk (t.withImage f rgb) := by
  obtain ⟨fs, hfs⟩ := State.active_eq_some.mp hactive
  obtain ⟨g, hg, hpal, -⟩ := hok.awaitsPix hs
  cases hactive.symm.trans hg
  have hrecords := hfs ▸ hok.records
  have hf := hrecords f (by simp)
  have hearlier := hok.earlier
  rw [hfs, List.dropLast_concat] at hearlier
  rw [State.withImage_eq, hstore.frames, hfs, updateLast_append]
  exact {
    records := forall_mem_concat (fun g hg => hrecords g (by simp [hg]))
      ⟨hlen, hf.table, fun h => Bool.noConfusion (hpal.symm.trans h), nofun⟩
    earlier := by rw [List.dropLast_concat]; exact hearlier
    complete := fun _ => forall_mem_concat hearlier ⟨hpal, rfl⟩
    faulted := nofun
    awaitsLct := nofun
    awaitsPix := nofun
    pending := fun g hg => by
      cases (active_of_concat rfl).symm.trans hg
      exact hstore.pendLct.trans (hok.pending f hactive)
    global := hstore.gct ▸ hok.global
    prologue := nofun }

/-- Fault entry. -/
theorem FrameStoreOk.faultEntry (hfault : s.state ≠ .fault) (ht : t.state = s.state) (hstore : SameStore s t) (c : Cause)
    (sub : BitVec 4) (val : Nat) : FrameStoreOk (t.raise c sub val) := by
  have hactive : (t.raise c sub val).active = s.active := by rw [State.active, State.raise_frames, hstore.frames]; rfl
  exact {
    records := hstore.frames ▸ hok.records
    earlier := hstore.frames ▸ hok.earlier
    complete := nofun
    faulted := fun _ hlct himg => by
      rw [State.raise_fstate, ht] at hlct himg
      exact hstore.frames ▸ hok.complete (ParserState.betweenBlocks_iff.mpr ⟨hlct, himg, hfault⟩)
    awaitsLct := nofun
    awaitsPix := nofun
    pending := fun f hf => hstore.pendLct.trans (hok.pending f (hactive ▸ hf))
    global := hstore.gct ▸ hok.global
    prologue := nofun }

end

/-- Settles O50: by the kinds of steps. -/
theorem stepsKeepTheFrameStoreInvariant : Obligations.StepsKeepTheFrameStoreInvariant := by
  intro s t hok h
  cases step_kind h with
  | between hpass hstore _ =>
    obtain ⟨hs, ht, hprologue⟩ := ParserState.passesTo_iff.mp hpass
    refine hok.between (ParserState.goesOn_iff.mp hs).1 (ParserState.goesOn_iff.mp ht).1 hstore.frames hstore.pendLct
      (hstore.gct ▸ hok.global) fun h => ?_
    rw [hstore.frames, hstore.gct]
    exact hok.prologue (hprologue h)
  | globalTable hs ht hframes hlct _ _ hlen =>
    exact hok.between (by rw [hs]; rfl) (by rw [ht]; rfl) hframes hlct (.inr hlen) (by rw [ht]; nofun)
  | endOfStream hs => exact hok.between (by rw [hs]; rfl) rfl rfl rfl hok.global nofun
  | trailer _ hs =>
    rw [State.trailed, State.warnIf_eq]
    exact hok.between (by rw [hs]; rfl) rfl rfl rfl hok.global nofun
  | descriptor _ _ _ hs ht hframes hgct hlct _ _ => exact hok.descriptor hs ht hframes hgct hlct
  | localTable f cs hs ht hactive hlen hstore _ => exact hok.localTable hs ht hactive hlen hstore
  | code hs ht hstore _ => exact hok.code hs ht hstore
  | image u f rgb hs hstore _ hactive hlen => exact hok.image hs hstore hactive hlen
  | faulted u c sub val _ hfault hu hstore _ _ => exact hok.faultEntry hfault hu hstore c sub val

/-! ### The end of a run -/

section
variable {s t : State} (hok : EndOk s)
include hok

theorem EndOk.cause_none (hs : s.state ≠ .fault) : s.cause = .none := hok.cause.mpr hs

/-- A step that does not end the run, and sets none of the three bits that say so. -/
theorem EndOk.goesOn (hsd : s.state ≠ .done) (hsf : s.state ≠ .fault) (htd : t.state ≠ .done) (htf : t.state ≠ .fault)
    (hfault : SameFault s t)
    (hflags : ∀ f : StatusFlag, f = .trailerSeen ∨ f = .wEos ∨ f = .wStray → t.flag f = s.flag f) : EndOk t := by
  obtain ⟨hseen, heos, hstray⟩ := hok.running hsd
  exact {
    cause := ⟨fun _ => htf, fun _ => hfault.cause.trans (hok.cause_none hsf)⟩
    reserved := hfault.cause ▸ hok.reserved
    location := fun h => absurd h htf
    ended := fun h => absurd h htd
    running := fun _ => by
      rw [hflags _ (.inl rfl), hflags _ (.inr (.inl rfl)), hflags _ (.inr (.inr rfl))]
      exact ⟨hseen, heos, hstray⟩ }

/-- A step that ends the run with one of the two bits. -/
theorem EndOk.done (hsf : s.state ≠ .fault) (ht : t.state = .done) (hfault : SameFault s t)
    (hflag : t.flag .trailerSeen = true ∨ t.flag .wEos = true) : EndOk t where
  cause := ⟨fun _ => by rw [ht]; nofun, fun _ => hfault.cause.trans (hok.cause_none hsf)⟩
  reserved := hfault.cause ▸ hok.reserved
  location := by rw [ht]; nofun
  ended := fun _ => hflag
  running := fun h => absurd ht h

/-- Fault entry. -/
theorem EndOk.faultEntry (hsd : s.state ≠ .done) (hsf : s.state ≠ .fault) (ht : t.state = s.state) (hstore : SameStore s t)
    {c : Cause} (hc : c ≠ .none) (hn : c ≠ .unsupportedFeature) (sub : BitVec 4) (val : Nat) :
    EndOk (t.raise c sub val) where
  cause := ⟨fun h => absurd h hc, fun h => absurd rfl h⟩
  reserved := hn
  location := fun _ => by
    rw [State.raise_fstate, ht]
    exact ⟨rfl, hsd, hsf⟩
  ended := nofun
  running := fun _ => by
    have hflag (f : StatusFlag) : (t.raise c sub val).flag f = s.flag f := State.flag_congr hstore.status f
    rw [hflag, hflag, hflag]
    exact hok.running hsd

end

/-- The warnings of an image block are none of the three bits. -/
theorem flag_withImage_of_end (s : State) (f : Frame) (rgb : List Byte) {g : StatusFlag}
    (hg : g = .trailerSeen ∨ g = .wEos ∨ g = .wStray) : (s.withImage f rgb).flag g = s.flag g := by
  rw [flag_withImage]
  rcases hg with rfl | rfl | rfl <;> simp

/-- Settles O51: by the kinds of steps. -/
theorem stepsKeepTheEndInvariant : Obligations.StepsKeepTheEndInvariant := by
  intro s t hok h
  cases step_kind h with
  | between hpass hstore hfault =>
    obtain ⟨hs, ht, -⟩ := ParserState.passesTo_iff.mp hpass
    obtain ⟨-, hsd, hsf, -⟩ := ParserState.goesOn_iff.mp hs
    obtain ⟨-, htd, htf, -⟩ := ParserState.goesOn_iff.mp ht
    exact hok.goesOn hsd hsf htd htf hfault fun f _ => State.flag_congr hstore.status f
  | globalTable hs ht _ _ hstatus hfault _ =>
    exact hok.goesOn (by rw [hs]; nofun) (by rw [hs]; nofun) (by rw [ht]; nofun) (by rw [ht]; nofun) hfault
      fun f _ => State.flag_congr hstatus f
  | endOfStream hs =>
    refine hok.done (by rw [hs]; nofun) rfl ⟨rfl, rfl, rfl, rfl, rfl⟩ (.inr ?_)
    rw [flag_goto, State.flag_warn]
    simp
  | trailer stray hs =>
    have hflag : (s.trailed stray).flag .trailerSeen = true := by
      rw [flag_trailer]
      simp
    refine hok.done (by rw [hs]; nofun) rfl ?_ (.inl hflag)
    rw [State.trailed, State.warnIf_eq]
    exact ⟨rfl, rfl, rfl, rfl, rfl⟩
  | descriptor _ _ packed hs ht _ _ _ hstatus hfault =>
    obtain ⟨-, htd, htf, -⟩ := ParserState.afterDescriptor_ne (idLctFlag packed)
    exact hok.goesOn (by rw [hs]; nofun) (by rw [hs]; nofun) (ht ▸ htd) (ht ▸ htf) hfault
      fun f _ => State.flag_congr hstatus f
  | localTable f cs hs ht _ _ hstore hfault =>
    exact hok.goesOn (by rw [hs]; nofun) (by rw [hs]; nofun) (by rw [ht]; nofun) (by rw [ht]; nofun) hfault
      fun f _ => State.flag_congr hstore.status f
  | code hs ht hstore hfault =>
    exact hok.goesOn (by rw [hs]; nofun) (by rw [hs]; nofun) (by rw [ht]; nofun) (by rw [ht]; nofun) hfault
      fun f _ => State.flag_congr hstore.status f
  | image u f rgb hs hstore hfault _ _ =>
    have hsame : SameFault s (u.withImage f rgb) := by
      rw [State.withImage_eq]
      exact ⟨hfault.cause, hfault.fstate, hfault.fpos, hfault.finfo, hfault.fval⟩
    have ht : (u.withImage f rgb).state = .content := by rw [State.withImage_eq]
    exact hok.goesOn (by rw [hs]; nofun) (by rw [hs]; nofun) (by rw [ht]; nofun) (by rw [ht]; nofun) hsame
      fun g hg => (flag_withImage_of_end u f rgb hg).trans (State.flag_congr hstore.status g)
  | faulted u c sub val hsd hsf hu hstore hc hn => exact hok.faultEntry hsd hsf hu hstore hc hn sub val

end Sys2Proof.Machine
end

section
/-! PROOFS. The LZW registers while a decode is under way (10_state.md R33 to R36, R41). The Code Table keeps its shape on its own:
`TableOk` holds of the initial table, and of a table with an entry appended that is short enough. `LzwRegs` is `LzwOk` without the
parser state, which no code looks at. -/

namespace Sys2Proof.Machine

/-! ### The Code Table -/

/-- The shape of a Code Table whose Clear Code is `cc`. -/
structure TableOk (cc : Nat) (dict : List (List Nat)) : Prop where
  size : cc + 2 ≤ dict.length ∧ dict.length ≤ tableMax
  literals : ∀ i, i < cc → dict[i]? = some [i]
  reserved : dict[cc]? = some [] ∧ dict[cc + 1]? = some []
  appended : ∀ i e, cc + 1 < i → dict[i]? = some e → 1 ≤ e.length ∧ e.length ≤ i - cc
  indices : ∀ e ∈ dict, ∀ x ∈ e, x < cc

theorem tableOk_initialTable {cc : Nat} (h : cc + 2 ≤ tableMax) : TableOk cc (initialTable cc) where
  size := by
    rw [length_initialTable]
    exact ⟨Nat.le_refl _, h⟩
  literals := fun _ hi => initialTable_literal hi
  reserved := initialTable_reserved cc
  appended := fun i e hi he => by
    obtain ⟨hlt, -⟩ := List.getElem?_eq_some_iff.mp he
    rw [length_initialTable] at hlt
    omega
  indices := fun e he x hx => by
    rcases List.mem_append.mp he with he | he
    · obtain ⟨i, hi, rfl⟩ := List.mem_map.mp he
      rw [List.mem_singleton.mp hx]
      exact List.mem_range.mp hi
    · have hnil : e = [] := by simpa using he
      rw [hnil] at hx
      cases hx

section
variable {cc : Nat} {dict : List (List Nat)} (h : TableOk cc dict)
include h

/-- The entry of a code that is not reserved is not empty. -/
theorem TableOk.length_pos {i : Nat} {e : List Nat} (he : dict[i]? = some e) (hcc : i ≠ cc) (heoi : i ≠ cc + 1) :
    1 ≤ e.length := by
  by_cases hlit : i < cc
  · cases (h.literals i hlit).symm.trans he
    exact Nat.le_refl 1
  · exact (h.appended i e (by omega) he).1

/-- No entry is so long that with one more element it were too long for the end of the table. -/
theorem TableOk.length_le {i : Nat} {e : List Nat} (he : dict[i]? = some e) : e.length + 1 ≤ dict.length - cc := by
  obtain ⟨hsize, -⟩ := h.size
  obtain ⟨hlt, -⟩ := List.getElem?_eq_some_iff.mp he
  rcases Nat.lt_trichotomy i cc with hi | rfl | hi
  · cases (h.literals i hi).symm.trans he
    rw [List.length_singleton]
    omega
  · cases h.reserved.1.symm.trans he
    rw [List.length_nil]
    omega
  · by_cases heoi : i = cc + 1
    · subst heoi
      cases h.reserved.2.symm.trans he
      rw [List.length_nil]
      omega
    · have := (h.appended i e (by omega) he).2
      omega

theorem TableOk.index_lt {i x : Nat} {e : List Nat} (he : dict[i]? = some e) (hx : x ∈ e) : x < cc :=
  h.indices e (List.mem_of_getElem? he) x hx

theorem TableOk.append {e : List Nat} (hroom : dict.length < tableMax) (hpos : 1 ≤ e.length)
    (hlen : e.length ≤ dict.length - cc) (hindices : ∀ x ∈ e, x < cc) : TableOk cc (dict ++ [e]) := by
  obtain ⟨hsize, -⟩ := h.size
  have hold {i : Nat} (hi : i < dict.length) : (dict ++ [e])[i]? = dict[i]? := List.getElem?_append_left hi
  exact {
    size := by
      rw [List.length_append, List.length_singleton]
      omega
    literals := fun i hi => (hold (by omega)).trans (h.literals i hi)
    reserved := ⟨(hold (by omega)).trans h.reserved.1, (hold (by omega)).trans h.reserved.2⟩
    appended := fun i e' hi he => by
      rcases getElem?_concat_cases he with he | ⟨rfl, rfl⟩
      · exact h.appended i e' hi he
      · exact ⟨hpos, hlen⟩
    indices := fun e' he' => by
      rcases List.mem_append.mp he' with he' | he'
      · exact h.indices e' he'
      · rw [List.mem_singleton.mp he']
        exact hindices }

end

/-- The entry that is appended: the previous one, with one more element. -/
theorem TableOk.appendedTo {s : State} (h : TableOk s.cc s.dict) {e : List Nat} {x : Nat} (hprev : s.dict[s.prev]? = some e)
    (hx : x < s.cc) : TableOk s.cc (s.appended (e ++ [x])) := by
  unfold State.appended
  split
  next hroom =>
    have hlen : (e ++ [x]).length = e.length + 1 := by rw [List.length_append, List.length_singleton]
    refine h.append hroom (by omega) (hlen ▸ h.length_le hprev) fun y hy => ?_
    rcases List.mem_append.mp hy with hy | hy
    · exact h.index_lt hprev hy
    · rw [List.mem_singleton.mp hy]
      exact hx
  next => exact h

/-! ### The code width (R154) -/

/-- The table fits the codes of a width, and a width below 12 leaves a code for the next entry. -/
def WidthFits (size w : Nat) : Prop := size ≤ 2 ^ w ∧ (w < maxWidth → size < 2 ^ w)

theorem widthFits_initial {mcs : Nat} (h : 2 ≤ mcs) : WidthFits (2 ^ mcs + 2) (mcs + 1) := by
  have hfour : 2 ^ 2 ≤ 2 ^ mcs := Nat.pow_le_pow_right Nat.two_pos h
  have hsucc : 2 ^ (mcs + 1) = 2 ^ mcs * 2 := Nat.pow_succ ..
  exact ⟨by omega, fun _ => by omega⟩

theorem State.grown_bounds {s : State} {n : Nat} (h : n ≤ s.w ∧ s.w ≤ maxWidth) : n ≤ s.grown ∧ s.grown ≤ maxWidth := by
  unfold State.grown
  split <;> omega

theorem State.length_appended (s : State) (e : List Nat) :
    (s.appended e).length = if s.dict.length < tableMax then s.dict.length + 1 else s.dict.length := by
  unfold State.appended
  split
  · rw [List.length_append, List.length_singleton]
  · rfl

theorem State.le_length_appended (s : State) (e : List Nat) : s.dict.length ≤ (s.appended e).length := by
  rw [State.length_appended]
  split <;> omega

/-- `Grow` keeps the width in step with the table. -/
theorem WidthFits.grown {s : State} (h : WidthFits s.dict.length s.w) (hw : s.w ≤ maxWidth) (e : List Nat) :
    WidthFits (s.appended e).length s.grown := by
  obtain ⟨hle, hlt⟩ := h
  rw [State.length_appended]
  unfold State.grown
  by_cases hroom : s.dict.length < tableMax
  · by_cases hgrow : s.dict.length + 1 = 2 ^ s.w ∧ s.w < maxWidth
    · have hsucc : 2 ^ (s.w + 1) = 2 ^ s.w * 2 := Nat.pow_succ ..
      rw [if_pos hroom, if_pos ⟨hroom, hgrow⟩]
      exact ⟨by omega, fun _ => by omega⟩
    · rw [if_pos hroom, if_neg fun hg => hgrow hg.2]
      rcases Nat.lt_or_ge s.w maxWidth with hsmall | hfull
      · have := hlt hsmall
        exact ⟨by omega, fun _ => by omega⟩
      · have hmax : s.w = maxWidth := Nat.le_antisymm hw hfull
        rw [hmax]
        exact ⟨hroom, fun h => absurd h (Nat.lt_irrefl _)⟩
  · rw [if_neg hroom, if_neg fun hg => hroom hg.1]
    exact ⟨hle, hlt⟩

/-! ### The registers -/

/-- `LzwOk` without the parser state. -/
structure LzwRegs (s : State) (p : CodePos) : Prop where
  mcs : s.mcs.toNat ≤ maxMcs
  clear : s.cc = 2 ^ s.mcs.toNat
  eoi : s.eoi = s.cc + 1
  width : s.mcs.toNat + 1 ≤ s.w ∧ s.w ≤ maxWidth
  table : TableOk s.cc s.dict
  emitted : ∀ x ∈ s.out, x < s.cc
  growth : 2 ≤ s.mcs.toNat → WidthFits s.dict.length s.w
  fresh : p ≠ .loop → s.w = s.mcs.toNat + 1 ∧ s.dict.length = s.cc + 2
  prev : p = .loop → s.prev < s.dict.length
  offset : s.bitOff ≤ 8 * s.pay.length

theorem lzwOk_iff {s : State} {p : CodePos} : LzwOk s p ↔ s.state = .imgData ∧ LzwRegs s p := by
  constructor
  · intro h
    have happended := h.appended
    have hreserved := h.reserved
    rw [h.eoi] at happended hreserved
    exact ⟨h.state, h.mcs, h.clear, h.eoi, h.width, ⟨h.size, h.literals, hreserved, happended, h.indices.1⟩, h.indices.2,
      h.growth, h.fresh, h.prev, h.offset⟩
  · rintro ⟨hs, h⟩
    have happended := h.table.appended
    have hreserved := h.table.reserved
    rw [← h.eoi] at happended hreserved
    exact ⟨hs, h.mcs, h.clear, h.eoi, h.width, h.table.size, h.table.literals, hreserved, happended,
      ⟨h.table.indices, h.emitted⟩, h.growth, h.fresh, h.prev, h.offset⟩

theorem two_pow_mcs_le {mcs : Nat} (h : mcs ≤ maxMcs) : 2 ^ mcs + 2 ≤ tableMax := by
  have hle : 2 ^ mcs ≤ 2 ^ maxMcs := Nat.pow_le_pow_right Nat.two_pos h
  exact Nat.le_trans (Nat.add_le_add_right hle 2) (by decide)

/-- The start of a decode. -/
theorem lzwRegs_of_lzwInit {s t : State} (h : s.lzwInit = .ok t) : LzwRegs t .start := by
  rcases Nat.lt_or_ge maxMcs s.mcs.toNat with hlarge | hle
  · rw [State.lzwInit_of_large hlarge] at h
    cases h
  · rw [State.lzwInit_of_le hle] at h
    cases h
    exact {
      mcs := hle
      clear := rfl
      eoi := rfl
      width := ⟨Nat.le_refl _, Nat.succ_le_succ hle⟩
      table := tableOk_initialTable (two_pow_mcs_le hle)
      emitted := nofun
      growth := fun hmcs => (length_initialTable _).symm ▸ widthFits_initial hmcs
      fresh := fun _ => ⟨rfl, length_initialTable _⟩
      prev := nofun
      offset := Nat.zero_le _ }

section
variable {s : State} {p : CodePos} (h : LzwRegs s p)
include h

theorem LzwRegs.emit {i : Nat} {e : List Nat} (he : s.dict[i]? = some e) : ∀ x ∈ s.out ++ e, x < s.cc := by
  intro x hx
  rcases List.mem_append.mp hx with hx | hx
  · exact h.emitted x hx
  · exact h.table.index_lt he hx

/-- The indices of the current entry. -/
theorem LzwRegs.entry_lt (x : Nat) (hx : x ∈ s.entry s.prev) : x < s.cc := by
  unfold State.entry at hx
  cases he : s.dict[s.prev]? with
  | none => rw [List.getD_eq_getElem?_getD, he] at hx; cases hx
  | some e => rw [List.getD_eq_getElem?_getD, he] at hx; exact h.table.index_lt he hx

theorem LzwRegs.forall_mem_entry_concat {x : Nat} (hx : x < s.cc) : ∀ y ∈ s.entry s.prev ++ [x], y < s.cc := by
  intro y hy
  rcases List.mem_append.mp hy with hy | hy
  · exact h.entry_lt y hy
  · rw [List.mem_singleton.mp hy]
    exact hx

/-- A Clear Code leaves the initial table, whatever was appended before. -/
theorem LzwRegs.initial : TableOk s.cc s.dictInit.dict := tableOk_initialTable (h.clear ▸ two_pow_mcs_le h.mcs)

end

/-- What a code of the main loop leaves that names the entry `u` of the table after the append of `e`. -/
def State.wrote (s : State) (c : Nat) (u e : List Nat) : State :=
  { s with bitOff := s.bitOff + s.w, out := s.out ++ u, prev := c, dict := s.appended e, w := s.grown }

theorem LzwRegs.wrote {s : State} (h : LzwRegs s .loop) {c x : Nat} {u : List Nat} (hx : x < s.cc) (hu : ∀ y ∈ u, y < s.cc)
    (hc : c < (s.appended (s.entry s.prev ++ [x])).length) (hin : s.bitOff + s.w ≤ 8 * s.pay.length) :
    LzwRegs (s.wrote c u (s.entry s.prev ++ [x])) .loop := by
  obtain ⟨e, he⟩ := State.dict_some_of_lt (h.prev rfl)
  have htable := h.table.appendedTo he hx
  rw [← State.entry_of_getElem? he] at htable
  exact { h with
    width := State.grown_bounds h.width, table := htable, emitted := fun y hy => (List.mem_append.mp hy).elim (h.emitted y) (hu y)
    growth := fun hmcs => (h.growth hmcs).grown h.width.2 _, fresh := nofun, prev := fun _ => hc, offset := hin }

/-- Every way a tick goes on keeps the registers in their ranges. -/
theorem TickWay.keeps {p q : CodePos} {s t : State} (hway : TickWay p s t) (h : LzwRegs s p) (hp : s.lzwPos = some p)
    (hin : s.bitOff + s.w ≤ 8 * s.pay.length) (hq : t.lzwPos = some q) : LzwRegs t q := by
  cases hway with
  | start hstart =>
    cases hq
    subst hstart
    exact { h with fresh := fun _ => h.fresh nofun, prev := nofun, offset := hin }
  | first c e _ he =>
    cases hq
    obtain ⟨hlt, -⟩ := List.getElem?_eq_some_iff.mp he
    exact { h with emitted := h.emit he, fresh := fun hne => absurd rfl hne, prev := fun _ => hlt, offset := hin }
  | clear v e _ hin2 he =>
    cases hq
    obtain ⟨hlt, -⟩ := List.getElem?_eq_some_iff.mp he
    have hlen : s.dictInit.dict.length = 2 ^ s.mcs.toNat + 2 := h.clear ▸ length_initialTable s.cc
    refine { h with
      width := ⟨Nat.le_refl _, Nat.succ_le_succ h.mcs⟩, table := h.initial, emitted := fun x hx => ?_
      growth := fun hmcs => hlen.symm ▸ widthFits_initial hmcs, fresh := fun hne => absurd rfl hne
      prev := fun _ => hlt, offset := hin2 }
    rcases List.mem_append.mp hx with hx | hx
    · exact h.emitted x hx
    · exact h.initial.index_lt he hx
  | eoi hloop =>
    cases hp.symm.trans hq
    exact { h with offset := hin }
  | known c e hloop hcc heoi he =>
    subst hloop
    cases hp.symm.trans hq
    obtain ⟨hlt, -⟩ := List.getElem?_eq_some_iff.mp he
    have hpos := h.table.length_pos he hcc (h.eoi ▸ heoi)
    obtain ⟨x, e', rfl⟩ := List.exists_cons_of_length_pos hpos
    have hx : x < s.cc := h.table.index_lt he (List.mem_cons_self ..)
    exact h.wrote hx (fun y hy => h.table.index_lt he hy) (Nat.lt_of_lt_of_le hlt (s.le_length_appended _)) hin
  | kwkwk x e hloop hcc heoi hmax hentry =>
    subst hloop
    cases hp.symm.trans hq
    have hx : x < s.cc := h.entry_lt x (hentry ▸ List.mem_cons_self ..)
    have hnew : s.dict.length < (s.appended (s.entry s.prev ++ [x])).length := by
      rw [s.length_appended, if_pos (Nat.lt_succ_of_le hmax)]
      exact Nat.lt_succ_self _
    have hwrote := h.wrote hx (h.forall_mem_entry_concat hx) hnew hin
    rw [hentry] at hwrote
    exact hwrote

/-- A step inside a decode that stays in `IMGDATA` is a tick that went on. -/
theorem lzwTick_of_codeStep {s t : State} {p : CodePos} (hs : s.state = .imgData) (hp : s.lzwPos = some p)
    (h : step s = .next t) (ht : t.state = .imgData) : lzwTick p s = .ok t := by
  rcases place_of_lzwPos hs hp with hplace | ⟨rfl, -, -⟩
  · rw [step_eq_tick hplace] at h
    rcases Flow.outcome_next h with hok | hraised
    · exact hok
    · rw [lzwTick_raised_state hraised] at ht
      cases ht
  · exact lzwTick_of_step hs hp h ht

/-- Settles O52: the set-up meets the ranges, and a step that stays in the decode is a tick, whose ways keep them. -/
theorem codesKeepTheLzwInvariant : Obligations.CodesKeepTheLzwInvariant := by
  refine ⟨fun s t hs hinit => ?_, fun s t p q hp hok hstep ht hq => ?_⟩
  · have honly := s.lzwInit_keeps
    rw [hinit] at honly
    exact lzwOk_iff.mpr ⟨(LzwOnly.state honly).trans hs, lzwRegs_of_lzwInit hinit⟩
  · obtain ⟨hs, hregs⟩ := lzwOk_iff.mp hok
    obtain ⟨hin, hway⟩ := lzwTick_cases (lzwTick_of_codeStep hs hp hstep ht)
    exact lzwOk_iff.mpr ⟨ht, hway.keeps hregs hp hin hq⟩

end Sys2Proof.Machine
end

section
/-! PROOFS. Decision D3: a decode taken code by code ends where the one step of `IDATA` ends. Both are the same ticks; a tick that
goes on takes at least one bit, so the bound of `lzwRun` is not met. -/

namespace Sys2Proof.Machine

/-! ### Runs of steps -/

section
variable {s : State}

theorem runFor_of_ended (h : s.ended = true) (k : Nat) : runFor k s = .next s := by
  cases k with
  | zero => rfl
  | succ k => rw [runFor, if_pos h]

theorem runFor_succ_of_next {t : State} (h : s.ended = false) (hstep : step s = .next t) (k : Nat) :
    runFor (k + 1) s = runFor k t := by
  rw [runFor, h, hstep]
  rfl

theorem runFor_one (h : s.ended = false) : runFor 1 s = step s := by
  rw [runFor, h]
  cases step s <;> rfl

theorem ended_eq_false (hdone : s.state ≠ .done) (hfault : s.state ≠ .fault) : s.ended = false := by
  simp [State.ended, hdone, hfault]

end

/-! ### What a tick leaves for the next one -/

/-- A decode under way that `n` more ticks are enough for: each takes a bit, and there are fewer bits left. -/
structure Decoding (n : Nat) (s : State) : Prop where
  state : s.state = .imgData
  width : 1 ≤ s.w
  inside : s.bitOff ≤ 8 * s.pay.length
  bound : 8 * s.pay.length < s.bitOff + n

/-- The place stays one of the code stream. -/
theorem TickWay.exists_lzwPos {p : CodePos} {s t : State} (h : TickWay p s t) (hp : s.lzwPos = some p) :
    ∃ q, t.lzwPos = some q := by
  cases h with
  | start _ => exact ⟨.first, rfl⟩
  | first _ _ _ _ | clear _ _ _ _ _ => exact ⟨.loop, rfl⟩
  | eoi _ | known _ _ _ _ _ _ | kwkwk _ _ _ _ _ _ _ => exact ⟨p, hp⟩

/-- The width stays positive. -/
theorem TickWay.width_pos {p : CodePos} {s t : State} (h : TickWay p s t) (hw : 1 ≤ s.w) : 1 ≤ t.w := by
  have hgrown : 1 ≤ s.grown := by
    unfold State.grown
    split <;> omega
  cases h with
  | start _ | first _ _ _ _ | eoi _ => exact hw
  | clear _ _ _ _ _ => exact Nat.succ_pos _
  | known _ _ _ _ _ _ | kwkwk _ _ _ _ _ _ _ => exact hgrown

theorem Decoding.tick {n : Nat} {p : CodePos} {s t : State} (h : Decoding (n + 1) s) (htick : lzwTick p s = .ok t) :
    Decoding n t := by
  have honly : LzwOnly s t := by
    have hkeeps := lzwTick_keeps p s
    rw [htick] at hkeeps
    exact hkeeps
  obtain ⟨-, hway⟩ := lzwTick_cases htick
  obtain ⟨hforward, hinside⟩ := lzwTick_progress h.width htick
  have hbound := h.bound
  exact {
    state := honly.state.trans h.state
    width := hway.width_pos h.width
    inside := hinside
    bound := by rw [honly.pay]; omega }

/-! ### The two granularities -/

/-- A run of ticks begins with the tick of its place; in the main loop unread bits have to remain. -/
theorem lzwRun_succ {s : State} {p : CodePos} (hp : s.lzwPos = some p) (hmore : p = .loop → s.moreCodes = true) (n : Nat) :
    lzwRun (n + 1) s = (lzwTick p s).bind (lzwRun n) := by
  cases p with
  | start | first => simp only [lzwRun, hp]
  | loop => simp only [lzwRun, hp, hmore rfl, if_true]

/-- Where the loop has ended, so has the run of ticks. -/
theorem lzwRun_of_loopEnd {s : State} (hp : s.lzwPos = some .loop) (hend : s.moreCodes = false) (n : Nat) :
    lzwRun n s = .ok s := by
  cases n with
  | zero => rfl
  | succ n => simp [lzwRun, hp, hend]

/-- Steps of one code each come to the run of ticks and what follows it. -/
theorem exists_runFor_eq_lzwRun {n : Nat} {s : State} {p : CodePos} (h : Decoding n s) (hp : s.lzwPos = some p) :
    ∃ k, runFor k s = ((lzwRun n s).bind State.finishImage).outcome := by
  induction n generalizing s p with
  | zero =>
    obtain ⟨-, -, hinside, hbound⟩ := h
    omega
  | succ n ih =>
    have hgoing : s.ended = false := ended_eq_false (by rw [h.state]; nofun) (by rw [h.state]; nofun)
    by_cases hmore : p = .loop → s.moreCodes = true
    · have hstep := step_eq_tick (place_code h.state hp hmore)
      rw [lzwRun_succ hp hmore]
      cases htick : lzwTick p s with
      | ok t =>
        rw [htick] at hstep
        obtain ⟨-, hway⟩ := lzwTick_cases htick
        obtain ⟨q, hq⟩ := hway.exists_lzwPos hp
        obtain ⟨k, hk⟩ := ih (h.tick htick) hq
        exact ⟨k + 1, (runFor_succ_of_next hgoing hstep k).trans hk⟩
      | raised t =>
        rw [htick] at hstep
        exact ⟨1, (runFor_one hgoing).trans hstep⟩
      | stuck r =>
        have hkeeps := lzwTick_keeps p s
        rw [htick] at hkeeps
        exact hkeeps.elim
    · obtain ⟨rfl, hopen⟩ := Classical.not_imp.mp hmore
      have hend := Bool.eq_false_iff.mpr hopen
      rw [lzwRun_of_loopEnd hp hend]
      exact ⟨1, (runFor_one hgoing).trans (step_of_loopEnd h.state hp hend)⟩

/-- The state a decode starts in. -/
theorem decoding_of_lzwInit {s t : State} (hs : s.state = .imgData) (h : s.lzwInit = .ok t) :
    Decoding (8 * t.payLen + 1) t ∧ t.lzwPos = some .start := by
  rcases Nat.lt_or_ge maxMcs s.mcs.toNat with hlarge | hle
  · rw [State.lzwInit_of_large hlarge] at h
    cases h
  · rw [State.lzwInit_of_le hle] at h
    cases h
    exact ⟨⟨hs, Nat.succ_pos _, Nat.zero_le _, by simp⟩, rfl⟩

/-- Settles O54: after the gathering and the set-up, the one step is the run of ticks and the end of the block. -/
theorem codeByCodeIsTheWholeImageStep : Obligations.CodeByCodeIsTheWholeImageStep := by
  intro s g u mcs blocks hs hgather hinit
  have hworked := gather_keeps _ mcs blocks s (Nat.le_refl _)
  rw [hgather] at hworked
  obtain ⟨hdecoding, hp⟩ := decoding_of_lzwInit ((Worked.state hworked).trans hs) hinit
  obtain ⟨k, hk⟩ := exists_runFor_eq_lzwRun hdecoding hp
  refine ⟨k, hk.trans ?_⟩
  rw [exec, execIdata, hgather, Flow.ok_bind, State.lzwDecode, hinit, Flow.ok_bind]

end Sys2Proof.Machine
end

section
/-! PROOFS. Every run ends (43_container.md R205 (b)). A step of `CONTENT` only looks at a byte, and every other step that goes on
consumes one; so `stepsLeft` falls with every step. -/

namespace Sys2Proof.Machine

/-- A state between two steps of a run: no decode is under way, and an open image block has its frame. -/
structure BetweenSteps (s : State) : Prop where
  idle : s.lzwPos = none
  frame : s.state = .lct ∨ s.state = .imgData → s.frames ≠ []

/-- A bound on the steps to the end of the run: two for each unread byte, and one for the lookahead of `CONTENT`. -/
def stepsLeft (s : State) : Nat :=
  if s.ended then 0 else if s.state = .content then 2 * s.avail + 1 else max 1 (2 * s.avail)

section
variable {s t : State}

theorem BetweenSteps.of_closed (hidle : t.lzwPos = none) (ht : t.state.betweenBlocks = true) : BetweenSteps t where
  idle := hidle
  frame := by
    obtain ⟨hlct, himg, -⟩ := ParserState.betweenBlocks_iff.mp ht
    exact fun h => (h.elim hlct himg).elim

theorem stepsLeft_le (s : State) : stepsLeft s ≤ 2 * s.avail + 1 := by
  unfold stepsLeft
  split_ifs <;> omega

theorem stepsLeft_pos (h : s.ended = false) : 1 ≤ stepsLeft s := by
  rw [stepsLeft, h, if_neg Bool.false_ne_true]
  split_ifs <;> omega

theorem stepsLeft_of_other (h : s.ended = false) (hs : s.state ≠ .content) : stepsLeft s = max 1 (2 * s.avail) := by
  rw [stepsLeft, h, if_neg Bool.false_ne_true, if_neg hs]

theorem stepsLeft_of_content (hs : s.state = .content) : stepsLeft s = 2 * s.avail + 1 := by
  rw [stepsLeft, ended_eq_false (by rw [hs]; nofun) (by rw [hs]; nofun), if_neg Bool.false_ne_true, if_pos hs]

/-- Outside `CONTENT` a consumed byte is progress. -/
theorem stepsLeft_lt_of_consumed {n : Nat} (hdone : s.state ≠ .done) (hfault : s.state ≠ .fault) (hs : s.state ≠ .content)
    (hpos : 1 ≤ n) (hn : n ≤ s.avail) (ht : t.avail = s.avail - n) : stepsLeft t < stepsLeft s := by
  have hle := stepsLeft_le t
  rw [stepsLeft_of_other (ended_eq_false hdone hfault) hs]
  omega

theorem avail_of_consumed {n : Nat} (hlen : t.inLen = s.inLen) (hpos : t.pos = s.pos + n) : t.avail = s.avail - n := by
  rw [State.avail_eq, State.avail_eq, hlen, hpos, Nat.sub_add_eq]

/-- The lookahead is progress where it leaves `CONTENT`. -/
theorem stepsLeft_lt_of_lookahead {p : ParserState} (hs : s.state = .content) (havail : 1 ≤ s.avail)
    (hp : p = .ext ∨ p = .imgDesc ∨ p = .trailer) : stepsLeft (s.goto p) < stepsLeft s := by
  have hne : p ≠ .done ∧ p ≠ .fault ∧ p ≠ .content := by rcases hp with rfl | rfl | rfl <;> decide
  obtain ⟨hdone, hfault, hcontent⟩ := hne
  have hsame : (s.goto p).avail = s.avail := rfl
  rw [stepsLeft_of_other (ended_eq_false hdone hfault) hcontent, stepsLeft_of_content hs, hsame]
  omega

/-- A step ends the run, or leads to a state between steps that is nearer to the end. -/
theorem Way.progress (hway : Way s t) (h : BetweenSteps s) :
    t.ended = true ∨ (BetweenSteps t ∧ stepsLeft t < stepsLeft s) := by
  have fewer {n : Nat} {p : ParserState} (hs : s.state = p) (hp : p ≠ .done ∧ p ≠ .fault ∧ p ≠ .content) (hpos : 1 ≤ n)
      (hn : n ≤ s.avail) (hlen : t.inLen = s.inLen) (hmoved : t.pos = s.pos + n) : stepsLeft t < stepsLeft s := by
    obtain ⟨hdone, hfault, hcontent⟩ := hs ▸ hp
    exact stepsLeft_lt_of_consumed hdone hfault hcontent hpos hn (avail_of_consumed hlen hmoved)
  cases hway with
  | signature hs hn => exact .inr ⟨.of_closed h.idle rfl, fewer hs (by decide) (by decide) hn rfl rfl⟩
  | screen _ _ packed hs hn =>
    refine .inr ⟨.of_closed h.idle ?_, fewer hs (by decide) (by decide) hn rfl rfl⟩
    rw [State.goto_state]
    cases lsdGctFlag packed <;> rfl
  | globalTable cs hs hlen hn =>
    have hpos := tableEntries_pos s.gctRes
    exact .inr ⟨.of_closed h.idle rfl, fewer hs (by decide) (by omega) hn rfl rfl⟩
  | lookahead p hs havail hp =>
    refine .inr ⟨.of_closed h.idle ?_, stepsLeft_lt_of_lookahead hs havail hp⟩
    rcases hp with rfl | rfl | rfl <;> rfl
  | extension p hs hn hp =>
    refine .inr ⟨.of_closed h.idle ?_, fewer hs (by decide) (by decide) hn rfl rfl⟩
    rcases hp with rfl | rfl | rfl <;> rfl
  | control _ hs hn => exact .inr ⟨.of_closed h.idle rfl, fewer hs (by decide) (by decide) hn rfl rfl⟩
  | skipped n hs hpos hn =>
    refine .inr ⟨.of_closed h.idle rfl, ?_⟩
    rcases hs with hs | hs <;> exact fewer hs (by decide) hpos hn rfl rfl
  | descriptor _ _ packed hs hn _ =>
    exact .inr ⟨⟨h.idle, fun _ => List.concat_ne_nil _ _⟩, fewer hs (by decide) (by decide) hn rfl rfl⟩
  | localTable f cs hs hactive hlen hn =>
    have hpos := tableEntries_pos f.res
    obtain ⟨fs, hfs⟩ := State.active_eq_some.mp hactive
    refine .inr ⟨⟨h.idle, fun _ => ?_⟩, fewer hs (by decide) (by omega) hn rfl rfl⟩
    rw [State.goto_frames, State.frames_updateActive (s := s.advance _) hfs]
    exact List.concat_ne_nil _ _
  | code p _ _ hp _ _ => exact absurd (h.idle.symm.trans hp) nofun
  | image u f rgb hs hu hmoved _ _ =>
    obtain ⟨hforward, hinside⟩ := hmoved h.idle
    rw [State.withImage_eq] at fewer ⊢
    refine .inr ⟨.of_closed rfl rfl, fewer (n := u.pos - s.pos) hs (by decide) (by omega) ?_ hu.inLen ?_⟩
    · rw [State.avail_eq]
      omega
    · show u.pos = _
      omega
  | endOfStream _ _ | trailer _ _ | faulted _ _ _ _ _ _ _ _ _ | controlFaulted _ _ _ _ _ _ _ _ _ => exact .inl rfl

end

/-- As many steps as `stepsLeft` says, or more, come to the end. -/
theorem exists_runFor_ended {n : Nat} {s : State} (h : BetweenSteps s) (hn : stepsLeft s ≤ n) :
    ∃ t, runFor n s = .next t ∧ t.ended = true := by
  induction n generalizing s with
  | zero =>
    cases hended : s.ended with
    | true => exact ⟨s, rfl, hended⟩
    | false => exact absurd (Nat.le_trans (stepsLeft_pos hended) hn) (by decide)
  | succ n ih =>
    cases hended : s.ended with
    | true => exact ⟨s, runFor_of_ended hended _, hended⟩
    | false =>
      have hends : s.state ≠ .done ∧ s.state ≠ .fault := by simpa [State.ended] using hended
      obtain ⟨t, ht⟩ := (onlyTheEndStatesHaveNoStep s).2 hends.1 hends.2 h.frame
      rw [runFor_succ_of_next hended ht]
      rcases (step_cases ht).progress h with htended | ⟨hbetween, hless⟩
      · exact ⟨t, runFor_of_ended htended n, htended⟩
      · exact ih hbetween (by omega)

/-- Settles O53: from between two steps by the bound, which a launch meets with every byte unread. -/
theorem everyRunEnds : Obligations.EveryRunEnds := by
  refine ⟨fun s hidle hframe => exists_runFor_ended ⟨hidle, hframe⟩ (stepsLeft_le s), fun cfg bytes s hlaunch => ?_⟩
  rcases Nat.lt_or_ge bytes.length (2 ^ 32) with hlen | hlen
  · rw [launch_of_lt cfg hlen] at hlaunch
    cases hlaunch
    exact exists_runFor_ended (.of_closed rfl rfl) (stepsLeft_le _)
  · rw [launch_of_tooLong cfg hlen] at hlaunch
    cases hlaunch

end Sys2Proof.Machine
end

section
/-! PROOFS. The round trip (41_lzw.md R159). The decoder follows the encoder one entry behind: in the main loop the encoder's table
is the decoder's with the entry appended that the previous code and the data still to come give (`Following`). Whichever entry the
next code names, the decoder emits it and appends that same entry. -/

namespace Sys2Proof.Machine

/-! ### The bits of a packed payload -/

/-- Nested doublings are the number a byte's bits stand for. -/
theorem byteOfBits_eq_bit (b0 b1 b2 b3 b4 b5 b6 b7 : Bool) :
    byteOfBits b0 b1 b2 b3 b4 b5 b6 b7 =
      BitVec.ofNat 8 (Nat.bit b0 (Nat.bit b1 (Nat.bit b2 (Nat.bit b3 (Nat.bit b4 (Nat.bit b5 (Nat.bit b6 (Nat.bit b7 0)))))))) := by
  simp only [byteOfBits, Nat.bit_val]
  congr 1
  omega

/-- The first eight bits of a string, padded with 0 bits, as a byte. -/
def headByte (bits : List Bool) : Byte :=
  byteOfBits (bits.getD 0 false) (bits.getD 1 false) (bits.getD 2 false) (bits.getD 3 false) (bits.getD 4 false)
    (bits.getD 5 false) (bits.getD 6 false) (bits.getD 7 false)

theorem getLsbD_headByte (bits : List Bool) {k : Nat} (hk : k < 8) : (headByte bits).getLsbD k = bits.getD k false := by
  rw [headByte, byteOfBits_eq_bit, BitVec.getLsbD_ofNat, decide_eq_true hk, Bool.true_and]
  match k, hk with
  | 0, _ | 1, _ | 2, _ | 3, _ | 4, _ | 5, _ | 6, _ | 7, _ =>
    simp only [Nat.testBit_bit_succ, Nat.testBit_bit_zero]

theorem packBits_eq_cons {bits : List Bool} (h : bits ≠ []) : packBits bits = headByte bits :: packBits (bits.drop 8) := by
  match bits, h with
  | [_], _ | [_, _], _ | [_, _, _], _ | [_, _, _, _], _ | [_, _, _, _, _], _ | [_, _, _, _, _, _], _
  | [_, _, _, _, _, _, _], _ | _ :: _ :: _ :: _ :: _ :: _ :: _ :: _ :: _, _ => rfl

theorem payBit_cons_of_lt (b : Byte) (bs : List Byte) {i : Nat} (h : i < 8) : payBit (b :: bs) i = b.getLsbD i := by
  rw [payBit, Nat.div_eq_of_lt h, Nat.mod_eq_of_lt h]
  rfl

theorem payBit_cons_add (b : Byte) (bs : List Byte) (i : Nat) : payBit (b :: bs) (i + 8) = payBit bs i := by
  rw [payBit, Nat.add_div_right i (by decide), Nat.add_mod_right]
  rfl

/-- Packing keeps every bit, and pads with 0 bits. -/
theorem payBit_packBits (bits : List Bool) (i : Nat) : payBit (packBits bits) i = bits.getD i false := by
  induction i using Nat.strong_induction_on generalizing bits with
  | _ i ih =>
    by_cases hnil : bits = []
    · subst hnil
      simp [packBits, payBit]
    · rw [packBits_eq_cons hnil]
      rcases Nat.lt_or_ge i 8 with hi | hi
      · rw [payBit_cons_of_lt _ _ hi, getLsbD_headByte bits hi]
      · obtain ⟨j, rfl⟩ := Nat.exists_eq_add_of_le' hi
        rw [payBit_cons_add, ih j (by omega), List.getD_eq_getElem?_getD, List.getD_eq_getElem?_getD, List.getElem?_drop,
          Nat.add_comm]

/-- Packing takes a byte for each eight bits, and for what is left of them. -/
theorem length_packBits (bits : List Bool) :
    bits.length ≤ 8 * (packBits bits).length ∧ 8 * (packBits bits).length < bits.length + 8 := by
  induction hn : bits.length using Nat.strong_induction_on generalizing bits with
  | _ n ih =>
    by_cases hnil : bits = []
    · subst hnil
      subst hn
      decide
    · have hpos := List.length_pos_iff.mpr hnil
      obtain ⟨hle, hlt⟩ := ih (bits.drop 8).length (by rw [List.length_drop]; omega) (bits.drop 8) rfl
      rw [List.length_drop] at hle hlt
      rw [packBits_eq_cons hnil, List.length_cons]
      omega

/-- The bits of a code stream stand in the payload from an offset on; without an End-of-Information Code the payload ends with
them. -/
structure BitsAt (pay : List Byte) (withEoi : Bool) (off : Nat) (bits : List Bool) : Prop where
  inside : off + bits.length ≤ 8 * pay.length
  bit : ∀ k b, bits[k]? = some b → payBit pay (off + k) = b
  ending : withEoi = false → off + bits.length = 8 * pay.length

theorem bitsAt_packBits {bits : List Bool} {withEoi : Bool} (h : withEoi = true ∨ bits.length % 8 = 0) :
    BitsAt (packBits bits) withEoi 0 bits := by
  obtain ⟨hle, hlt⟩ := length_packBits bits
  refine ⟨by omega, fun k b hb => ?_, fun hno => ?_⟩
  · rw [Nat.zero_add, payBit_packBits, List.getD_eq_getElem?_getD, hb, Option.getD_some]
  · rcases h with h | h
    · rw [h] at hno
      cases hno
    · omega

section
variable {pay : List Byte} {withEoi : Bool} {off w c : Nat} {rest : List Bool}
  (h : BitsAt pay withEoi off (codeBits w c ++ rest))
include h

theorem BitsAt.readCode (hw : w ≤ maxWidth) (hc : c < 2 ^ w) : Sys2Proof.readCode pay off w = .ok (c, off + w) := by
  have hinside := h.inside
  rw [List.length_append, length_codeBits] at hinside
  refine readCode_of_bits hw hc (by omega) (List.map_congr_left fun k hk => (h.bit k _ ?_).symm)
  rw [List.getElem?_append_left (by rw [length_codeBits]; exact List.mem_range.mp hk), codeBits, List.getElem?_map,
    List.getElem?_range (List.mem_range.mp hk), Option.map_some]

theorem BitsAt.tail : BitsAt pay withEoi (off + w) rest := by
  have hlen : (codeBits w c ++ rest).length = w + rest.length := by rw [List.length_append, length_codeBits]
  obtain ⟨hinside, hbit, hending⟩ := h
  rw [hlen] at hinside hending
  refine ⟨by omega, fun k b hb => ?_, fun hno => by have := hending hno; omega⟩
  rw [Nat.add_assoc]
  refine hbit (w + k) b ?_
  rw [List.getElem?_append_right (by rw [length_codeBits]; omega), length_codeBits, Nat.add_sub_cancel_left, hb]

theorem BitsAt.lt (hw : 1 ≤ w) : off < 8 * pay.length := by
  have hinside := h.inside
  rw [List.length_append, length_codeBits] at hinside
  omega

end

/-! ### The tick of each class in the main loop -/

section
variable {s : State} {c off : Nat}

/-- An output buffer without a bound has room for anything. -/
theorem room_of_unbounded (h : s.cfg.pixelCap = none) (n : Nat) : ∀ cap, s.cfg.pixelCap = some cap → n ≤ cap :=
  fun _ hcap => absurd (h.symm.trans hcap) nofun

theorem lzwTick_clear {v off' : Nat} {e : List Nat} (hcap : s.cfg.pixelCap = none)
    (hread : Sys2Proof.readCode s.pay s.bitOff s.w = .ok (s.cc, off))
    (hnext : Sys2Proof.readCode s.pay (s.bitOff + s.w) (s.mcs.toNat + 1) = .ok (v, off'))
    (he : (initialTable s.cc)[v]? = some e) :
    lzwTick .loop s = .ok
      { s with
        dict := initialTable s.cc, w := s.mcs.toNat + 1, bitOff := off', out := s.out ++ e, prev := v
        lzwPos := some .loop } := by
  have hclass : (s.codeSlot .loop).classOf s.cc = .clear := if_pos rfl
  rw [lzwTick_of_ok hread, hclass, classEffect, clearEffect_of_ok (s := s.advanceBits s.w) hnext]
  exact firstEffect_of_room he (room_of_unbounded hcap _)

theorem lzwTick_eoi (hread : Sys2Proof.readCode s.pay s.bitOff s.w = .ok (s.eoi, off)) (hne : s.eoi ≠ s.cc) :
    lzwTick .loop s = .ok { s with bitOff := s.bitOff + s.w, eoiSeen := true } := by
  have hclass : (s.codeSlot .loop).classOf s.eoi = .eoi := (if_neg hne).trans (if_pos rfl)
  rw [lzwTick_of_ok hread, hclass]
  rfl

/-- The class of a code that is not reserved. -/
theorem classOf_loop (hcc : c ≠ s.cc) (heoi : c ≠ s.eoi) :
    (c < s.dict.length → (s.codeSlot .loop).classOf c = .known) ∧
    (c = s.dict.length → (s.codeSlot .loop).classOf c = .kwkwk) := by
  have hclass : (s.codeSlot .loop).classOf c =
      if c < s.dict.length then .known else if c = s.dict.length then .kwkwk else .illegal :=
    (if_neg hcc).trans (if_neg heoi)
  refine ⟨fun hlt => hclass.trans (if_pos hlt), fun heq => hclass.trans ?_⟩
  rw [if_neg (by omega), if_pos heq]

/-- An entry of the table after an append was there before, or is the new one. -/
theorem State.getElem?_appended_cases {e u : List Nat} (h : (s.appended e)[c]? = some u) :
    s.dict[c]? = some u ∨ (c = s.dict.length ∧ u = e) := by
  unfold State.appended at h
  split at h
  · exact getElem?_concat_cases h
  · exact .inl h

/-- A code that names an entry of the encoder's table emits it, be it there already or only with the append: the new entry then
begins with its own last element. -/
theorem lzwTick_of_entry (h : LzwRegs s .loop) (hcap : s.cfg.pixelCap = none) (hprev : s.entry s.prev ≠ []) {x : Nat}
    {u : List Nat} (hread : Sys2Proof.readCode s.pay s.bitOff s.w = .ok (c, off)) (hcc : c ≠ s.cc)
    (hu : (s.appended (s.entry s.prev ++ [x]))[c]? = some u) (hx : firstOf u = [x]) :
    lzwTick .loop s = .ok (s.wrote c u (s.entry s.prev ++ [x])) := by
  have hsize := h.table.size.1
  rcases State.getElem?_appended_cases hu with hold | ⟨heq, rfl⟩
  · obtain ⟨hlt, -⟩ := List.getElem?_eq_some_iff.mp hold
    have heoi : c ≠ s.eoi := fun heq => by
      rw [heq, h.eoi, h.table.reserved.2] at hold
      cases hold
      cases hx
    rw [lzwTick_of_ok hread, (classOf_loop hcc heoi).1 hlt]
    refine (knownEffect_of_room (s := s.advanceBits s.w) hold (room_of_unbounded hcap _)).trans ?_
    rw [hx]
    rfl
  · have heoi : c ≠ s.eoi := by
      rw [h.eoi]
      omega
    obtain ⟨y, p, hentry⟩ := List.exists_cons_of_ne_nil hprev
    rw [hentry] at hx ⊢
    cases hx
    have hdict : s.dict[s.prev]? = some (x :: p) := by
      obtain ⟨e, he⟩ := State.dict_some_of_lt (h.prev rfl)
      rw [he, ← hentry, State.entry_of_getElem? he]
    rw [lzwTick_of_ok hread, (classOf_loop hcc heoi).2 heq]
    exact kwkwkEffect_of_room (s := s.advanceBits s.w) hdict (room_of_unbounded hcap _)

end

/-! ### The decoder follows the encoder -/

/-- The decoder in the main loop, before the codes that write `rest`. -/
structure Following (s : State) (withEoi : Bool) (codes rest : List Nat) : Prop where
  loop : s.lzwPos = some .loop
  regs : LzwRegs s .loop
  mcs : 2 ≤ s.mcs.toNat
  unbounded : s.cfg.pixelCap = none
  unseen : s.eoiSeen = false
  prev : s.entry s.prev ≠ []
  writes : Writes s.cc codes (encoderTable s.dict (s.entry s.prev) rest) rest
  bits : BitsAt s.pay withEoi s.bitOff (streamBits s.mcs.toNat withEoi .loop s.dict.length s.w codes)

/-- A code that is not a Clear Code names an entry, and the data goes on with it. -/
theorem writes_cons_of_ne {cc c : Nat} {codes data : List Nat} {table : List (List Nat)}
    (h : Writes cc (c :: codes) table data) (hc : c ≠ cc) :
    ∃ x u rest, table[c]? = some (x :: u) ∧ data = x :: (u ++ rest) ∧
      Writes cc codes (encoderTable table (x :: u) rest) rest := by
  rw [Writes, if_neg hc] at h
  obtain ⟨u, rest, hu, hne, hdata, hrest⟩ := h
  obtain ⟨x, u, rfl⟩ := List.exists_cons_of_ne_nil hne
  exact ⟨x, u, rest, hu, hdata, hrest⟩

/-- A Clear Code is followed by a code that names an entry of the initial table. -/
theorem writes_cons_clear {cc : Nat} {codes data : List Nat} {table : List (List Nat)}
    (h : Writes cc (cc :: codes) table data) :
    ∃ d codes' x u rest, codes = d :: codes' ∧ (initialTable cc)[d]? = some (x :: u) ∧ data = x :: (u ++ rest) ∧
      Writes cc codes' (encoderTable (initialTable cc) (x :: u) rest) rest := by
  rw [Writes, if_pos rfl] at h
  obtain ⟨⟨d, codes', rfl, hd⟩, hrest⟩ := h
  obtain ⟨x, u, rest, hu, hdata, hrest⟩ := writes_cons_of_ne hrest hd
  exact ⟨d, codes', x, u, rest, rfl, hu, hdata, hrest⟩

/-- After the code behind a Clear Code. -/
theorem following_of_first {s : State} {withEoi : Bool} {codes rest u : List Nat} {x : Nat} (hloop : s.lzwPos = some .loop)
    (hregs : LzwRegs s .loop) (hmcs : 2 ≤ s.mcs.toNat) (hcap : s.cfg.pixelCap = none) (hseen : s.eoiSeen = false)
    (hdict : s.dict = initialTable s.cc) (hw : s.w = s.mcs.toNat + 1) (hu : (initialTable s.cc)[s.prev]? = some (x :: u))
    (hwrites : Writes s.cc codes (encoderTable (initialTable s.cc) (x :: u) rest) rest)
    (hbits : BitsAt s.pay withEoi s.bitOff
      (streamBits s.mcs.toNat withEoi .loop (2 ^ s.mcs.toNat + 2) (s.mcs.toNat + 1) codes)) :
    Following s withEoi codes rest := by
  have hentry : s.entry s.prev = x :: u := State.entry_of_getElem? (hdict ▸ hu)
  have hlen : s.dict.length = 2 ^ s.mcs.toNat + 2 := by rw [hdict, length_initialTable, hregs.clear]
  refine ⟨hloop, hregs, hmcs, hcap, hseen, by rw [hentry]; nofun, ?_, ?_⟩
  · rw [hentry, hdict]
    exact hwrites
  · rw [hlen, hw]
    exact hbits

section
variable {s : State} {withEoi : Bool} {codes rest : List Nat}

/-- A code of the initial table fits the width after a Clear Code. -/
theorem lt_two_pow_of_initialTable {mcs d : Nat} {e : List Nat} (hmcs : 2 ≤ mcs)
    (h : (initialTable (2 ^ mcs))[d]? = some e) : d < 2 ^ (mcs + 1) := by
  obtain ⟨hlt, -⟩ := List.getElem?_eq_some_iff.mp h
  rw [length_initialTable] at hlt
  exact Nat.lt_of_lt_of_le hlt (widthFits_initial hmcs).1

/-- A code of the encoder's table fits the width of the decoder's. -/
theorem Following.lt_two_pow (h : Following s withEoi codes rest) {e u : List Nat} {c : Nat}
    (hu : (s.appended e)[c]? = some u) : c < 2 ^ s.w := by
  obtain ⟨-, hlt⟩ := h.regs.growth h.mcs
  obtain ⟨hc, -⟩ := List.getElem?_eq_some_iff.mp hu
  rw [State.length_appended] at hc
  rcases Nat.lt_or_ge s.w maxWidth with hsmall | hfull
  · have := hlt hsmall
    split at hc <;> omega
  · rw [Nat.le_antisymm h.regs.width.2 hfull]
    have hsize : s.dict.length ≤ 4096 := h.regs.table.size.2
    show c < 4096
    split at hc
    next hroom => exact Nat.lt_of_lt_of_le hc hroom
    next => omega

/-- The bits after a code of the main loop, at the width that its append leaves. -/
theorem streamBits_loop_cons {mcs c : Nat} (hc : c ≠ 2 ^ mcs) (e : List Nat) :
    streamBits mcs withEoi .loop s.dict.length s.w (c :: codes) =
      codeBits s.w c ++ streamBits mcs withEoi .loop (s.appended e).length s.grown codes := by
  rw [streamBits, if_neg hc, State.length_appended]
  by_cases hroom : s.dict.length < tableMax
  · rw [if_pos hroom, if_pos hroom]
    congr 2
    by_cases hgrow : s.dict.length + 1 = 2 ^ s.w ∧ s.w < maxWidth
    · rw [grownWidth, State.grown, if_pos hgrow, if_pos ⟨hroom, hgrow⟩]
    · rw [grownWidth, State.grown, if_neg hgrow, if_neg fun hg => hgrow hg.2]
  · rw [if_neg hroom, if_neg hroom, State.grown, if_neg fun hg => hroom hg.1]

/-- A code that names an entry. -/
theorem Following.entryTick {c : Nat} (h : Following s withEoi (c :: codes) rest) (hc : c ≠ s.cc) :
    ∃ t rest', lzwTick .loop s = .ok t ∧ Following t withEoi codes rest' ∧ t.out ++ rest' = s.out ++ rest := by
  obtain ⟨x, u, rest', hu, rfl, hwrites⟩ := writes_cons_of_ne h.writes hc
  have hu : (s.appended (s.entry s.prev ++ [x]))[c]? = some (x :: u) := hu
  have hbits := h.bits
  rw [streamBits_loop_cons (h.regs.clear ▸ hc) (s.entry s.prev ++ [x])] at hbits
  have htick := lzwTick_of_entry h.regs h.unbounded h.prev (hbits.readCode h.regs.width.2 (h.lt_two_pow hu)) hc hu rfl
  obtain ⟨hin, hway⟩ := lzwTick_cases htick
  have hentry : (s.wrote c (x :: u) (s.entry s.prev ++ [x])).entry c = x :: u := State.entry_of_getElem? hu
  refine ⟨_, rest', htick, ⟨h.loop, hway.keeps h.regs h.loop hin h.loop, h.mcs, h.unbounded, h.unseen, ?_, ?_, hbits.tail⟩,
    ?_⟩
  · exact hentry ▸ List.cons_ne_nil x u
  · show Writes s.cc codes (encoderTable _ ((s.wrote c (x :: u) (s.entry s.prev ++ [x])).entry c) rest') rest'
    rw [hentry]
    exact hwrites
  · exact List.append_assoc ..

/-- A Clear Code, and the code it takes along. -/
theorem Following.clearTick (h : Following s withEoi (s.cc :: codes) rest) :
    ∃ t codes' rest', lzwTick .loop s = .ok t ∧ Following t withEoi codes' rest' ∧ t.out ++ rest' = s.out ++ rest := by
  obtain ⟨d, codes', x, u, rest', rfl, hu, rfl, hwrites⟩ := writes_cons_clear h.writes
  have hbits := h.bits
  rw [streamBits, if_pos h.regs.clear, streamBits] at hbits
  have hcc : s.cc < 2 ^ s.w := by
    have hsize := h.regs.table.size.1
    have hfits := (h.regs.growth h.mcs).1
    omega
  have hd : d < 2 ^ (s.mcs.toNat + 1) := lt_two_pow_of_initialTable h.mcs (h.regs.clear ▸ hu)
  have htick := lzwTick_clear h.unbounded (hbits.readCode h.regs.width.2 hcc)
    (hbits.tail.readCode (Nat.succ_le_succ h.regs.mcs) hd) hu
  obtain ⟨hin, hway⟩ := lzwTick_cases htick
  refine ⟨_, codes', rest', htick, ?_, List.append_assoc ..⟩
  exact following_of_first rfl (hway.keeps h.regs h.loop hin rfl) h.mcs h.unbounded h.unseen rfl rfl hu hwrites
    hbits.tail.tail

/-- The End-of-Information Code, where the encoder writes one. -/
theorem Following.eoiTick (h : Following s true [] rest) :
    lzwTick .loop s = .ok { s with bitOff := s.bitOff + s.w, eoiSeen := true } := by
  have hbits : BitsAt s.pay true s.bitOff (codeBits s.w s.eoi ++ []) := by
    rw [List.append_nil, h.regs.eoi, h.regs.clear]
    exact h.bits
  have heoi : s.eoi < 2 ^ s.w := by
    have hsize := h.regs.table.size.1
    have hfits := (h.regs.growth h.mcs).1
    have := h.regs.eoi
    omega
  exact lzwTick_eoi (hbits.readCode h.regs.width.2 heoi) (by rw [h.regs.eoi]; omega)

end

/-- Where the payload goes on with a code, the loop goes on. -/
theorem Following.moreCodes {s : State} {withEoi : Bool} {codes rest : List Nat} (h : Following s withEoi codes rest)
    {c : Nat} {bits : List Bool}
    (hbits : streamBits s.mcs.toNat withEoi .loop s.dict.length s.w codes = codeBits s.w c ++ bits) : s.moreCodes = true := by
  have hwidth : 1 ≤ s.w := Nat.le_trans (Nat.succ_pos _) h.regs.width.1
  have hstands := h.bits
  rw [hbits] at hstands
  exact s.moreCodes_iff.mpr ⟨hstands.lt hwidth, h.unseen⟩

/-- One more code, whatever it is. -/
theorem Following.tick {s : State} {withEoi : Bool} {c : Nat} {codes rest : List Nat}
    (h : Following s withEoi (c :: codes) rest) :
    ∃ t codes' rest', lzwTick .loop s = .ok t ∧ Following t withEoi codes' rest' ∧ t.out ++ rest' = s.out ++ rest := by
  by_cases hc : c = s.cc
  · subst hc
    exact h.clearTick
  · obtain ⟨t, rest', htick, hfollow, hout⟩ := h.entryTick hc
    exact ⟨t, codes, rest', htick, hfollow, hout⟩

/-- With no code left, the loop ends at the End-of-Information Code or at the end of the payload. -/
theorem Following.lzwRun_nil {n : Nat} {s : State} {withEoi : Bool} {rest : List Nat} (h : Following s withEoi [] rest) :
    ∃ t, Machine.lzwRun (n + 1) s = .ok t ∧ t.out = s.out ++ rest ∧ t.eoiSeen = withEoi := by
  have hrest : rest = [] := h.writes
  subst hrest
  rw [List.append_nil]
  cases withEoi with
  | true =>
    have hmore : s.moreCodes = true := h.moreCodes (c := 2 ^ s.mcs.toNat + 1) (bits := []) (List.append_nil _).symm
    have hend : State.moreCodes { s with bitOff := s.bitOff + s.w, eoiSeen := true } = false := Bool.and_false _
    refine ⟨{ s with bitOff := s.bitOff + s.w, eoiSeen := true }, ?_, rfl, rfl⟩
    rw [lzwRun_succ h.loop fun _ => hmore, h.eoiTick, Flow.ok_bind]
    refine lzwRun_of_loopEnd ?_ hend n
    exact h.loop
  | false =>
    have hall : s.bitOff = 8 * s.pay.length := h.bits.ending rfl
    have hend : s.moreCodes = false := Bool.eq_false_iff.mpr fun hmore => by
      have := (s.moreCodes_iff.mp hmore).1
      omega
    exact ⟨s, lzwRun_of_loopEnd h.loop hend _, rfl, h.unseen⟩

/-- With enough ticks the decoder writes what the codes write. -/
theorem Following.lzwRun {n : Nat} {s : State} {withEoi : Bool} {codes rest : List Nat} (h : Following s withEoi codes rest)
    (hn : 8 * s.pay.length < s.bitOff + n) :
    ∃ t, Machine.lzwRun n s = .ok t ∧ t.out = s.out ++ rest ∧ t.eoiSeen = withEoi := by
  induction n generalizing s codes rest with
  | zero =>
    have := h.regs.offset
    omega
  | succ n ih =>
    cases codes with
    | nil => exact h.lzwRun_nil
    | cons c codes =>
      have hwidth : 1 ≤ s.w := Nat.le_trans (Nat.succ_pos _) h.regs.width.1
      have hmore : s.moreCodes = true := h.moreCodes (c := c) rfl
      obtain ⟨t, codes', rest', htick, hfollow, hout⟩ := h.tick
      have hpay : t.pay = s.pay := by
        have honly := lzwTick_keeps .loop s
        rw [htick] at honly
        exact LzwOnly.pay honly
      have hforward := (lzwTick_progress hwidth htick).1
      obtain ⟨v, hrun, hvout, hseen⟩ := ih hfollow (by rw [hpay]; omega)
      exact ⟨v, by rw [lzwRun_succ h.loop fun _ => hmore, htick, Flow.ok_bind, hrun], hvout.trans hout, hseen⟩

/-! ### The start of the payload -/

/-- The state before the first code. -/
def State.decodeStart (s : State) : State :=
  { s with
    w := s.mcs.toNat + 1, cc := 2 ^ s.mcs.toNat, eoi := 2 ^ s.mcs.toNat + 1, bitOff := 0, out := []
    eoiSeen := false, dict := initialTable (2 ^ s.mcs.toNat), lzwPos := some .start }

theorem lzwInit_eq_decodeStart {s : State} (h : s.mcs.toNat ≤ maxMcs) : s.lzwInit = .ok s.decodeStart :=
  State.lzwInit_of_le h

section
variable {s : State} {c off : Nat} (hread : Sys2Proof.readCode s.pay s.bitOff s.w = .ok (c, off))
include hread

theorem lzwTick_start (hc : c = s.cc) :
    lzwTick .start s = .ok { s with bitOff := s.bitOff + s.w, lzwPos := some .first } := by
  rw [lzwTick_of_ok hread]
  exact startEffect_of_clear (s := s.advanceBits s.w) hc

theorem lzwTick_first (hcap : s.cfg.pixelCap = none) {e : List Nat} (he : s.dict[c]? = some e) :
    lzwTick .first s = .ok { s with bitOff := s.bitOff + s.w, out := s.out ++ e, prev := c, lzwPos := some .loop } := by
  rw [lzwTick_of_ok hread]
  exact firstEffect_of_room (s := s.advanceBits s.w) he (room_of_unbounded hcap _)

end

/-- After the first Clear Code and the code behind it the decoder is in the main loop. -/
theorem exists_following_of_start {s : State} {withEoi : Bool} {codes data : List Nat} (hmcs : 2 ≤ s.mcs.toNat)
    (hmax : s.mcs.toNat ≤ maxMcs) (hcap : s.cfg.pixelCap = none)
    (hwrites : Writes (2 ^ s.mcs.toNat) (2 ^ s.mcs.toNat :: codes) [] data)
    (hbits : BitsAt s.pay withEoi 0 (payloadBits s.mcs.toNat withEoi (2 ^ s.mcs.toNat :: codes))) :
    ∃ t u codes' rest, lzwTick .start s.decodeStart = .ok t ∧ t.lzwPos = some .first ∧ lzwTick .first t = .ok u ∧
      Following u withEoi codes' rest ∧ u.out ++ rest = data ∧ u.pay = s.pay ∧ 2 ≤ u.bitOff := by
  obtain ⟨d, codes', x, e, rest, rfl, he, rfl, hrest⟩ := writes_cons_clear hwrites
  rw [payloadBits, streamBits, streamBits] at hbits
  have hregs := lzwRegs_of_lzwInit (lzwInit_eq_decodeStart hmax)
  have hwidth : s.mcs.toNat + 1 ≤ maxWidth := Nat.succ_le_succ hmax
  have hcc : 2 ^ s.mcs.toNat < 2 ^ (s.mcs.toNat + 1) := Nat.pow_lt_pow_succ Nat.one_lt_two
  have hstart := lzwTick_start (s := s.decodeStart) (hbits.readCode hwidth hcc) rfl
  obtain ⟨hin, hway⟩ := lzwTick_cases hstart
  have hregs' := hway.keeps hregs rfl hin rfl
  have hfirst := lzwTick_first
    (s := { s.decodeStart with bitOff := s.decodeStart.bitOff + s.decodeStart.w, lzwPos := some .first })
    (hbits.tail.readCode hwidth (lt_two_pow_of_initialTable hmcs he)) hcap he
  obtain ⟨hin', hway'⟩ := lzwTick_cases hfirst
  refine ⟨_, _, codes', rest, hstart, rfl, hfirst, ?_, rfl, rfl, ?_⟩
  · exact following_of_first rfl (hway'.keeps hregs' rfl hin' rfl) hmcs hcap rfl rfl rfl he hrest hbits.tail.tail
  · show 2 ≤ 0 + (s.mcs.toNat + 1) + (s.mcs.toNat + 1)
    omega

/-- Settles O55: two ticks lead into the main loop, and from there the decoder follows the encoder. -/
theorem whatAConformingEncoderWritesDecodes : Obligations.WhatAConformingEncoderWritesDecodes := by
  intro s codes data withEoi hmcs hmax hcap hwrites hending hpay
  have hbits := bitsAt_packBits hending
  rw [← hpay] at hbits
  obtain ⟨t, u, codes', rest, hstart, htpos, hfirst, hfollow, hdata, hupay, hoff⟩ :=
    exists_following_of_start hmcs hmax hcap hwrites hbits
  obtain ⟨n, hn⟩ : ∃ n, 8 * s.decodeStart.payLen + 1 = n + 2 := ⟨8 * s.pay.length - 1, by
    have := hfollow.regs.offset
    rw [hupay] at this
    show 8 * s.pay.length + 1 = _
    omega⟩
  have hbound : 8 * s.pay.length + 1 = n + 2 := hn
  obtain ⟨v, hrun, hout, hseen⟩ := hfollow.lzwRun (n := n) (by rw [hupay]; omega)
  refine ⟨v, ?_, hout.trans hdata, hseen⟩
  rw [State.lzwDecode, lzwInit_eq_decodeStart hmax, Flow.ok_bind, hn, lzwRun_succ (p := .start) rfl nofun, hstart, Flow.ok_bind,
    lzwRun_succ htpos nofun, hfirst, Flow.ok_bind, hrun]

end Sys2Proof.Machine
end
